-- ==== Sys2Proof/Word.lean ====
section
/-! DEFINITION. The word types of SIE-CTE: bytes of EP_SRAM and 32-bit registers (10_state.md R20, R29). -/

namespace Sys2Proof

/-- One byte of EP_SRAM or of a packet (10_state.md R29). -/
abbrev Byte := BitVec 8

/-- One 32-bit register or SRAM word (10_state.md R20, 20_memory.md R72). -/
abbrev Word := BitVec 32

end Sys2Proof
end

