-- ==== Sys2Proof/Config.lean ====
section
/-! DEFINITION. The implementation parameters of 00_scope.md R5, and the free values the spec leaves open. -/

namespace Sys2Proof.Config

/-- `EPCSR_WRITE`: what a write of an endpoint control/status register does (40_register_access.md R137). -/
inductive EpCsrWrite where
  | toggle
  | plain
  deriving DecidableEq, Repr

/-- `SRAMRST_CONTENT`: what an SRAM/DATA-toggle reset does to the SRAM bytes (40_register_access.md R132). -/
inductive SramRstContent where
  | any
  | preserve
  | zero
  deriving DecidableEq, Repr

/-- `REGMAP`: where every register stands in the window, by byte offset, and every field in its register, by the
position of its least significant bit (00_scope.md R5, R142 of 40_register_access.md). A bank holds the three registers
of an endpoint at offsets from its start. -/
structure RegMap where
  csr : Nat
  ier : Nat
  isr : Nat
  devar : Nat
  bank : Nat
  bankStride : Nat
  bankCsr : Nat
  bankTcr : Nat
  bankCfgr : Nat
  windowEnd : Nat
  fres : Nat
  pdwn : Nat
  sramrstc : Nat
  dppuen : Nat
  ugie : Nat
  sofie : Nat
  urstie : Nat
  rsmie : Nat
  suspie : Nat
  ep0ie : Nat
  ep1ie : Nat
  ep2ie : Nat
  ep3ie : Nat
  sofif : Nat
  urstif : Nat
  rsmif : Nat
  suspif : Nat
  ep0if : Nat
  ep1if : Nat
  ep2if : Nat
  ep3if : Nat
  deva : Nat
  naktx : Nat
  stltx : Nat
  nakrx : Nat
  stlrx : Nat
  txcnt : Nat
  rxcnt : Nat
  epbufa : Nat
  eplen : Nat
  epadr : Nat
  epdir : Nat
  eptype : Nat
  epen : Nat
  deriving DecidableEq, Repr

/-- The register map of 10_state.md R20 to R27; the window is 0x000 to 0x0B3 (20_memory.md R70). -/
def RegMap.std : RegMap where
  csr := 0x000
  ier := 0x004
  isr := 0x008
  devar := 0x010
  bank := 0x014
  bankStride := 0x14
  bankCsr := 0x00
  bankTcr := 0x0C
  bankCfgr := 0x10
  windowEnd := 0x0B4
  fres := 1
  pdwn := 2
  sramrstc := 9
  dppuen := 10
  ugie := 0
  sofie := 1
  urstie := 2
  rsmie := 3
  suspie := 4
  ep0ie := 8
  ep1ie := 9
  ep2ie := 10
  ep3ie := 11
  sofif := 1
  urstif := 2
  rsmif := 3
  suspif := 4
  ep0if := 8
  ep1if := 9
  ep2if := 10
  ep3if := 11
  deva := 0
  naktx := 1
  stltx := 2
  nakrx := 4
  stlrx := 5
  txcnt := 0
  rxcnt := 16
  epbufa := 0
  eplen := 10
  epadr := 24
  epdir := 28
  eptype := 29
  epen := 31

/-- The numeric literals of 00_scope.md R5: `N_EP` and `N_EP_IRQ` (this model holds 8 endpoints and 4 status bits,
of which a smaller number leaves some out; more is out of scope, R4(c)), `SRAM_SIZE`, `WORD`, the SRAM partition
(10_state.md R30), the packet size, and the register map. -/
structure Layout where
  nEp : Nat
  nEpIrq : Nat
  sramSize : Nat
  word : Nat
  ep0SetupOff : Nat
  ep0SetupLen : Nat
  ep0TxOff : Nat
  ep0TxLen : Nat
  ep0RxOff : Nat
  ep0RxLen : Nat
  epnBase : Nat
  epnRegionLen : Nat
  maxPkt : Nat
  regs : RegMap
  deriving DecidableEq, Repr

/-- The values of 00_scope.md R5; the region length is decision D4. -/
def Layout.std : Layout where
  nEp := 8
  nEpIrq := 4
  sramSize := 1024
  word := 4
  ep0SetupOff := 0x000
  ep0SetupLen := 8
  ep0TxOff := 0x008
  ep0TxLen := 64
  ep0RxOff := 0x048
  ep0RxLen := 64
  epnBase := 0x088
  epnRegionLen := 124
  maxPkt := 64
  regs := RegMap.std

/-- `DEFAULT_ADDR`: the endpoint number taken for each (direction, type) pair (42_allocator.md R203). -/
structure DefaultAddr where
  control : BitVec 4
  bulkIn : BitVec 4
  bulkOut : BitVec 4
  interruptIn : BitVec 4
  interruptOut : BitVec 4
  deriving DecidableEq, Repr

/-- The table of 42_allocator.md R203: control 0, bulk IN 3, bulk OUT 2, interrupt IN 1, interrupt OUT 4. -/
def DefaultAddr.std : DefaultAddr where
  control := 0
  bulkIn := 3
  bulkOut := 2
  interruptIn := 1
  interruptOut := 4

/-- The configuration record of 00_scope.md R5; no rule depends on the two base addresses (20_memory.md R74).
A budget is at least 1 (R374), so its number of checks AFTER the first is what is held:
`SETUP_TIMEOUT_POLLS = setupMoreChecks + 1`, `CTRL_RETRY_MAX = ctrlMoreChecks + 1`. -/
structure Params where
  regBase : Word
  sramBase : Word
  layout : Layout
  defaultAddr : DefaultAddr
  ierMask : Word
  epcsrWrite : EpCsrWrite
  acceptArmsStatus : Bool
  sramRstContent : SramRstContent
  setupMoreChecks : Nat
  ctrlMoreChecks : Nat
  deriving DecidableEq, Repr

/-- The OPEN budget `SETUP_TIMEOUT_POLLS`, less 1: a free value (00_scope.md R5, 70_reset_and_hazards.md R374). -/
opaque freeSetupMoreChecks : Nat

/-- The OPEN budget `CTRL_RETRY_MAX`, less 1: a free value (00_scope.md R5, 70_reset_and_hazards.md R374). -/
opaque freeCtrlMoreChecks : Nat

/-- The byte at an SRAM offset that nothing has written since the draw numbered by the first argument:
a free value (10_state.md R29, 40_register_access.md R132). -/
opaque freeSram : Nat → Nat → BitVec 8

/-- The free choice among the bytes a racing access may see, by the number of the choice and the offset
(20_memory.md R78). -/
opaque freePick : Nat → Nat → Nat

/-- A byte of a packet that the SIE is receiving while firmware reads the buffer, by the number of the choice
and the offset (20_memory.md R78): a free value. -/
opaque freeIncoming : Nat → Nat → BitVec 8

/-- The free choice among the transmit counts a racing IN transaction may use, by the number of the choice
(40_register_access.md R138, 20_memory.md R78). -/
opaque freeCount : Nat → Nat

/-- What a read of a register-window offset that holds no register returns, by the number of the draw
(10_state.md R28): a free value. -/
opaque freeHole : Nat → Word

/-- The defaults of 00_scope.md R5, the two OPEN budgets free. -/
def Params.std : Params where
  regBase := 0x400A8000#32
  sramBase := 0x400AA000#32
  layout := Layout.std
  defaultAddr := DefaultAddr.std
  ierMask := 0x00000F1F#32
  epcsrWrite := .toggle
  acceptArmsStatus := true
  sramRstContent := .any
  setupMoreChecks := freeSetupMoreChecks
  ctrlMoreChecks := freeCtrlMoreChecks

end Sys2Proof.Config
end

