-- ==== Sys2Proof/Syntax.lean ====
section
/-! DEFINITION. The operations of SIE-CTE as syntax: one constructor of `Instr` per row of
spec/opcode_table.json (30_encoding.md R100, R108). -/

namespace Sys2Proof

/-- The direction of an endpoint: OUT host-to-device, IN device-to-host (30_encoding.md R102, R12 of 00_scope.md). -/
inductive Dir where
  | out
  | inp
  deriving DecidableEq, Repr

/-- Transfer types (30_encoding.md R103). -/
inductive EpType where
  | control
  | isochronous
  | bulk
  | interrupt
  deriving DecidableEq, Repr

/-- An Endpoint Address: a 4-bit number and a direction (30_encoding.md R102). The same pair is the
handle on which endpoint operations are called (42_allocator.md R205). -/
structure EpAddr where
  num : BitVec 4
  dir : Dir
  deriving DecidableEq, Repr

/-- The operations of the block. Bus stimuli carry the fields of format B (30_encoding.md R100, R101),
register accesses the write data of format R, engine operations the typed operands of R108. -/
inductive Instr where
  -- bus stimuli (41_bus_side.md)
  | bReset
  | bSuspend
  | bResume
  | bSof
  | bSetup (addr : BitVec 7) (ep : BitVec 4) (data : List Byte)
  | bOut (addr : BitVec 7) (ep : BitVec 4) (pid : BitVec 4) (data : List Byte)
  | bIn (addr : BitVec 7) (ep : BitVec 4) (ack : Bool)
  -- construction and allocation (42_allocator.md)
  | newDriver (vbusDetection enableVbusDetect : Bool)
  | allocIn (type : EpType) (opt : Option EpAddr) (mps : Nat) (interval : Byte)
  | allocOut (type : EpType) (opt : Option EpAddr) (mps : Nat) (interval : Byte)
  | start (cmps : Nat)
  | bufmap (number : Nat) (dir : Dir)
  -- dispatcher (43_dispatcher.md)
  | irq
  | poll
  | epSetStalled (address : EpAddr) (stalled : Bool)
  | epIsStalled (address : EpAddr)
  | epSetEnabled (address : EpAddr) (enabled : Bool)
  | enable
  | disable
  | remoteWakeup
  -- control pipe (44_control_pipe.md)
  | cpMaxPacketSize
  | cpSetup
  | cpDataOut (len : Nat) (first last : Bool)
  | cpDataIn (data : List Byte) (first last : Bool)
  | cpAccept
  | cpReject
  | cpAcceptSetAddress (addr : BitVec 7)
  -- endpoint I/O (42_allocator.md R207, 45_endpoint_io.md)
  | epInfo (endpoint : EpAddr)
  | epWaitEnabled (endpoint : EpAddr)
  | epRead (endpoint : EpAddr) (len : Nat)
  | epWrite (endpoint : EpAddr) (data : List Byte)
  -- register and SRAM accesses (40_register_access.md)
  | rd32Csr
  | wr32Csr (wdata : Word)
  | rd32Ier
  | wr32Ier (wdata : Word)
  | rd32Isr
  | wr32Isr (wdata : Word)
  | rd32Devar
  | wr32Devar (wdata : Word)
  | rd32Ep0csr
  | wr32Ep0csr (wdata : Word)
  | rd32Ep0tcr
  | wr32Ep0tcr (wdata : Word)
  | rd32Ep0cfgr
  | wr32Ep0cfgr (wdata : Word)
  | rd32Ep1csr
  | wr32Ep1csr (wdata : Word)
  | rd32Ep1tcr
  | wr32Ep1tcr (wdata : Word)
  | rd32Ep1cfgr
  | wr32Ep1cfgr (wdata : Word)
  | rd32Ep2csr
  | wr32Ep2csr (wdata : Word)
  | rd32Ep2tcr
  | wr32Ep2tcr (wdata : Word)
  | rd32Ep2cfgr
  | wr32Ep2cfgr (wdata : Word)
  | rd32Ep3csr
  | wr32Ep3csr (wdata : Word)
  | rd32Ep3tcr
  | wr32Ep3tcr (wdata : Word)
  | rd32Ep3cfgr
  | wr32Ep3cfgr (wdata : Word)
  | rd32Ep4csr
  | wr32Ep4csr (wdata : Word)
  | rd32Ep4tcr
  | wr32Ep4tcr (wdata : Word)
  | rd32Ep4cfgr
  | wr32Ep4cfgr (wdata : Word)
  | rd32Ep5csr
  | wr32Ep5csr (wdata : Word)
  | rd32Ep5tcr
  | wr32Ep5tcr (wdata : Word)
  | rd32Ep5cfgr
  | wr32Ep5cfgr (wdata : Word)
  | rd32Ep6csr
  | wr32Ep6csr (wdata : Word)
  | rd32Ep6tcr
  | wr32Ep6tcr (wdata : Word)
  | rd32Ep6cfgr
  | wr32Ep6cfgr (wdata : Word)
  | rd32Ep7csr
  | wr32Ep7csr (wdata : Word)
  | rd32Ep7tcr
  | wr32Ep7tcr (wdata : Word)
  | rd32Ep7cfgr
  | wr32Ep7cfgr (wdata : Word)
  | rd32Sram (off : BitVec 12)
  | wr32Sram (off : BitVec 12) (wdata : Word)
  deriving DecidableEq, Repr

end Sys2Proof
end

