-- ==== Sys2Proof/WellFormed.lean ====
section
/-! DEFINITION. Well-formed operations: the operands fit the fields of their formats (30_encoding.md R100,
R107), and the number operands fit the 16-bit fields this model encodes them in (notes/assumptions/10.md). -/

namespace Sys2Proof

/-- The data of a bus packet: 0 to 1023 bytes (30_encoding.md R100). -/
def busDataFits (data : List Byte) : Bool := decide (data.length ≤ 1023)

/-- A number operand fits its 16-bit field (notes/assumptions/10.md). -/
def numberFits (n : Nat) : Bool := decide (n < 65536)

/-- A byte sequence operand's length fits its 16-bit field (notes/assumptions/10.md). -/
def bytesFit (data : List Byte) : Bool := decide (data.length < 65536)

/-- An SRAM access offset is a multiple of 4 in 0x000 to 0x3FC (30_encoding.md R107). -/
def sramOffsetOk (off : BitVec 12) : Bool := decide (off.toNat % 4 = 0) && decide (off.toNat ≤ 0x3FC)

/-- Well-formedness of an operation. -/
def Instr.wf : Instr → Bool
  | .bSetup _ _ data => busDataFits data
  | .bOut _ _ _ data => busDataFits data
  | .allocIn _ _ mps _ => numberFits mps
  | .allocOut _ _ mps _ => numberFits mps
  | .start cmps => numberFits cmps
  | .bufmap number _ => decide (number < 256)
  | .cpDataOut len _ _ => numberFits len
  | .cpDataIn data _ _ => bytesFit data
  | .epRead _ len => numberFits len
  | .epWrite _ data => bytesFit data
  | .rd32Sram off => sramOffsetOk off
  | .wr32Sram off _ => sramOffsetOk off
  | .bReset | .bSuspend | .bResume | .bSof | .bIn _ _ _ => true
  | .newDriver _ _ | .irq | .poll | .epSetStalled _ _ | .epIsStalled _ | .epSetEnabled _ _ => true
  | .enable | .disable | .remoteWakeup | .cpMaxPacketSize | .cpSetup | .cpAccept | .cpReject => true
  | .cpAcceptSetAddress _ | .epInfo _ | .epWaitEnabled _ => true
  | .rd32Csr | .wr32Csr _ | .rd32Ier | .wr32Ier _ | .rd32Isr | .wr32Isr _ | .rd32Devar | .wr32Devar _ => true
  | .rd32Ep0csr | .wr32Ep0csr _ | .rd32Ep0tcr | .wr32Ep0tcr _ | .rd32Ep0cfgr | .wr32Ep0cfgr _ => true
  | .rd32Ep1csr | .wr32Ep1csr _ | .rd32Ep1tcr | .wr32Ep1tcr _ | .rd32Ep1cfgr | .wr32Ep1cfgr _ => true
  | .rd32Ep2csr | .wr32Ep2csr _ | .rd32Ep2tcr | .wr32Ep2tcr _ | .rd32Ep2cfgr | .wr32Ep2cfgr _ => true
  | .rd32Ep3csr | .wr32Ep3csr _ | .rd32Ep3tcr | .wr32Ep3tcr _ | .rd32Ep3cfgr | .wr32Ep3cfgr _ => true
  | .rd32Ep4csr | .wr32Ep4csr _ | .rd32Ep4tcr | .wr32Ep4tcr _ | .rd32Ep4cfgr | .wr32Ep4cfgr _ => true
  | .rd32Ep5csr | .wr32Ep5csr _ | .rd32Ep5tcr | .wr32Ep5tcr _ | .rd32Ep5cfgr | .wr32Ep5cfgr _ => true
  | .rd32Ep6csr | .wr32Ep6csr _ | .rd32Ep6tcr | .wr32Ep6tcr _ | .rd32Ep6cfgr | .wr32Ep6cfgr _ => true
  | .rd32Ep7csr | .wr32Ep7csr _ | .rd32Ep7tcr | .wr32Ep7tcr _ | .rd32Ep7cfgr | .wr32Ep7cfgr _ => true

end Sys2Proof
end

