-- ==== Sys2Proof/Decode.lean ====
section
/-! DEFINITION. Decoding, total on any bytes, and the encoder. Formats B and O are led by the 8-bit id of
30_encoding.md R108; format R is the 14-bit record of R100, in two little-endian bytes, then the write data.
The byte layout of format O's operands is this model's (notes/assumptions/10.md). -/

namespace Sys2Proof

/-- How an operation is presented: led by an operation id (formats B and O), or as a register access
(format R) (30_encoding.md R100). -/
inductive Port where
  | op
  | access
  deriving DecidableEq, Repr

/-- Why bytes decode to no operation. -/
inductive DecodeError where
  /-- The bytes end inside the operation. -/
  | truncated
  /-- The id names no operation (30_encoding.md R108, R111(c)). -/
  | unknownId (id : Byte)
  /-- A transfer type above 3 (R103). -/
  | badTransferType (code : Byte)
  /-- A boolean that is neither 0 nor 1 (R106), or a direction or presence byte that is neither. -/
  | badFlag (code : Byte)
  /-- Bits 6 to 4 of an endpoint address byte are not 0 (R102). -/
  | reservedAddressBits (address : Byte)
  /-- A bus packet of more than 1023 bytes (R100). -/
  | dataTooLong (len : Nat)
  /-- Bits outside the 14 bits of format R are not 0 (R100). -/
  | reservedAccessBits
  /-- The offset is not a multiple of 4 (R107, 20_memory.md R72). -/
  | misaligned (off : Nat)
  /-- The offset lies outside the register window or outside EP_SRAM (40_register_access.md R143). -/
  | outsideWindow (off : Nat)
  /-- A read of a register-window offset that holds no register (10_state.md R28). -/
  | holeRead (off : Nat)
  /-- A write of a register-window offset that holds no register (10_state.md R28). -/
  | holeWrite (off : Nat)
  deriving DecidableEq, Repr

/-! ### Readers: each takes its bytes from the front of a list. -/

/-- One byte. -/
def readByte : List Byte → Except DecodeError (Byte × List Byte)
  | [] => .error .truncated
  | b :: r => .ok (b, r)

/-- A 16-bit number, low byte first. -/
def readNumber : List Byte → Except DecodeError (Nat × List Byte)
  | b0 :: b1 :: r => .ok (b0.toNat + 256 * b1.toNat, r)
  | _ => .error .truncated

/-- A 16-bit field group, low byte first. -/
def readHalf : List Byte → Except DecodeError (BitVec 16 × List Byte)
  | b0 :: b1 :: r => .ok (b1 ++ b0, r)
  | _ => .error .truncated

/-- A 32-bit word, low byte first (20_memory.md R71). -/
def readWord : List Byte → Except DecodeError (Word × List Byte)
  | b0 :: b1 :: b2 :: b3 :: r => .ok (b3 ++ b2 ++ b1 ++ b0, r)
  | _ => .error .truncated

/-- A boolean: 0 false, 1 true (30_encoding.md R106). -/
def readFlag : List Byte → Except DecodeError (Bool × List Byte)
  | [] => .error .truncated
  | b :: r => if b = 0#8 then .ok (false, r) else if b = 1#8 then .ok (true, r) else .error (.badFlag b)

/-- A direction: 0 OUT, 1 IN (30_encoding.md R102). -/
def readDir (bs : List Byte) : Except DecodeError (Dir × List Byte) :=
  match readFlag bs with
  | .error e => .error e
  | .ok (f, r) => .ok (if f then .inp else .out, r)

/-- A transfer type code (30_encoding.md R103). DESIGN CHOICE (notes/assumptions/10.md): a byte above 3 is refused. -/
def readType : List Byte → Except DecodeError (EpType × List Byte)
  | [] => .error .truncated
  | b :: r =>
    match b.toNat with
    | 0 => .ok (.control, r)
    | 1 => .ok (.isochronous, r)
    | 2 => .ok (.bulk, r)
    | 3 => .ok (.interrupt, r)
    | _ => .error (.badTransferType b)

/-- An endpoint address byte: bit 7 direction, bits 3 to 0 number, bits 6 to 4 zero (30_encoding.md R102). DESIGN CHOICE
(notes/assumptions/10.md): a byte in which these are not zero is refused. -/
def readAddr : List Byte → Except DecodeError (EpAddr × List Byte)
  | [] => .error .truncated
  | b :: r =>
    if b.extractLsb' 4 3 = 0#3 then
      .ok (⟨b.extractLsb' 0 4, if b.getLsbD 7 then .inp else .out⟩, r)
    else .error (.reservedAddressBits b)

/-- An optional endpoint address: a presence byte, then the address byte (ignored when absent). -/
def readOptAddr (bs : List Byte) : Except DecodeError (Option EpAddr × List Byte) :=
  match readFlag bs with
  | .error e => .error e
  | .ok (true, r) =>
    match readAddr r with
    | .error e => .error e
    | .ok (a, r) => .ok (some a, r)
  | .ok (false, r) =>
    match readByte r with
    | .error e => .error e
    | .ok (_, r) => .ok (none, r)

/-- A byte sequence: its 16-bit length, then the bytes. -/
def readBytes (bs : List Byte) : Except DecodeError (List Byte × List Byte) :=
  match readNumber bs with
  | .error e => .error e
  | .ok (n, r) => if r.length < n then .error .truncated else .ok (r.take n, r.drop n)

/-- The data of a bus packet: at most 1023 bytes (30_encoding.md R100). DESIGN CHOICE (notes/assumptions/10.md): more is
refused. -/
def readBusData (bs : List Byte) : Except DecodeError (List Byte × List Byte) :=
  match readBytes bs with
  | .error e => .error e
  | .ok (d, r) => if d.length ≤ 1023 then .ok (d, r) else .error (.dataTooLong d.length)

/-! ### Format R (30_encoding.md R107) -/

/-- Which register of an endpoint's bank. -/
inductive BankReg where
  | csr
  | tcr
  | cfgr
  deriving DecidableEq, Repr

/-- What a register-window offset selects. -/
inductive RegSel where
  | csr
  | ier
  | isr
  | devar
  | bank (n : Fin 8) (r : BankReg)
  | hole
  deriving DecidableEq, Repr

/-- The register of a bank at an offset from the bank's start. -/
def bankSelect (m : Config.RegMap) (n : Fin 8) (r : Nat) : RegSel :=
  if r = m.bankCsr then .bank n .csr
  else if r = m.bankTcr then .bank n .tcr
  else if r = m.bankCfgr then .bank n .cfgr
  else .hole

/-- The register at an offset inside the window: the bank of endpoint `n = (off - 0x014) div 0x14` is selected by the
address alone (30_encoding.md R107, 10_state.md R20), and an endpoint the machine does not have has no bank. -/
def regSelect (l : Config.Layout) (off : Nat) : RegSel :=
  if off = l.regs.csr then .csr
  else if off = l.regs.ier then .ier
  else if off = l.regs.isr then .isr
  else if off = l.regs.devar then .devar
  else if off < l.regs.bank then .hole
  else if (off - l.regs.bank) / l.regs.bankStride < min 8 l.nEp then
    bankSelect l.regs (Fin.ofNat 8 ((off - l.regs.bank) / l.regs.bankStride)) ((off - l.regs.bank) % l.regs.bankStride)
  else .hole

/-- The read of endpoint `n`'s `EPnCSR`. -/
def readCsrInstr (n : Fin 8) : Instr :=
  match n with
  | 0 => .rd32Ep0csr
  | 1 => .rd32Ep1csr
  | 2 => .rd32Ep2csr
  | 3 => .rd32Ep3csr
  | 4 => .rd32Ep4csr
  | 5 => .rd32Ep5csr
  | 6 => .rd32Ep6csr
  | 7 => .rd32Ep7csr

/-- The write of endpoint `n`'s `EPnCSR`. -/
def writeCsrInstr (n : Fin 8) (v : Word) : Instr :=
  match n with
  | 0 => .wr32Ep0csr v
  | 1 => .wr32Ep1csr v
  | 2 => .wr32Ep2csr v
  | 3 => .wr32Ep3csr v
  | 4 => .wr32Ep4csr v
  | 5 => .wr32Ep5csr v
  | 6 => .wr32Ep6csr v
  | 7 => .wr32Ep7csr v

/-- The read of endpoint `n`'s `EPnTCR`. -/
def readTcrInstr (n : Fin 8) : Instr :=
  match n with
  | 0 => .rd32Ep0tcr
  | 1 => .rd32Ep1tcr
  | 2 => .rd32Ep2tcr
  | 3 => .rd32Ep3tcr
  | 4 => .rd32Ep4tcr
  | 5 => .rd32Ep5tcr
  | 6 => .rd32Ep6tcr
  | 7 => .rd32Ep7tcr

/-- The write of endpoint `n`'s `EPnTCR`. -/
def writeTcrInstr (n : Fin 8) (v : Word) : Instr :=
  match n with
  | 0 => .wr32Ep0tcr v
  | 1 => .wr32Ep1tcr v
  | 2 => .wr32Ep2tcr v
  | 3 => .wr32Ep3tcr v
  | 4 => .wr32Ep4tcr v
  | 5 => .wr32Ep5tcr v
  | 6 => .wr32Ep6tcr v
  | 7 => .wr32Ep7tcr v

/-- The read of endpoint `n`'s `EPnCFGR`. -/
def readCfgrInstr (n : Fin 8) : Instr :=
  match n with
  | 0 => .rd32Ep0cfgr
  | 1 => .rd32Ep1cfgr
  | 2 => .rd32Ep2cfgr
  | 3 => .rd32Ep3cfgr
  | 4 => .rd32Ep4cfgr
  | 5 => .rd32Ep5cfgr
  | 6 => .rd32Ep6cfgr
  | 7 => .rd32Ep7cfgr

/-- The write of endpoint `n`'s `EPnCFGR`. -/
def writeCfgrInstr (n : Fin 8) (v : Word) : Instr :=
  match n with
  | 0 => .wr32Ep0cfgr v
  | 1 => .wr32Ep1cfgr v
  | 2 => .wr32Ep2cfgr v
  | 3 => .wr32Ep3cfgr v
  | 4 => .wr32Ep4cfgr v
  | 5 => .wr32Ep5cfgr v
  | 6 => .wr32Ep6cfgr v
  | 7 => .wr32Ep7cfgr v

/-- The read access of a selected register. -/
def regReadInstr (l : Config.Layout) (off : Nat) : Except DecodeError Instr :=
  match regSelect l off with
  | .csr => .ok .rd32Csr
  | .ier => .ok .rd32Ier
  | .isr => .ok .rd32Isr
  | .devar => .ok .rd32Devar
  | .bank n .csr => .ok (readCsrInstr n)
  | .bank n .tcr => .ok (readTcrInstr n)
  | .bank n .cfgr => .ok (readCfgrInstr n)
  | .hole => .error (.holeRead off)

/-- The write access of a selected register. -/
def regWriteInstr (l : Config.Layout) (off : Nat) (v : Word) : Except DecodeError Instr :=
  match regSelect l off with
  | .csr => .ok (.wr32Csr v)
  | .ier => .ok (.wr32Ier v)
  | .isr => .ok (.wr32Isr v)
  | .devar => .ok (.wr32Devar v)
  | .bank n .csr => .ok (writeCsrInstr n v)
  | .bank n .tcr => .ok (writeTcrInstr n v)
  | .bank n .cfgr => .ok (writeCfgrInstr n v)
  | .hole => .error (.holeWrite off)

/-- An access by its fields: `rw`, `space` (true = SRAM), `off`, and the bytes of the write data
(30_encoding.md R107; 20_memory.md R72; 40_register_access.md R143). -/
def decodeAccessFields (l : Config.Layout) (rw space : Bool) (off : BitVec 12) (r : List Byte) :
    Except DecodeError Instr :=
  if off.toNat % 4 ≠ 0 then .error (.misaligned off.toNat)
  else if space && decide (l.sramSize < off.toNat + 4) then .error (.outsideWindow off.toNat)
  else if !space && decide (l.regs.windowEnd ≤ off.toNat) then .error (.outsideWindow off.toNat)
  else if rw then
    match readWord r with
    | .error e => .error e
    | .ok (v, _) => if space then .ok (.wr32Sram off v) else regWriteInstr l off.toNat v
  else if space then .ok (.rd32Sram off)
  else regReadInstr l off.toNat

/-- Format R: bit 13 `rw`, bit 12 `space`, bits 11 to 0 `off`, then `wdata` (30_encoding.md R100). -/
def decodeAccess (l : Config.Layout) (bs : List Byte) : Except DecodeError Instr :=
  match readHalf bs with
  | .error e => .error e
  | .ok (h, r) =>
    if h.extractLsb' 14 2 = 0#2 then
      decodeAccessFields l (h.getLsbD 13) (h.getLsbD 12) (h.extractLsb' 0 12) r
    else .error .reservedAccessBits

/-! ### Formats B and O (30_encoding.md R100, R108) -/

/-- The fields of format B after the id: `addr` 7 bits, `ep` 4, `pid` 4, `ack` 1 (30_encoding.md R100). -/
structure BusHeader where
  addr : BitVec 7
  ep : BitVec 4
  pid : BitVec 4
  ack : Bool
  deriving DecidableEq, Repr

/-- The 16 bits of a bus header, `addr` in the least significant bits. -/
def readBusHeader (bs : List Byte) : Except DecodeError (BusHeader × List Byte) :=
  match readHalf bs with
  | .error e => .error e
  | .ok (h, r) => .ok (⟨h.extractLsb' 0 7, h.extractLsb' 7 4, h.extractLsb' 11 4, h.getLsbD 15⟩, r)

/-- The access carried by ids 0x10 and 0x11 (30_encoding.md R108): the id gives `rw`. -/
def decodeIdAccess (l : Config.Layout) (rw : Bool) (bs : List Byte) : Except DecodeError Instr :=
  match readHalf bs with
  | .error e => .error e
  | .ok (h, r) =>
    if h.extractLsb' 13 3 = 0#3 then
      decodeAccessFields l rw (h.getLsbD 12) (h.extractLsb' 0 12) r
    else .error .reservedAccessBits

/-- The operands of the operation with id `id` (30_encoding.md R108). -/
def decodeOperands (l : Config.Layout) (id : Byte) (r : List Byte) : Except DecodeError Instr :=
  match id.toNat with
  | 0x01 => .ok .bReset
  | 0x02 => .ok .bSuspend
  | 0x03 => .ok .bResume
  | 0x04 => .ok .bSof
  | 0x05 => do
    let (h, r) ← readBusHeader r
    let (d, _) ← readBusData r
    .ok (.bSetup h.addr h.ep d)
  | 0x06 => do
    let (h, r) ← readBusHeader r
    let (d, _) ← readBusData r
    .ok (.bOut h.addr h.ep h.pid d)
  | 0x07 => do
    let (h, _) ← readBusHeader r
    .ok (.bIn h.addr h.ep h.ack)
  | 0x10 => decodeIdAccess l false r
  | 0x11 => decodeIdAccess l true r
  | 0x20 => do
    let (v, r) ← readFlag r
    let (e, _) ← readFlag r
    .ok (.newDriver v e)
  | 0x21 => do
    let (t, r) ← readType r
    let (o, r) ← readOptAddr r
    let (m, r) ← readNumber r
    let (i, _) ← readByte r
    .ok (.allocIn t o m i)
  | 0x22 => do
    let (t, r) ← readType r
    let (o, r) ← readOptAddr r
    let (m, r) ← readNumber r
    let (i, _) ← readByte r
    .ok (.allocOut t o m i)
  | 0x23 => do
    let (m, _) ← readNumber r
    .ok (.start m)
  | 0x24 => do
    let (n, r) ← readByte r
    let (d, _) ← readDir r
    .ok (.bufmap n.toNat d)
  | 0x30 => .ok .irq
  | 0x40 => .ok .poll
  | 0x41 => do
    let (a, r) ← readAddr r
    let (f, _) ← readFlag r
    .ok (.epSetStalled a f)
  | 0x42 => do
    let (a, _) ← readAddr r
    .ok (.epIsStalled a)
  | 0x43 => do
    let (a, r) ← readAddr r
    let (f, _) ← readFlag r
    .ok (.epSetEnabled a f)
  | 0x44 => .ok .enable
  | 0x45 => .ok .disable
  | 0x46 => .ok .remoteWakeup
  | 0x50 => .ok .cpMaxPacketSize
  | 0x51 => .ok .cpSetup
  | 0x52 => do
    let (n, r) ← readNumber r
    let (first, r) ← readFlag r
    let (last, _) ← readFlag r
    .ok (.cpDataOut n first last)
  | 0x53 => do
    let (first, r) ← readFlag r
    let (last, r) ← readFlag r
    let (d, _) ← readBytes r
    .ok (.cpDataIn d first last)
  | 0x54 => .ok .cpAccept
  | 0x55 => .ok .cpReject
  | 0x56 => do
    let (a, _) ← readByte r
    .ok (.cpAcceptSetAddress (a.extractLsb' 0 7))
  | 0x60 => do
    let (a, _) ← readAddr r
    .ok (.epInfo a)
  | 0x61 => do
    let (a, _) ← readAddr r
    .ok (.epWaitEnabled a)
  | 0x62 => do
    let (a, r) ← readAddr r
    let (n, _) ← readNumber r
    .ok (.epRead a n)
  | 0x63 => do
    let (a, r) ← readAddr r
    let (d, _) ← readBytes r
    .ok (.epWrite a d)
  | _ => .error (.unknownId id)

/-- The operation presented at a port of a machine with a given layout. Bytes after the operation's own are ignored
(30_encoding.md R100: "fields not used by an operation are ignored"). -/
def decodeWith (l : Config.Layout) (p : Port) (bs : List Byte) : Except DecodeError Instr :=
  match p with
  | .access => decodeAccess l bs
  | .op =>
    match bs with
    | [] => .error .truncated
    | id :: r => decodeOperands l id r

/-- The operation presented at a port, under the values of 00_scope.md R5. -/
def decode (p : Port) (bs : List Byte) : Except DecodeError Instr := decodeWith Config.Layout.std p bs

/-! ### The encoder, from the same rules, under the values of 00_scope.md R5 -/

/-- A number in two bytes, low byte first. -/
def numberBytes (n : Nat) : List Byte := [BitVec.ofNat 8 n, BitVec.ofNat 8 (n / 256)]

/-- Two bytes, low byte first. -/
def halfBytes (h : BitVec 16) : List Byte := [h.extractLsb' 0 8, h.extractLsb' 8 8]

/-- Four bytes, low byte first (20_memory.md R71). -/
def wordBytesLe (v : Word) : List Byte :=
  [v.extractLsb' 0 8, v.extractLsb' 8 8, v.extractLsb' 16 8, v.extractLsb' 24 8]

/-- A boolean's byte (30_encoding.md R106). -/
def flagByte (f : Bool) : Byte := if f then 1#8 else 0#8

/-- A direction's code: 0 OUT, 1 IN (30_encoding.md R102). -/
def Dir.isIn : Dir → Bool
  | .out => false
  | .inp => true

/-- A transfer type's code (30_encoding.md R103). -/
def EpType.code : EpType → BitVec 2
  | .control => 0#2
  | .isochronous => 1#2
  | .bulk => 2#2
  | .interrupt => 3#2

/-- The endpoint address byte (30_encoding.md R102). -/
def EpAddr.byte (a : EpAddr) : Byte := BitVec.ofBool a.dir.isIn ++ 0#3 ++ a.num

/-- An optional endpoint address: presence byte and address byte. -/
def optAddrBytes : Option EpAddr → List Byte
  | none => [0#8, 0#8]
  | some a => [1#8, a.byte]

/-- A byte sequence with its length. -/
def countedBytes (d : List Byte) : List Byte := numberBytes d.length ++ d

/-- The 16 bits of a bus header (30_encoding.md R100). -/
def busHeaderBytes (addr : BitVec 7) (ep pid : BitVec 4) (ack : Bool) : List Byte :=
  halfBytes (BitVec.ofBool ack ++ pid ++ ep ++ addr)

/-- A read access: `rw = 0` (30_encoding.md R100). -/
def readAccess (space : Bool) (off : BitVec 12) : Port × List Byte :=
  (.access, halfBytes (0#3 ++ BitVec.ofBool space ++ off))

/-- A write access: `rw = 1`, then the data (30_encoding.md R100). -/
def writeAccess (space : Bool) (off : BitVec 12) (v : Word) : Port × List Byte :=
  (.access, halfBytes (1#3 ++ BitVec.ofBool space ++ off) ++ wordBytesLe v)

/-- The bytes of an operation and the port they are presented at. -/
def encode : Instr → Port × List Byte
  | .bReset => (.op, [0x01#8])
  | .bSuspend => (.op, [0x02#8])
  | .bResume => (.op, [0x03#8])
  | .bSof => (.op, [0x04#8])
  | .bSetup addr ep data => (.op, 0x05#8 :: (busHeaderBytes addr ep 0#4 false ++ countedBytes data))
  | .bOut addr ep pid data => (.op, 0x06#8 :: (busHeaderBytes addr ep pid false ++ countedBytes data))
  | .bIn addr ep ack => (.op, 0x07#8 :: busHeaderBytes addr ep 0#4 ack)
  | .newDriver v e => (.op, [0x20#8, flagByte v, flagByte e])
  | .allocIn t o m i =>
    (.op, 0x21#8 :: t.code.setWidth 8 :: (optAddrBytes o ++ numberBytes m ++ [i]))
  | .allocOut t o m i =>
    (.op, 0x22#8 :: t.code.setWidth 8 :: (optAddrBytes o ++ numberBytes m ++ [i]))
  | .start m => (.op, 0x23#8 :: numberBytes m)
  | .bufmap n d => (.op, [0x24#8, BitVec.ofNat 8 n, flagByte d.isIn])
  | .irq => (.op, [0x30#8])
  | .poll => (.op, [0x40#8])
  | .epSetStalled a f => (.op, [0x41#8, a.byte, flagByte f])
  | .epIsStalled a => (.op, [0x42#8, a.byte])
  | .epSetEnabled a f => (.op, [0x43#8, a.byte, flagByte f])
  | .enable => (.op, [0x44#8])
  | .disable => (.op, [0x45#8])
  | .remoteWakeup => (.op, [0x46#8])
  | .cpMaxPacketSize => (.op, [0x50#8])
  | .cpSetup => (.op, [0x51#8])
  | .cpDataOut n f l => (.op, 0x52#8 :: (numberBytes n ++ [flagByte f, flagByte l]))
  | .cpDataIn d f l => (.op, 0x53#8 :: flagByte f :: flagByte l :: countedBytes d)
  | .cpAccept => (.op, [0x54#8])
  | .cpReject => (.op, [0x55#8])
  | .cpAcceptSetAddress a => (.op, [0x56#8, a.setWidth 8])
  | .epInfo a => (.op, [0x60#8, a.byte])
  | .epWaitEnabled a => (.op, [0x61#8, a.byte])
  | .epRead a n => (.op, 0x62#8 :: a.byte :: numberBytes n)
  | .epWrite a d => (.op, 0x63#8 :: a.byte :: countedBytes d)
  | .rd32Csr => readAccess false 0x000#12
  | .wr32Csr v => writeAccess false 0x000#12 v
  | .rd32Ier => readAccess false 0x004#12
  | .wr32Ier v => writeAccess false 0x004#12 v
  | .rd32Isr => readAccess false 0x008#12
  | .wr32Isr v => writeAccess false 0x008#12 v
  | .rd32Devar => readAccess false 0x010#12
  | .wr32Devar v => writeAccess false 0x010#12 v
  | .rd32Ep0csr => readAccess false 0x014#12
  | .wr32Ep0csr v => writeAccess false 0x014#12 v
  | .rd32Ep0tcr => readAccess false 0x020#12
  | .wr32Ep0tcr v => writeAccess false 0x020#12 v
  | .rd32Ep0cfgr => readAccess false 0x024#12
  | .wr32Ep0cfgr v => writeAccess false 0x024#12 v
  | .rd32Ep1csr => readAccess false 0x028#12
  | .wr32Ep1csr v => writeAccess false 0x028#12 v
  | .rd32Ep1tcr => readAccess false 0x034#12
  | .wr32Ep1tcr v => writeAccess false 0x034#12 v
  | .rd32Ep1cfgr => readAccess false 0x038#12
  | .wr32Ep1cfgr v => writeAccess false 0x038#12 v
  | .rd32Ep2csr => readAccess false 0x03C#12
  | .wr32Ep2csr v => writeAccess false 0x03C#12 v
  | .rd32Ep2tcr => readAccess false 0x048#12
  | .wr32Ep2tcr v => writeAccess false 0x048#12 v
  | .rd32Ep2cfgr => readAccess false 0x04C#12
  | .wr32Ep2cfgr v => writeAccess false 0x04C#12 v
  | .rd32Ep3csr => readAccess false 0x050#12
  | .wr32Ep3csr v => writeAccess false 0x050#12 v
  | .rd32Ep3tcr => readAccess false 0x05C#12
  | .wr32Ep3tcr v => writeAccess false 0x05C#12 v
  | .rd32Ep3cfgr => readAccess false 0x060#12
  | .wr32Ep3cfgr v => writeAccess false 0x060#12 v
  | .rd32Ep4csr => readAccess false 0x064#12
  | .wr32Ep4csr v => writeAccess false 0x064#12 v
  | .rd32Ep4tcr => readAccess false 0x070#12
  | .wr32Ep4tcr v => writeAccess false 0x070#12 v
  | .rd32Ep4cfgr => readAccess false 0x074#12
  | .wr32Ep4cfgr v => writeAccess false 0x074#12 v
  | .rd32Ep5csr => readAccess false 0x078#12
  | .wr32Ep5csr v => writeAccess false 0x078#12 v
  | .rd32Ep5tcr => readAccess false 0x084#12
  | .wr32Ep5tcr v => writeAccess false 0x084#12 v
  | .rd32Ep5cfgr => readAccess false 0x088#12
  | .wr32Ep5cfgr v => writeAccess false 0x088#12 v
  | .rd32Ep6csr => readAccess false 0x08C#12
  | .wr32Ep6csr v => writeAccess false 0x08C#12 v
  | .rd32Ep6tcr => readAccess false 0x098#12
  | .wr32Ep6tcr v => writeAccess false 0x098#12 v
  | .rd32Ep6cfgr => readAccess false 0x09C#12
  | .wr32Ep6cfgr v => writeAccess false 0x09C#12 v
  | .rd32Ep7csr => readAccess false 0x0A0#12
  | .wr32Ep7csr v => writeAccess false 0x0A0#12 v
  | .rd32Ep7tcr => readAccess false 0x0AC#12
  | .wr32Ep7tcr v => writeAccess false 0x0AC#12 v
  | .rd32Ep7cfgr => readAccess false 0x0B0#12
  | .wr32Ep7cfgr v => writeAccess false 0x0B0#12 v
  | .rd32Sram off => readAccess true off
  | .wr32Sram off v => writeAccess true off v

/-! ### Words as spec/opcode_table.json numbers them -/

/-- The bytes of a table word of `nbits` bits, the bits above zero: bit 0 is the least significant bit of the
first byte. -/
def tableBytes (nbits w : Nat) : List Byte :=
  (List.range 16).map fun k => BitVec.ofNat 8 ((w % 2 ^ nbits) / 256 ^ k)

/-- Rows of formats B and O have 8 bits (the id); rows of format R have 14 bits (30_encoding.md R100). -/
def tablePort (nbits : Nat) : Port := if nbits ≤ 8 then .op else .access

/-- The instruction the decoder reads from a word as the table numbers it. -/
def decodeTableWord (nbits w : Nat) : Option Instr :=
  match decode (tablePort nbits) (tableBytes nbits w) with
  | .ok i => some i
  | .error _ => none

end Sys2Proof
end

