-- ==== Sys2Proof/Machine/State.lean ====
section
/-! DEFINITION. The state of SIE-CTE (10_state.md R20 to R47), its stops, and its reset values. -/

namespace Sys2Proof.Machine

/-! ### Registers (10_state.md R20 to R28), by their fields: reserved bits read as 0 and ignore writes (R28) -/

/-- `CSR` (10_state.md R21). -/
structure Csr where
  fres : Bool
  pdwn : Bool
  sramrstc : Bool
  dppuen : Bool
  deriving DecidableEq, Repr

/-- `IER` (10_state.md R22). -/
structure Ier where
  ugie : Bool
  sofie : Bool
  urstie : Bool
  rsmie : Bool
  suspie : Bool
  ep0ie : Bool
  ep1ie : Bool
  ep2ie : Bool
  ep3ie : Bool
  deriving DecidableEq, Repr

/-- `ISR`, the eight source bits (10_state.md R23). -/
structure Isr where
  sofif : Bool
  urstif : Bool
  rsmif : Bool
  suspif : Bool
  ep0if : Bool
  ep1if : Bool
  ep2if : Bool
  ep3if : Bool
  deriving DecidableEq, Repr

/-- `EPnCSR` (10_state.md R25). -/
structure EpCsr where
  naktx : Bool
  stltx : Bool
  nakrx : Bool
  stlrx : Bool
  deriving DecidableEq, Repr

/-- `EPnCFGR` (10_state.md R27). -/
structure EpCfgr where
  epbufa : BitVec 10
  eplen : BitVec 7
  epadr : BitVec 4
  epdir : Dir
  eptype : EpType
  epen : Bool
  deriving DecidableEq, Repr

/-- One physical endpoint: its register bank (10_state.md R25 to R27; `EPnTCR` is `txcnt` and `rxcnt`), its two hidden
DATA toggles (R40), and `txcntOld`, the counts that firmware replaced while the SIE owned the TX buffer, which a racing
IN transaction may still use (40_register_access.md R138, 20_memory.md R78; notes/assumptions/9.md). -/
structure Endpoint where
  csr : EpCsr
  txcnt : BitVec 7
  txcntOld : List (BitVec 7)
  rxcnt : BitVec 7
  cfgr : EpCfgr
  dtgTx : Bool
  dtgRx : Bool
  deriving DecidableEq, Repr

/-! ### The hardware proper -/

/-- The SIE: registers, hidden state (10_state.md R40, R41) and EP_SRAM (R29). `sram` lists the bytes written
since the draw numbered `epoch`, offsets strictly rising; `raced` lists the bytes a racing observer may see
beside the stored one (20_memory.md R78); `draws` numbers the free choices made so far. -/
structure Hw where
  csr : Csr
  ier : Ier
  isr : Isr
  devar : BitVec 7
  eps : Vector Endpoint 8
  addrActive : BitVec 7
  addrPending : Bool
  sram : List Host.Cell
  epoch : Nat
  raced : List Host.Cell
  draws : Nat
  deriving DecidableEq, Repr

/-! ### Firmware state (10_state.md R32 to R39, R43) -/

/-- `PHASE` (10_state.md R38). -/
inductive Phase where
  | idle
  | setupReceived
  | dataOut
  | dataIn
  | statusOnly
  deriving DecidableEq, Repr

/-- `EPINFO[n]` (10_state.md R36). -/
structure EpInfo where
  address : EpAddr
  type : EpType
  maxPacketSize : Nat
  interval : Byte
  deriving DecidableEq, Repr

/-- Which of `NEW` and `START` have been called (42_allocator.md R200, R206; 70_reset_and_hazards.md R354). -/
inductive Life where
  | unbuilt
  | built
  | started
  deriving DecidableEq, Repr

/-- The firmware's own state: `EVF`, `WAKE`, `CFG_LATCH`, `ALLOC`, `EPINFO`, `POWER_ANNOUNCED`, `PHASE`, `CTRL_MPS`
(10_state.md R32 to R39), `HSNAP` (R43), how far construction has gone, and `busEnabled`: `ENABLE` has run
(70_reset_and_hazards.md R361; notes/assumptions/18.md). -/
structure Fw where
  evf : Vector Bool 8
  wake : Bool
  cfgLatch : Bool
  alloc : BitVec 16
  epinfo : Vector (Option EpInfo) 8
  powerAnnounced : Bool
  phase : Phase
  ctrlMps : Nat
  hsnap : Option Isr
  life : Life
  busEnabled : Bool
  deriving DecidableEq, Repr

/-! ### Operations held at an `await` or a `yield` (10_state.md R43, 44_control_pipe.md R269) -/

/-- A control-pipe operation at a `yield`: `left` is the number of checks it may still make. -/
inductive ControlHeld where
  | setup (left : Nat)
  | dataOut (left len : Nat)
  | dataIn (left : Nat) (data : List Byte) (last : Bool)
  deriving DecidableEq, Repr

/-- What an endpoint task is in: nothing; `EP_WAIT_ENABLED`, held on the latch; `EP_WAIT_ENABLED`, woken by the latch
but not yet scheduled (10_state.md R34, 20_memory.md R79(a)); or `EP_WRITE`. -/
inductive EpHeld where
  | idle
  | waitEnabled
  | released
  | writing
  deriving DecidableEq, Repr

/-- The held operations: `POLL` of the bus task, one of the control task, one of each endpoint task. -/
structure Tasks where
  pollHeld : Bool
  control : Option ControlHeld
  eps : Vector EpHeld 8
  deriving DecidableEq, Repr

/-- The task an operation is called by and its result returned to (00_scope.md R9, 30_encoding.md R109). -/
inductive Task where
  | stack
  | bus
  | control
  | endpoint (n : Fin 8)
  deriving DecidableEq, Repr

/-! ### What a claim can observe (00_scope.md R11) -/

/-- Error results (60_exceptions.md R310). -/
inductive ErrorKind where
  | allocError
  | bufferOverflow
  | unsupported
  deriving DecidableEq, Repr

/-- The results of `POLL` (30_encoding.md R105). -/
inductive Event where
  | deviceVisible
  | resume
  | suspend
  | noAction
  | powerAnnounced
  deriving DecidableEq, Repr

/-- The result of an engine operation (30_encoding.md R108). -/
inductive Result where
  | unit
  | driver
  | handles
  | info (i : EpInfo)
  | infoAbsent
  | error (e : ErrorKind)
  | event (e : Event)
  | flag (b : Bool)
  | number (n : Nat)
  | bytes (bs : List Byte)
  | region (offset length : Nat)
  deriving DecidableEq, Repr

/-- The SIE's answer to a bus stimulus (30_encoding.md R101); `data1` is the packet's PID. -/
inductive Answer where
  | none
  | ack
  | nak
  | stall
  | data (data1 : Bool) (bytes : List Byte)
  deriving DecidableEq, Repr

/-- One observable output. -/
inductive Obs where
  | answer (a : Answer)
  | value (v : Word)
  | result (t : Task) (r : Result)
  deriving DecidableEq, Repr

/-! ### The agents' schedule (20_memory.md R79) -/

/-- A bus stimulus of the HOST agent (41_bus_side.md). -/
inductive Stim where
  | reset
  | suspend
  | resume
  | sof
  | setup (addr : BitVec 7) (ep : BitVec 4) (data : List Byte)
  | out (addr : BitVec 7) (ep : BitVec 4) (pid : BitVec 4) (data : List Byte)
  | inp (addr : BitVec 7) (ep : BitVec 4) (ack : Bool)
  deriving DecidableEq, Repr

/-- What may fall between two atomic steps of a task operation: a bus stimulus, or a whole run of the
interrupt handler with the bus stimuli that fall between its own steps (20_memory.md R79(b), (c)). -/
inductive Preempt where
  | bus (st : Stim)
  | irq (gaps : List (List Stim))
  deriving DecidableEq, Repr

/-- One entry of the schedule: an operation presented at a port, or a held task going on; and what falls into
each of its interleaving points, in order. -/
inductive Entry where
  | issue (port : Port) (bytes : List Byte) (during : List (List Preempt))
  | resume (task : Task) (during : List (List Preempt))
  deriving DecidableEq, Repr

/-- The whole state. -/
structure State where
  cfg : Config.Params
  hw : Hw
  fw : Fw
  tasks : Tasks
  inbox : List Entry
  sched : List (List Preempt)
  log : List Obs
  deriving DecidableEq, Repr

/-! ### Stops -/

/-- What stops the machine. -/
inductive Fault where
  /-- An engine operation was given an endpoint number above 7 (60_exceptions.md R315): `BUFMAP`, `ALLOC_IN`,
  `ALLOC_OUT`, `EP_SET_STALLED`, `EP_IS_STALLED`, `EP_SET_ENABLED`, `EP_INFO`, `EP_WAIT_ENABLED`, `EP_READ`,
  `EP_WRITE`. Safe: the spec makes it terminal, and nothing has changed before it. -/
  | abort
  deriving DecidableEq, Repr

/-- What the spec gives no meaning: its own treatment is "refuse" (93_implementation_defined.md). -/
inductive Refusal where
  /-- An instruction without a meaning yet. Safe: nothing is claimed of it. -/
  | notModelled (mnemonic : String)
  /-- `step`: the presented bytes name no operation (30_encoding.md R111(c)). Safe: the machine stops. -/
  | undecodable (e : DecodeError)
  /-- `NEW`: a second construction (42_allocator.md R200, U18). Safe: the machine stops. -/
  | secondNew
  /-- `ALLOC_IN`, `ALLOC_OUT`: after `START` (42_allocator.md R206, U18). Safe: the machine stops. -/
  | allocAfterStart
  /-- `ALLOC_IN`, `ALLOC_OUT`, and the allocation that `START` makes: after `ENABLE` (70_reset_and_hazards.md R361).
  Safe: the machine stops. -/
  | allocAfterEnable
  /-- `START`: a second start (42_allocator.md R206, U18). Safe: the machine stops. -/
  | secondStart
  /-- Allocation of, or a transaction on, an isochronous endpoint (42_allocator.md R202, U14). Safe. -/
  | isochronous
  /-- `RD32_SRAM`, `WR32_SRAM`: an offset that is no multiple of 4 (20_memory.md R72, U2). Safe. -/
  | misaligned
  /-- An access outside EP_SRAM (40_register_access.md R143, 20_memory.md R81, U2). Safe. -/
  | outsideSram
  /-- `WR32_EPnTCR` above the buffer capacity, or an IN transaction with such a count
  (40_register_access.md R138, 41_bus_side.md R168, U6). Safe: the machine stops. -/
  | countAboveCapacity
  /-- `WR32_EPnCFGR` or `EP_SET_ENABLED` with a configuration the spec gives no meaning
  (40_register_access.md R139, 43_dispatcher.md R227, U7). Safe: the machine stops. -/
  | badEndpointConfig
  /-- `WR32_EPnCFGR` reconfiguring an enabled endpoint whose buffer the SIE owns (R139, U7). Safe. -/
  | configInUse
  /-- `EP_READ`, `EP_WRITE` outside the contract of their handles (45_endpoint_io.md R293, U17). Safe. -/
  | handleContract
  /-- An operation of a task that is still held in another one (43_dispatcher.md R222, 44_control_pipe.md
  header, 45_endpoint_io.md R293, U17). Safe: the machine stops. -/
  | taskBusy
  deriving DecidableEq, Repr

/-- The outcome of a machine action. -/
abbrev Res := Host.Outcome State Fault Refusal

/-! ### Reset (10_state.md R45, 70_reset_and_hazards.md R351) -/

/-- `EPnCFGR = 0`. -/
def EpCfgr.reset : EpCfgr where
  epbufa := 0
  eplen := 0
  epadr := 0
  epdir := .out
  eptype := .control
  epen := false

/-- An endpoint after hardware reset: `EPnCSR = 0x02`, everything else 0 (10_state.md R45). -/
def Endpoint.reset : Endpoint where
  csr := ⟨true, false, false, false⟩
  txcnt := 0
  txcntOld := []
  rxcnt := 0
  cfgr := EpCfgr.reset
  dtgTx := false
  dtgRx := false

/-- `ISR = 0`. -/
def Isr.zero : Isr := ⟨false, false, false, false, false, false, false, false⟩

/-- `IER = 0`. -/
def Ier.zero : Ier := ⟨false, false, false, false, false, false, false, false, false⟩

/-- The hardware after hardware reset (10_state.md R45): no byte of EP_SRAM is listed, each is a free value. -/
def Hw.reset : Hw where
  csr := ⟨false, false, false, false⟩
  ier := Ier.zero
  isr := Isr.zero
  devar := 0
  eps := Vector.replicate 8 Endpoint.reset
  addrActive := 0
  addrPending := false
  sram := []
  epoch := 0
  raced := []
  draws := 0

/-- The firmware state that `NEW` creates (10_state.md R45, 42_allocator.md R200): `CTRL_MPS` is 64, the `MAX_PKT` of
00_scope.md R5. -/
def Fw.fresh (l : Config.Layout) (life : Life) : Fw where
  evf := Vector.replicate 8 false
  wake := false
  cfgLatch := false
  alloc := 0
  epinfo := Vector.replicate 8 none
  powerAnnounced := false
  phase := .idle
  ctrlMps := l.maxPkt
  hsnap := none
  life := life
  busEnabled := false

/-- No operation is held. -/
def Tasks.none : Tasks where
  pollHeld := false
  control := .none
  eps := Vector.replicate 8 .idle

/-- The machine right after hardware reset. The firmware state does not exist yet (10_state.md R46); the model
holds the values `NEW` gives it (DESIGN CHOICE, unsafe: notes/assumptions/1.md). -/
def State.reset : State where
  cfg := Config.Params.std
  hw := Hw.reset
  fw := Fw.fresh Config.Layout.std .unbuilt
  tasks := Tasks.none
  inbox := []
  sched := []
  log := []

end Sys2Proof.Machine
end

