-- ==== Sys2Proof/Machine/Operands.lean ====
section
/-! DEFINITION. Operand forms: the 32-bit images of the registers (10_state.md R21 to R28), the buffer map
(42_allocator.md R201) and the buffers the SIE uses (41_bus_side.md R171). -/

namespace Sys2Proof.Machine

/-! ### Bits and fields -/

/-- Bit `p` of a word set to `b`, all others 0. -/
def bitAt (p : Nat) (b : Bool) : Word := if b then BitVec.twoPow 32 p else 0#32

/-- A field placed with its least significant bit at `p`. -/
def fieldAt {w : Nat} (p : Nat) (v : BitVec w) : Word := (v.setWidth 32) <<< p

/-- `round_down4` (00_scope.md R6), for the word granularity `WORD`. -/
def roundDown (word x : Nat) : Nat := x - x % word

/-! ### Register images under a register map. Reserved bits read as 0 and ignore writes (10_state.md R28) -/

/-- The image of `CSR` (10_state.md R21). -/
def csrImage (m : Config.RegMap) (c : Csr) : Word :=
  bitAt m.fres c.fres ||| bitAt m.pdwn c.pdwn ||| bitAt m.sramrstc c.sramrstc ||| bitAt m.dppuen c.dppuen

/-- The fields of a word written to `CSR` (40_register_access.md R131). -/
def csrFields (m : Config.RegMap) (v : Word) : Csr where
  fres := v.getLsbD m.fres
  pdwn := v.getLsbD m.pdwn
  sramrstc := v.getLsbD m.sramrstc
  dppuen := v.getLsbD m.dppuen

/-- The image of `IER` (10_state.md R22). -/
def ierImage (m : Config.RegMap) (i : Ier) : Word :=
  bitAt m.ugie i.ugie ||| bitAt m.sofie i.sofie ||| bitAt m.urstie i.urstie ||| bitAt m.rsmie i.rsmie |||
    bitAt m.suspie i.suspie ||| bitAt m.ep0ie i.ep0ie ||| bitAt m.ep1ie i.ep1ie ||| bitAt m.ep2ie i.ep2ie |||
    bitAt m.ep3ie i.ep3ie

/-- The fields of a word written to `IER` (40_register_access.md R133). -/
def ierFields (m : Config.RegMap) (v : Word) : Ier where
  ugie := v.getLsbD m.ugie
  sofie := v.getLsbD m.sofie
  urstie := v.getLsbD m.urstie
  rsmie := v.getLsbD m.rsmie
  suspie := v.getLsbD m.suspie
  ep0ie := v.getLsbD m.ep0ie
  ep1ie := v.getLsbD m.ep1ie
  ep2ie := v.getLsbD m.ep2ie
  ep3ie := v.getLsbD m.ep3ie

/-- The image of `ISR` (10_state.md R23). -/
def isrImage (m : Config.RegMap) (i : Isr) : Word :=
  bitAt m.sofif i.sofif ||| bitAt m.urstif i.urstif ||| bitAt m.rsmif i.rsmif ||| bitAt m.suspif i.suspif |||
    bitAt m.ep0if i.ep0if ||| bitAt m.ep1if i.ep1if ||| bitAt m.ep2if i.ep2if ||| bitAt m.ep3if i.ep3if

/-- The source bits of a word (10_state.md R23, `SRC_MASK`). -/
def isrFields (m : Config.RegMap) (v : Word) : Isr where
  sofif := v.getLsbD m.sofif
  urstif := v.getLsbD m.urstif
  rsmif := v.getLsbD m.rsmif
  suspif := v.getLsbD m.suspif
  ep0if := v.getLsbD m.ep0if
  ep1if := v.getLsbD m.ep1if
  ep2if := v.getLsbD m.ep2if
  ep3if := v.getLsbD m.ep3if

/-- The image of `DEVAR` (10_state.md R24). -/
def devarImage (m : Config.RegMap) (a : BitVec 7) : Word := fieldAt m.deva a

/-- The address in a word written to `DEVAR` (40_register_access.md R135). -/
def devarField (m : Config.RegMap) (v : Word) : BitVec 7 := v.extractLsb' m.deva 7

/-- The image of `EPnCSR` (10_state.md R25). -/
def epCsrImage (m : Config.RegMap) (c : EpCsr) : Word :=
  bitAt m.naktx c.naktx ||| bitAt m.stltx c.stltx ||| bitAt m.nakrx c.nakrx ||| bitAt m.stlrx c.stlrx

/-- The four defined bits of a word written to `EPnCSR` (40_register_access.md R137). -/
def epCsrFields (m : Config.RegMap) (v : Word) : EpCsr where
  naktx := v.getLsbD m.naktx
  stltx := v.getLsbD m.stltx
  nakrx := v.getLsbD m.nakrx
  stlrx := v.getLsbD m.stlrx

/-- The image of `EPnTCR` (10_state.md R26). -/
def epTcrImage (m : Config.RegMap) (txcnt rxcnt : BitVec 7) : Word := fieldAt m.txcnt txcnt ||| fieldAt m.rxcnt rxcnt

/-- The `TXCNT` of a word written to `EPnTCR` (40_register_access.md R138). -/
def txcntField (m : Config.RegMap) (v : Word) : BitVec 7 := v.extractLsb' m.txcnt 7

/-- The transfer type with a given code (30_encoding.md R103). -/
def typeOfCode (c : BitVec 2) : EpType :=
  match c.toNat with
  | 0 => .control
  | 1 => .isochronous
  | 2 => .bulk
  | _ => .interrupt

/-- The image of `EPnCFGR` (10_state.md R27, 30_encoding.md R110(e)). -/
def epCfgrImage (m : Config.RegMap) (c : EpCfgr) : Word :=
  fieldAt m.epbufa c.epbufa ||| fieldAt m.eplen c.eplen ||| fieldAt m.epadr c.epadr ||| bitAt m.epdir c.epdir.isIn |||
    fieldAt m.eptype c.eptype.code ||| bitAt m.epen c.epen

/-- The fields of a word written to `EPnCFGR`; its other bits are ignored (40_register_access.md R139). -/
def epCfgrFields (m : Config.RegMap) (v : Word) : EpCfgr where
  epbufa := v.extractLsb' m.epbufa 10
  eplen := v.extractLsb' m.eplen 7
  epadr := v.extractLsb' m.epadr 4
  epdir := if v.getLsbD m.epdir then .inp else .out
  eptype := typeOfCode (v.extractLsb' m.eptype 2)
  epen := v.getLsbD m.epen

/-! ### Endpoint numbers and the buffer map -/

/-- Physical endpoint `k` of a machine with `N_EP` endpoints, absent above `N_EP - 1`, which is 7 (00_scope.md R5,
30_encoding.md R111). -/
def endpointOf (l : Config.Layout) (k : Nat) : Option (Fin 8) :=
  if h : k < 8 then (if k < l.nEp then some ⟨k, h⟩ else none) else none

/-- The physical endpoint of a 4-bit number (30_encoding.md R102). -/
def epIndex (l : Config.Layout) (num : BitVec 4) : Option (Fin 8) := endpointOf l num.toNat

/-- The 4-bit number of a physical endpoint. -/
def epNumber (n : Fin 8) : BitVec 4 := BitVec.ofNat 4 n.val

/-- `BUFMAP(n, d)`, the SRAM Buffer Map: endpoint 0 has its fixed TX and RX buffers, endpoints 1 to 7 one
region each for either direction (42_allocator.md R201, 10_state.md R30). -/
def bufmap (l : Config.Layout) (n : Fin 8) (d : Dir) : Nat × Nat :=
  if n = 0 then
    match d with
    | .inp => (l.ep0TxOff, l.ep0TxLen)
    | .out => (l.ep0RxOff, l.ep0RxLen)
  else (l.epnBase + (n.val - 1) * l.epnRegionLen, l.epnRegionLen)

/-- `CFGR_VALUE(n, d, t)`, the configuration an allocation writes (42_allocator.md R204). -/
def cfgrValue (l : Config.Layout) (n : Fin 8) (d : Dir) (t : EpType) : EpCfgr :=
  if n = 0 then
    { epbufa := BitVec.ofNat 10 l.ep0TxOff
      eplen := BitVec.ofNat 7 l.ep0TxLen
      epadr := 0
      epdir := .out
      eptype := .control
      epen := true }
  else
    { epbufa := BitVec.ofNat 10 (bufmap l n d).1
      eplen := BitVec.ofNat 7 (roundDown l.word (bufmap l n d).2)
      epadr := epNumber n
      epdir := d
      eptype := t
      epen := false }

/-- `txbase(n)`: where the SIE takes IN data from (41_bus_side.md R171). -/
def txBase (s : State) (n : Fin 8) : Nat :=
  if n = 0 then s.cfg.layout.ep0TxOff else s.hw.eps[n].cfgr.epbufa.toNat

/-- `rxbase(n)`: where the SIE stores OUT data (41_bus_side.md R171). -/
def rxBase (s : State) (n : Fin 8) : Nat :=
  if n = 0 then s.cfg.layout.ep0RxOff else s.hw.eps[n].cfgr.epbufa.toNat

/-- `cap(n)` for IN data (41_bus_side.md R171). -/
def txCap (s : State) (n : Fin 8) : Nat :=
  if n = 0 then s.cfg.layout.ep0TxLen else s.hw.eps[n].cfgr.eplen.toNat

/-- `cap(n)` for OUT data (41_bus_side.md R171). -/
def rxCap (s : State) (n : Fin 8) : Nat :=
  if n = 0 then s.cfg.layout.ep0RxLen else s.hw.eps[n].cfgr.eplen.toNat

/-! ### The allocation bitmap -/

/-- The bitmap index `2*n + d` (10_state.md R35). -/
def allocIndex (n : Fin 8) (d : Dir) : Nat :=
  match d with
  | .out => 2 * n.val
  | .inp => 2 * n.val + 1

/-- Endpoint `n` is allocated: either bit of its number is set (10_state.md R35). -/
def allocated (s : State) (n : Fin 8) : Bool :=
  s.fw.alloc.getLsbD (allocIndex n .out) || s.fw.alloc.getLsbD (allocIndex n .inp)

/-! ### Byte sequences as words (20_memory.md R71) -/

/-- Four bytes as a word, the byte at the lowest offset least significant (20_memory.md R71). -/
def wordOfBytes (b0 b1 b2 b3 : Byte) : Word := b3 ++ b2 ++ b1 ++ b0

/-- `SET_CONFIGURATION`: byte 0 is 0x00 and byte 1 is 0x09, the value not tested (44_control_pipe.md R263). -/
def isSetConfiguration : List Byte → Bool
  | b0 :: b1 :: _ => decide (b0 = 0x00#8) && decide (b1 = 0x09#8)
  | _ => false

end Sys2Proof.Machine
end

