-- ==== Sys2Proof/Machine/Flags.lean ====
section
/-! DEFINITION. Status bits, event flags, the interrupt line and the Wake Signal (10_state.md R23, R32, R33, R42;
30_encoding.md R106; 60_exceptions.md R316, R317). -/

namespace Sys2Proof.Machine

/-! ### `ISR` -/

/-- The bits set in either. -/
def Isr.or (a b : Isr) : Isr where
  sofif := a.sofif || b.sofif
  urstif := a.urstif || b.urstif
  rsmif := a.rsmif || b.rsmif
  suspif := a.suspif || b.suspif
  ep0if := a.ep0if || b.ep0if
  ep1if := a.ep1if || b.ep1if
  ep2if := a.ep2if || b.ep2if
  ep3if := a.ep3if || b.ep3if

/-- Write-1-to-clear: `a & ~v` on the source bits (40_register_access.md R134). -/
def Isr.clear (a v : Isr) : Isr where
  sofif := a.sofif && !v.sofif
  urstif := a.urstif && !v.urstif
  rsmif := a.rsmif && !v.rsmif
  suspif := a.suspif && !v.suspif
  ep0if := a.ep0if && !v.ep0if
  ep1if := a.ep1if && !v.ep1if
  ep2if := a.ep2if && !v.ep2if
  ep3if := a.ep3if && !v.ep3if

/-- Whether any source bit is set. -/
def Isr.any (a : Isr) : Bool :=
  a.sofif || a.urstif || a.rsmif || a.suspif || a.ep0if || a.ep1if || a.ep2if || a.ep3if

/-- The status bit of endpoint `n`; of the endpoints from `N_EP_IRQ = 4` on none has one (60_exceptions.md R316). -/
def epStatus (l : Config.Layout) (n : Fin 8) : Isr where
  sofif := false
  urstif := false
  rsmif := false
  suspif := false
  ep0if := decide (n = 0) && decide (0 < l.nEpIrq)
  ep1if := decide (n = 1) && decide (1 < l.nEpIrq)
  ep2if := decide (n = 2) && decide (2 < l.nEpIrq)
  ep3if := decide (n = 3) && decide (3 < l.nEpIrq)

/-- The status bit whose event flag is `EVF[k]`: URSTIF 0, SUSPIF 1, RSMIF 2, SOFIF 3, EPkIF 4 + k
(30_encoding.md R106). -/
def Isr.source (a : Isr) (k : Fin 8) : Bool :=
  match k with
  | 0 => a.urstif
  | 1 => a.suspif
  | 2 => a.rsmif
  | 3 => a.sofif
  | 4 => a.ep0if
  | 5 => a.ep1if
  | 6 => a.ep2if
  | 7 => a.ep3if

/-! ### The interrupt line (60_exceptions.md R317) -/

/-- The sources both pending and enabled. -/
def enabledPending (i : Ier) (a : Isr) : Bool :=
  (a.sofif && i.sofie) || (a.urstif && i.urstie) || (a.rsmif && i.rsmie) || (a.suspif && i.suspie) ||
    (a.ep0if && i.ep0ie) || (a.ep1if && i.ep1ie) || (a.ep2if && i.ep2ie) || (a.ep3if && i.ep3ie)

/-- `IRQ_LINE = (IER.UGIE = 1) and ((ISR & IER & SRC_MASK) != 0)`, level-sensitive (60_exceptions.md R317). -/
def irqLine (s : State) : Bool := s.hw.ier.ugie && enabledPending s.hw.ier s.hw.isr

/-! ### Event flags and the Wake Signal -/

/-- The handler's `EVF[flag(b)] <- true` for each source set in the snapshot (43_dispatcher.md R220). -/
def setFlags (evf : Vector Bool 8) (snap : Isr) : Vector Bool 8 :=
  Vector.ofFn fun k => evf[k] || snap.source k

/-- Set the status bits of `v` (the bus side; 10_state.md R23). -/
def raiseStatus (v : Isr) (s : State) : State :=
  { s with hw := { s.hw with isr := s.hw.isr.or v } }

/-- `WR32(ISR, v)`: the bits written as 1 are cleared (40_register_access.md R134). -/
def clearStatus (v : Isr) (s : State) : State :=
  { s with hw := { s.hw with isr := s.hw.isr.clear v } }

/-- The flag `EVF[k]`. -/
def flagOf (s : State) (k : Fin 8) : Bool := s.fw.evf[k]

/-- `tas(EVF[k])` leaves the flag false (20_memory.md R77); the old value is `flagOf`. -/
def tasFlag (k : Fin 8) (s : State) : State :=
  { s with fw := { s.fw with evf := s.fw.evf.set k false } }

/-- Fire: `WAKE <- true` (10_state.md R33). -/
def fireWake (s : State) : State := { s with fw := { s.fw with wake := true } }

/-- Consume: `WAKE <- false` (10_state.md R33). -/
def consumeWake (s : State) : State := { s with fw := { s.fw with wake := false } }

end Sys2Proof.Machine
end

