-- ==== Sys2Proof/Machine/Sram.lean ====
section
/-! DEFINITION. EP_SRAM (10_state.md R29, 20_memory.md R70 to R82): a list of (offset, byte) pairs with offsets
strictly rising below `SRAM_SIZE` (1024). An offset that is not listed holds no stored value: it reads as the free value
of the current draw (notes/assumptions/2.md). -/

namespace Sys2Proof.Machine

/-! ### The list of cells -/

/-- The byte stored at an offset, if one was written since the last draw. -/
def Memory.find : List Host.Cell → Nat → Option Byte
  | [], _ => none
  | (k, b) :: r, a => if k = a then some b else Memory.find r a

/-- Store a byte, keeping the offsets strictly rising. -/
def Memory.store : List Host.Cell → Nat → Byte → List Host.Cell
  | [], a, b => [(a, b)]
  | (k, c) :: r, a, b =>
    if a < k then (a, b) :: (k, c) :: r
    else if a = k then (a, b) :: r
    else (k, c) :: Memory.store r a b

/-- All offsets of a list are above `lo` (when given) and rise strictly, and stay below `size`. -/
def Memory.wfFrom (size : Nat) : Option Nat → List Host.Cell → Bool
  | _, [] => true
  | lo, (k, _) :: r =>
    (match lo with
      | none => true
      | some l => decide (l < k)) && decide (k < size) && Memory.wfFrom size (some k) r

/-- The canonical form: offsets strictly rising, all inside a memory of `size` bytes. An unlisted offset holds no stored
value, so no entry can equal what an unlisted offset holds. -/
def Memory.wf (size : Nat) (m : List Host.Cell) : Bool := Memory.wfFrom size none m

/-- Every byte 0 (`SRAMRST_CONTENT = zero`, 40_register_access.md R132). -/
def Memory.zeros (size : Nat) : List Host.Cell := (List.range size).map fun a => (a, 0#8)

/-! ### Reading -/

/-- `SRAM[a]`: the stored byte, or the free value of the current draw (10_state.md R29). -/
def byteAt (s : State) (a : Nat) : Byte :=
  match Memory.find s.hw.sram a with
  | some b => b
  | none => Config.freeSram s.hw.epoch a

/-- The bytes beside the stored one that a racing access to `a` may see (20_memory.md R78). -/
def racedAt (s : State) (a : Nat) : List Byte :=
  (s.hw.raced.filter fun c => c.1 = a).map Prod.snd

/-- One of `x` and `os` by the free number `k`; with nothing else to choose from, `x`. -/
def chooseOne {α : Type} (k : Nat) (x : α) (os : List α) : α :=
  match os with
  | [] => x
  | o :: r => (x :: o :: r).getD (k % (r.length + 2)) x

/-- One of `b` and `os`, freely chosen for offset `a` (20_memory.md R78). -/
def pickByte (s : State) (a : Nat) (b : Byte) (os : List Byte) : Byte := chooseOne (Config.freePick s.hw.draws a) b os

/-- The byte the SIE sees: the stored one, or, where firmware wrote it while the SIE owned it, a free choice among the
stored and the older ones, for each byte on its own (20_memory.md R78). -/
def seenByte (s : State) (a : Nat) : Byte := pickByte s a (byteAt s a) (racedAt s a)

/-- The bytes the SIE sees in `[a, a + n)`. -/
def seenBytes (s : State) (a n : Nat) : List Byte := (List.range n).map fun i => seenByte s (a + i)

/-- Some byte of `[a, a + n)` has more than one value a racing access may see. -/
def racing (s : State) (a n : Nat) : Bool := (List.range n).any fun i => decide (racedAt s (a + i) ≠ [])

/-- The next access to raced bytes makes fresh choices, where this one made any. -/
def drawIf (racy : Bool) (s : State) : State :=
  if racy then { s with hw := { s.hw with draws := s.hw.draws + 1 } } else s

/-! ### Ownership (20_memory.md R78) -/

/-- Offset `a` lies in `[base, base + len)`. -/
def inRange (a base len : Nat) : Bool := decide (base ≤ a) && decide (a < base + len)

/-- Endpoint `n` has a buffer for IN data: endpoint 0, and the others by their direction (41_bus_side.md R171). -/
def sends (s : State) (n : Fin 8) : Bool := decide (n = 0) || decide (s.hw.eps[n].cfgr.epdir = .inp)

/-- Endpoint `n` has a buffer for OUT data (41_bus_side.md R171). -/
def receives (s : State) (n : Fin 8) : Bool := decide (n = 0) || decide (s.hw.eps[n].cfgr.epdir = .out)

/-- The SIE owns the TX buffer of endpoint `n` and it holds offset `a`: `NAKTX = 0` (20_memory.md R78). -/
def ownsTx (s : State) (a : Nat) (n : Fin 8) : Bool :=
  sends s n && !s.hw.eps[n].csr.naktx && inRange a (txBase s n) (txCap s n)

/-- The SIE owns the RX buffer of endpoint `n` and it holds offset `a`: `NAKRX = 0` (20_memory.md R78). -/
def ownsRx (s : State) (a : Nat) (n : Fin 8) : Bool :=
  receives s n && !s.hw.eps[n].csr.nakrx && inRange a (rxBase s n) (rxCap s n)

/-- The SIE owns an RX buffer that holds offset `a`. -/
def receiving (s : State) (a : Nat) : Bool := (List.finRange 8).any (ownsRx s a)

/-- The SIE owns a buffer that holds offset `a`. -/
def sieOwns (s : State) (a : Nat) : Bool := (List.finRange 8).any fun n => ownsTx s a n || ownsRx s a n

/-! ### A race ends where ownership returns (20_memory.md R75(a), R78) -/

/-- The SIE owned the byte at `a` in `s` and owns it no longer in `t`. -/
def givenBack (s t : State) (a : Nat) : Bool := sieOwns s a && !sieOwns t a

/-- `t`, reached from `s`, with the races ended on the bytes given back: what a later handover sends is never older than
what was written before it (20_memory.md R75(a)). -/
def endRaces (s t : State) : State :=
  { t with hw := { t.hw with raced := t.hw.raced.filter fun c => !givenBack s t c.1 } }

/-- Change endpoint `n`, its ownership left as it is. -/
def setEp (n : Fin 8) (f : Endpoint → Endpoint) (s : State) : State :=
  { s with hw := { s.hw with eps := s.hw.eps.set n (f s.hw.eps[n]) } }

/-- The endpoint `e'` that replaces `e`: a count race ends where the TX buffer is given back
(40_register_access.md R138). -/
def countBack (e e' : Endpoint) : Endpoint :=
  if !e.csr.naktx && e'.csr.naktx then { e' with txcntOld := [] } else e'

/-- Change endpoint `n`; every race ends on what the SIE gives back by it (20_memory.md R78). -/
def updateEp (n : Fin 8) (f : Endpoint → Endpoint) (s : State) : State :=
  endRaces s (setEp n (fun e => countBack e (f e)) s)

/-! ### Reading by firmware -/

/-- The byte firmware sees at `a`: in an RX buffer the SIE owns, the stored byte, an older one, or one of a packet that
is being received, a free choice for each byte on its own (20_memory.md R78); elsewhere the latest write (R75). -/
def fwByte (s : State) (a : Nat) : Byte :=
  if receiving s a then pickByte s a (byteAt s a) (Config.freeIncoming s.hw.draws a :: racedAt s a) else byteAt s a

/-- The bytes firmware sees in `[a, a + n)`. -/
def fwBytes (s : State) (a n : Nat) : List Byte := (List.range n).map fun i => fwByte s (a + i)

/-- What firmware sees in `[a, a + n)` involves a free choice. -/
def fwRacing (s : State) (a n : Nat) : Bool := (List.range n).any fun i => receiving s (a + i)

/-! ### Writing -/

/-- A byte stored by the owner of its buffer: it replaces every value a race left. -/
def putByte (a : Nat) (b : Byte) (s : State) : State :=
  { s with hw := { s.hw with
      sram := Memory.store s.hw.sram a b
      raced := s.hw.raced.filter fun c => c.1 ≠ a } }

/-- A byte written by firmware: in a buffer the SIE owns, the write races and the old byte may still be seen
(20_memory.md R78). -/
def putByteFw (a : Nat) (b : Byte) (s : State) : State :=
  if sieOwns s a then
    { s with hw := { s.hw with
        sram := Memory.store s.hw.sram a b
        raced := (a, byteAt s a) :: s.hw.raced } }
  else putByte a b s

/-- Bytes stored upward from `a` by the SIE (41_bus_side.md R166, R167). -/
def putBytes : Nat → List Byte → State → State
  | _, [], s => s
  | a, b :: r, s => putBytes (a + 1) r (putByte a b s)

/-- Bytes written upward from `a` by firmware. -/
def putBytesFw : Nat → List Byte → State → State
  | _, [], s => s
  | a, b :: r, s => putBytesFw (a + 1) r (putByteFw a b s)

/-- What the SRAM/DATA-toggle reset does to the bytes (40_register_access.md R132). Where they are drawn or zeroed no
older byte is left. DESIGN CHOICE (notes/assumptions/8.md): under `preserve`, of which the spec says only that the
contents are unchanged, the reset ends a race as any change of owner does: on the TX buffers it gives back to firmware,
and not in an RX buffer that the SIE goes on owning. -/
def resetContent (s : State) : State :=
  match s.cfg.sramRstContent with
  | .any => { s with hw := { s.hw with sram := [], epoch := s.hw.epoch + 1, raced := [] } }
  | .preserve => s
  | .zero => { s with hw := { s.hw with sram := Memory.zeros s.cfg.layout.sramSize, raced := [] } }

/-! ### The words a copy goes through (20_memory.md R81) -/

/-- The pieces of `[a, a + n)` by aligned 32-bit words, as (offset, bytes): at most `fuel` of them. -/
def wordSpans : Nat → Nat → Nat → List (Nat × Nat)
  | 0, _, _ => []
  | fuel + 1, a, n =>
    if n = 0 then []
    else (a, min n (4 - a % 4)) :: wordSpans fuel (a + min n (4 - a % 4)) (n - min n (4 - a % 4))

/-- The pieces of a copy of `n` bytes at `a`. -/
def copySpans (a n : Nat) : List (Nat × Nat) := wordSpans n a n

end Sys2Proof.Machine
end

