-- ==== Sys2Proof/Machine/BusSide.lean ====
section
/-! DEFINITION. The bus side: what the SIE does on each host stimulus, each transaction one atomic step
(41_bus_side.md R160 to R172). -/

namespace Sys2Proof.Machine

/-- Append an observable output (00_scope.md R11). -/
def observe (o : Obs) (s : State) : State := { s with log := o :: s.log }

/-- The SIE's answer to a stimulus (30_encoding.md R101). -/
def answer (a : Answer) (s : State) : State := observe (.answer a) s

/-! ### Attachment and matching -/

/-- `ATTACHED` (41_bus_side.md R160). -/
def attached (s : State) : Bool :=
  s.hw.csr.dppuen && !s.hw.csr.pdwn && !s.hw.csr.fres && !s.hw.csr.sramrstc

/-- The enabled endpoints whose `EPADR` is the token's endpoint number (41_bus_side.md R165). -/
def addressed (s : State) (ep : BitVec 4) : List (Fin 8) :=
  (List.finRange 8).filter fun n => s.hw.eps[n].cfgr.epen && decide (s.hw.eps[n].cfgr.epadr = ep)

/-- The token of a transaction. -/
inductive Token where
  | setup
  | out
  | inp
  deriving DecidableEq, Repr

/-- The direction fits: SETUP needs endpoint 0, which is matched in both directions (41_bus_side.md R165). -/
def directionFits (tok : Token) (n : Fin 8) (d : Dir) : Bool :=
  match tok with
  | .setup => decide (n = 0)
  | .out => decide (n = 0) || decide (d = .out)
  | .inp => decide (n = 0) || decide (d = .inp)

/-- The physical endpoint a token stimulus matches (41_bus_side.md R165). -/
def matchToken (tok : Token) (addr : BitVec 7) (ep : BitVec 4) (s : State) : Option (Fin 8) :=
  if attached s && decide (addr = s.hw.addrActive) && decide (ep.toNat < s.cfg.layout.nEp) then
    match addressed s ep with
    | [n] => if directionFits tok n s.hw.eps[n].cfgr.epdir then some n else none
    | _ => none
  else none

/-! ### Line events -/

/-- The status word with only `URSTIF` set. -/
def statusReset : Isr := { Isr.zero with urstif := true }
/-- The status word with only `SUSPIF` set. -/
def statusSuspend : Isr := { Isr.zero with suspif := true }
/-- The status word with only `RSMIF` set. -/
def statusResume : Isr := { Isr.zero with rsmif := true }
/-- The status word with only `SOFIF` set. -/
def statusSof : Isr := { Isr.zero with sofif := true }

/-- The bus reset's effect on the SIE (41_bus_side.md R161): the status bit and the address, nothing else. -/
def busReset (s : State) : State :=
  raiseStatus statusReset { s with hw := { s.hw with addrActive := 0, addrPending := false, devar := 0 } }

/-- `B_RESET` (41_bus_side.md R161). -/
def stimReset (s : State) : Res := .next (answer .none (busReset s))

/-- `B_SUSPEND` (41_bus_side.md R162). -/
def stimSuspend (s : State) : Res := .next (answer .none (raiseStatus statusSuspend s))

/-- `B_RESUME` (41_bus_side.md R163). -/
def stimResume (s : State) : Res := .next (answer .none (raiseStatus statusResume s))

/-- `B_SOF`: a token, so silent while not attached (41_bus_side.md R164, R160). -/
def stimSof (s : State) : Res :=
  .next (answer .none (if attached s then raiseStatus statusSof s else s))

/-! ### Transactions -/

/-- What an accepted SETUP leaves in endpoint 0 (41_bus_side.md R166). -/
def setupEndpoint (e : Endpoint) : Endpoint :=
  { e with
    csr := ⟨true, false, false, false⟩
    txcnt := 0
    txcntOld := []
    rxcnt := 0
    dtgTx := true
    dtgRx := true }

/-- An accepted SETUP transaction (41_bus_side.md R166). -/
def acceptSetup (data : List Byte) (s : State) : State :=
  answer .ack
    (raiseStatus (epStatus s.cfg.layout 0) (updateEp 0 setupEndpoint (putBytes s.cfg.layout.ep0SetupOff data s)))

/-- `B_SETUP` (41_bus_side.md R166). -/
def stimSetup (addr : BitVec 7) (ep : BitVec 4) (data : List Byte) (s : State) : Res :=
  match matchToken .setup addr ep s with
  | none => .next (answer .none s)
  | some n =>
    if s.hw.eps[n].cfgr.eptype = .isochronous then .refused .isochronous
    else if data.length ≠ s.cfg.layout.ep0SetupLen then .next (answer .none s)
    else if s.cfg.layout.sramSize < s.cfg.layout.ep0SetupOff + s.cfg.layout.ep0SetupLen then .refused .outsideSram
    else .next (acceptSetup data s)

/-- The PID of a DATA packet with a given toggle: DATA0 = 0x3, DATA1 = 0xB (41_bus_side.md R167). -/
def dataPid (toggle : Bool) : BitVec 4 := if toggle then 0xB#4 else 0x3#4

/-- What an accepted OUT packet of `len` bytes leaves in its endpoint (41_bus_side.md R167). -/
def outEndpoint (len : Nat) (e : Endpoint) : Endpoint :=
  { e with
    csr := { e.csr with nakrx := true }
    rxcnt := BitVec.ofNat 7 len
    dtgRx := !e.dtgRx }

/-- An accepted OUT data packet (41_bus_side.md R167). -/
def acceptOut (n : Fin 8) (data : List Byte) (s : State) : State :=
  answer .ack
    (raiseStatus (epStatus s.cfg.layout n)
      (updateEp n (outEndpoint data.length) (putBytes (rxBase s n) data s)))

/-- `B_OUT`, first applicable case (41_bus_side.md R167). -/
def stimOut (addr : BitVec 7) (ep pid : BitVec 4) (data : List Byte) (s : State) : Res :=
  match matchToken .out addr ep s with
  | none => .next (answer .none s)
  | some n =>
    if s.hw.eps[n].cfgr.eptype = .isochronous then .refused .isochronous
    else if s.hw.eps[n].csr.stlrx then .next (answer .stall s)
    else if s.hw.eps[n].csr.nakrx then .next (answer .nak s)
    else if pid ≠ dataPid s.hw.eps[n].dtgRx then .next (answer .ack s)
    else if rxCap s n < data.length then .next (answer .none s)
    else if s.cfg.layout.sramSize < rxBase s n + data.length then .refused .outsideSram
    else .next (acceptOut n data s)

/-- What an acknowledged IN packet leaves in its endpoint (41_bus_side.md R168). -/
def inEndpoint (e : Endpoint) : Endpoint :=
  { e with
    csr := { e.csr with naktx := true }
    dtgTx := !e.dtgTx }

/-- A pending address takes effect (41_bus_side.md R170). -/
def applyAddress (s : State) : State :=
  if s.hw.addrPending then
    { s with hw := { s.hw with addrActive := s.hw.devar, addrPending := false } }
  else s

/-- The host acknowledges the packet endpoint `n` sent (41_bus_side.md R168). -/
def completeIn (n : Fin 8) (s : State) : State :=
  applyAddress (raiseStatus (epStatus s.cfg.layout n) (updateEp n inEndpoint s))

/-- The count an IN transaction uses: `TXCNT`, or, where firmware wrote it while the SIE owned the buffer, a free choice
among it and the older ones (40_register_access.md R138, 20_memory.md R78). -/
def sentCount (n : Fin 8) (s : State) : Nat :=
  (chooseOne (Config.freeCount s.hw.draws) s.hw.eps[n].txcnt s.hw.eps[n].txcntOld).toNat

/-- The packet endpoint `n` sends: the current toggle and `TXCNT` bytes (41_bus_side.md R168). -/
def inPacket (n : Fin 8) (s : State) : Answer :=
  .data s.hw.eps[n].dtgTx (seenBytes s (txBase s n) (sentCount n s))

/-- Once a packet was sent, the next access to what races chooses afresh (20_memory.md R78). -/
def afterSend (n : Fin 8) (s : State) : State :=
  drawIf (racing s (txBase s n) (sentCount n s) || decide (s.hw.eps[n].txcntOld ≠ [])) s

/-- `B_IN`, first applicable case (41_bus_side.md R168). -/
def stimIn (addr : BitVec 7) (ep : BitVec 4) (ack : Bool) (s : State) : Res :=
  match matchToken .inp addr ep s with
  | none => .next (answer .none s)
  | some n =>
    if s.hw.eps[n].cfgr.eptype = .isochronous then .refused .isochronous
    else if s.hw.eps[n].csr.stltx then .next (answer .stall s)
    else if s.hw.eps[n].csr.naktx then .next (answer .nak s)
    else if txCap s n < sentCount n s then .refused .countAboveCapacity
    else if s.cfg.layout.sramSize < txBase s n + sentCount n s then .refused .outsideSram
    else if ack then .next (answer (inPacket n s) (completeIn n (afterSend n s)))
    else .next (answer (inPacket n s) (afterSend n s))

/-- The effect of a bus stimulus (41_bus_side.md). -/
def applyStim : Stim → State → Res
  | .reset, s => stimReset s
  | .suspend, s => stimSuspend s
  | .resume, s => stimResume s
  | .sof, s => stimSof s
  | .setup addr ep data, s => stimSetup addr ep data s
  | .out addr ep pid data, s => stimOut addr ep pid data s
  | .inp addr ep ack, s => stimIn addr ep ack s

end Sys2Proof.Machine
end

