-- ==== Sys2Proof/Machine/Ops.lean ====
section
/-! DEFINITION. The shared operations: register accesses with their side effects (40_register_access.md R130
to R141), the interrupt handler's run (43_dispatcher.md R220, 60_exceptions.md R321, R322), interleaving points
(20_memory.md R79), firmware copies (R81), and the endings of an operation (00_scope.md R10). -/

namespace Sys2Proof.Machine

/-- Go on with `f` where `r` is a next state; a stop stays a stop. -/
def andThen {α β : Type} (r : Host.Outcome α Fault Refusal) (f : α → Host.Outcome β Fault Refusal) :
    Host.Outcome β Fault Refusal :=
  match r with
  | .next a => f a
  | .fault e => .fault e
  | .refused e => .refused e

/-! ### Register writes (40_register_access.md) -/

/-- What the SRAM/DATA-toggle reset leaves of an endpoint: toggles 0, counts 0, `NAKTX = 1`, `NAKRX = 0`; stall
bits and configuration unchanged (40_register_access.md R132). -/
def bufferReset (e : Endpoint) : Endpoint :=
  { e with
    csr := { e.csr with naktx := true, nakrx := false }
    txcnt := 0
    txcntOld := []
    rxcnt := 0
    dtgTx := false
    dtgRx := false }

/-- The SRAM/DATA-toggle reset (40_register_access.md R132). -/
def sramReset (s : State) : State :=
  resetContent (endRaces s { s with hw := { s.hw with eps := Vector.ofFn fun n => bufferReset s.hw.eps[n] } })

/-- The store of a `CSR` write. -/
def storeCsr (v : Csr) (s : State) : State := { s with hw := { s.hw with csr := v } }

/-- `WR32(CSR, v)`: a 0-to-1 write of `SRAMRSTC` performs the reset in the same step (40_register_access.md R131). -/
def writeCsr (v : Csr) (s : State) : State :=
  if !s.hw.csr.sramrstc && v.sramrstc then sramReset (storeCsr v s) else storeCsr v s

/-- `WR32(IER, v)` (40_register_access.md R133). -/
def writeIer (v : Ier) (s : State) : State := { s with hw := { s.hw with ier := v } }

/-- `WR32(DEVAR, v)`: the address becomes pending (40_register_access.md R135). -/
def writeDevar (a : BitVec 7) (s : State) : State :=
  { s with hw := { s.hw with devar := a, addrPending := true } }

/-- The bits of `EPnCSR` inverted where `m` is 1. -/
def EpCsr.toggle (c m : EpCsr) : EpCsr where
  naktx := c.naktx ^^ m.naktx
  stltx := c.stltx ^^ m.stltx
  nakrx := c.nakrx ^^ m.nakrx
  stlrx := c.stlrx ^^ m.stlrx

/-- `WR32(EPnCSR, v)`: write-1-to-toggle or plain, per `EPCSR_WRITE` (40_register_access.md R137). -/
def writeEpCsr (n : Fin 8) (v : EpCsr) (s : State) : State :=
  updateEp n (fun e => { e with csr :=
    match s.cfg.epcsrWrite with
    | .toggle => e.csr.toggle v
    | .plain => v }) s

/-- `WR32(EPnTCR, v)`: `TXCNT` only, `RXCNT` is read-only. While the SIE owns the TX buffer the write races with its use
of the count, and the old one may still be used (40_register_access.md R138, 20_memory.md R78). -/
def writeTxcnt (n : Fin 8) (c : BitVec 7) (s : State) : State :=
  setEp n (fun e => { e with txcnt := c, txcntOld := if e.csr.naktx then [] else e.txcnt :: e.txcntOld }) s

/-- `WR32(EPnCFGR, v)` (40_register_access.md R139). -/
def writeCfgr (n : Fin 8) (v : EpCfgr) (s : State) : State := updateEp n (fun e => { e with cfgr := v }) s

/-- The write that realises `EPnCSR <- want` after a read that gave `t`: under toggle semantics the bits that
differ are written as 1, and nothing is written when none does; under plain semantics `want` is written back
(40_register_access.md R141). The register may have changed since the read (70_reset_and_hazards.md R367). -/
def storeEpCsr (n : Fin 8) (t want : EpCsr) (s : State) : State :=
  match s.cfg.epcsrWrite with
  | .toggle => if t = want then s else writeEpCsr n (t.toggle want) s
  | .plain => writeEpCsr n want s

/-- The write of the operations that write only where a bit differs, under either semantics: the stall operation, and
accepting and rejecting a control transfer (43_dispatcher.md R225, 44_control_pipe.md R266, R267). -/
def changeEpCsr (n : Fin 8) (t want : EpCsr) (s : State) : State :=
  if t = want then s else storeEpCsr n t want s

/-! ### Bus stimuli between the handler's steps -/

/-- Bus stimuli in order. -/
def runStims : List Stim → State → Res
  | [], s => .next s
  | st :: r, s => andThen (applyStim st s) (runStims r)

/-- The stimuli of the `k`-th gap; a gap the schedule does not give is empty. -/
def gap (gaps : List (List Stim)) (k : Nat) (s : State) : Res := runStims (gaps.getD k []) s

/-! ### Taking an interrupt (43_dispatcher.md R220; 60_exceptions.md R321, R322) -/

/-- Step 1: `HSNAP <- RD32(ISR) & SRC_MASK`. -/
def handlerRead (s : State) : State := { s with fw := { s.fw with hsnap := some s.hw.isr } }

/-- Step 2, first line: the event flag of every source in the snapshot is set. -/
def handlerFlags (snap : Isr) (s : State) : State :=
  { s with fw := { s.fw with evf := setFlags s.fw.evf snap } }

/-- Step 3: the pulse of `SRAMRSTC`, a read and two writes of `CSR` (43_dispatcher.md R220). -/
def handlerPulse (gaps : List (List Stim)) (s : State) : Res :=
  let t := s.hw.csr
  andThen (gap gaps 3 s) fun s =>
  andThen (gap gaps 4 (writeCsr { t with sramrstc := true } s)) fun s =>
  gap gaps 5 (writeCsr { t with sramrstc := false } s)

/-- Step 4 and the return: one wake if any source was seen; nothing was saved and nothing is restored. -/
def handlerReturn (snap : Isr) (s : State) : State :=
  let s := if snap.any then fireWake s else s
  { s with fw := { s.fw with hsnap := none } }

/-- The whole run of the interrupt handler, with the bus stimuli that fall between its steps
(43_dispatcher.md R220; 20_memory.md R79). -/
def takeInterrupt (gaps : List (List Stim)) (s : State) : Res :=
  let snap := s.hw.isr
  andThen (gap gaps 0 (handlerRead s)) fun s =>
  andThen (gap gaps 1 (handlerFlags snap s)) fun s =>
  andThen (gap gaps 2 (clearStatus snap s)) fun s =>
  andThen (if snap.urstif then handlerPulse gaps s else .next s) fun s =>
  .next (handlerReturn snap s)

/-! ### Interleaving points of task operations (20_memory.md R79) -/

/-- One preemption. -/
def runPreempt : Preempt → State → Res
  | .bus st, s => applyStim st s
  | .irq gaps, s => takeInterrupt gaps s

/-- The preemptions of one interleaving point, in order. -/
def runBatch : List Preempt → State → Res
  | [], s => .next s
  | p :: r, s => andThen (runPreempt p s) (runBatch r)

/-- An interleaving point between two atomic steps: what the schedule gives for it happens now. -/
def point (s : State) : Res :=
  match s.sched with
  | [] => .next s
  | b :: r => runBatch b { s with sched := r }

/-- The bus stimuli of a point's batch; a handler never runs inside the handler (60_exceptions.md R322). -/
def batchStims (b : List Preempt) : List Stim :=
  b.filterMap fun p =>
    match p with
    | .bus st => some st
    | .irq _ => none

/-! ### Firmware copies, one aligned word at a time (20_memory.md R81) -/

/-- The pieces of a read, with an interleaving point before each. -/
def readSpans : List (Nat × Nat) → List Byte → State → Host.Outcome (List Byte × State) Fault Refusal
  | [], acc, s => .next (acc, s)
  | (a, k) :: r, acc, s =>
    andThen (point s) fun s => readSpans r (acc ++ fwBytes s a k) (drawIf (fwRacing s a k) s)

/-- `MemRead(a, n)` by firmware (20_memory.md R81). -/
def memRead (a n : Nat) (s : State) : Host.Outcome (List Byte × State) Fault Refusal :=
  if s.cfg.layout.sramSize < a + n then .refused .outsideSram else readSpans (copySpans a n) [] s

/-- The pieces of a write, with an interleaving point before each. -/
def writeSpans : List (Nat × Nat) → List Byte → State → Res
  | [], _, s => .next s
  | (a, k) :: r, d, s =>
    andThen (point s) fun s => writeSpans r (d.drop k) (putBytesFw a (d.take k) s)

/-- `MemWrite(a, |d|, d)` by firmware (20_memory.md R81). -/
def memWrite (a : Nat) (d : List Byte) (s : State) : Res :=
  if s.cfg.layout.sramSize < a + d.length then .refused .outsideSram
  else writeSpans (copySpans a d.length) d s

/-! ### Endings of an operation (00_scope.md R10) -/

/-- The operation completes and its result goes to its task. -/
def finish (t : Task) (r : Result) (s : State) : Res := .next (observe (.result t r) s)

/-- `raise E`: the operation ends with an error result and no state changed (60_exceptions.md R310). -/
def raiseError (t : Task) (e : ErrorKind) (s : State) : Res := finish t (.error e) s

/-- `abort`: an endpoint number above 7 ends the run (60_exceptions.md R315). -/
def abort : Res := .fault .abort

/-- Go on with a physical endpoint; a number above 7 names none and aborts (60_exceptions.md R315). -/
def orAbort (n : Option (Fin 8)) (f : Fin 8 → Res) : Res :=
  match n with
  | none => abort
  | some n => f n

/-- Go on with the physical endpoint of an address (60_exceptions.md R315). -/
def withEndpoint (s : State) (a : EpAddr) (f : Fin 8 → Res) : Res := orAbort (epIndex s.cfg.layout a.num) f

/-- Set `PHASE` (10_state.md R38). -/
def setPhase (p : Phase) (s : State) : State := { s with fw := { s.fw with phase := p } }

/-- What the bus task is held in. -/
def setPollHeld (b : Bool) (s : State) : State := { s with tasks := { s.tasks with pollHeld := b } }

/-- What the control task is held in. -/
def setControlHeld (c : Option ControlHeld) (s : State) : State :=
  { s with tasks := { s.tasks with control := c } }

/-- What the task of endpoint `n` is held in. -/
def setEpHeld (n : Fin 8) (h : EpHeld) (s : State) : State :=
  { s with tasks := { s.tasks with eps := s.tasks.eps.set n h } }

end Sys2Proof.Machine
end

