-- ==== Sys2Proof/Machine/Registers.lean ====
section
/-! DEFINITION. The shared forms of raw register and SRAM accesses, and the meanings of those on the global
registers and on EP_SRAM (40_register_access.md R130 to R140, R143). -/

namespace Sys2Proof.Machine

/-- A read returns the value and changes no state (40_register_access.md R130). -/
def returnWord (v : Word) (s : State) : Res := .next (observe (.value v) s)

/-! ### The endpoint banks -/

/-- `RD32(EPnCSR)` (40_register_access.md R130). -/
def readEpCsr (n : Fin 8) (s : State) : Res := returnWord (epCsrImage s.cfg.layout.regs s.hw.eps[n].csr) s

/-- `RD32(EPnTCR)` (40_register_access.md R130). -/
def readEpTcr (n : Fin 8) (s : State) : Res :=
  returnWord (epTcrImage s.cfg.layout.regs s.hw.eps[n].txcnt s.hw.eps[n].rxcnt) s

/-- `RD32(EPnCFGR)` (40_register_access.md R130). -/
def readEpCfgr (n : Fin 8) (s : State) : Res := returnWord (epCfgrImage s.cfg.layout.regs s.hw.eps[n].cfgr) s

/-- `WR32(EPnCSR, v)` (40_register_access.md R137). -/
def rawWriteCsr (n : Fin 8) (v : Word) (s : State) : Res := .next (writeEpCsr n (epCsrFields s.cfg.layout.regs v) s)

/-- `WR32(EPnTCR, v)`: a count above the TX buffer's capacity is refused (40_register_access.md R138, U6). -/
def rawWriteTcr (n : Fin 8) (v : Word) (s : State) : Res :=
  if txCap s n < (txcntField s.cfg.layout.regs v).toNat then .refused .countAboveCapacity
  else .next (writeTxcnt n (txcntField s.cfg.layout.regs v) s)

/-- Two byte ranges share a byte. -/
def overlaps (a la b lb : Nat) : Bool :=
  decide (0 < la) && decide (0 < lb) && decide (a < b + lb) && decide (b < a + la)

/-- The range of a configuration of endpoint `n` meets an EP0 region that is not its own (10_state.md R30): endpoint 0's
is the EP0 TX buffer (42_allocator.md R204; notes/assumptions/12.md). -/
def meetsEp0 (l : Config.Layout) (n : Fin 8) (c : EpCfgr) : Bool :=
  overlaps c.epbufa.toNat c.eplen.toNat l.ep0SetupOff l.ep0SetupLen ||
    (decide (n ≠ 0) && overlaps c.epbufa.toNat c.eplen.toNat l.ep0TxOff l.ep0TxLen) ||
    overlaps c.epbufa.toNat c.eplen.toNat l.ep0RxOff l.ep0RxLen

/-- The range of a configuration meets the buffer of another enabled endpoint 1 to 7. -/
def meetsEnabled (n : Fin 8) (c : EpCfgr) (s : State) : Bool :=
  (List.finRange 8).any fun m =>
    decide (m ≠ n) && decide (m ≠ 0) && s.hw.eps[m].cfgr.epen &&
      overlaps c.epbufa.toNat c.eplen.toNat s.hw.eps[m].cfgr.epbufa.toNat s.hw.eps[m].cfgr.eplen.toNat

/-- A configuration the spec gives no meaning: outside SRAM, misaligned, overlapping another enabled endpoint's
or the EP0 regions, or with `EPADR != n` (40_register_access.md R139, U7; notes/assumptions/12.md). -/
def badConfig (n : Fin 8) (c : EpCfgr) (s : State) : Bool :=
  decide (c.epadr ≠ epNumber n) || decide (s.cfg.layout.sramSize < c.epbufa.toNat + c.eplen.toNat) ||
    decide (c.epbufa.toNat % s.cfg.layout.word ≠ 0) || decide (c.eplen.toNat % s.cfg.layout.word ≠ 0) ||
    meetsEp0 s.cfg.layout n c || meetsEnabled n c s

/-- A write that enables an endpoint that was never allocated (U7; 10_state.md R35; notes/assumptions/12.md). -/
def enablesUnallocated (n : Fin 8) (c : EpCfgr) (s : State) : Bool :=
  c.epen && !s.hw.eps[n].cfgr.epen && !allocated s n

/-- The SIE owns a buffer of endpoint `n` (20_memory.md R78). -/
def ownsBuffer (n : Fin 8) (s : State) : Bool :=
  if n = 0 then !s.hw.eps[n].csr.naktx || !s.hw.eps[n].csr.nakrx
  else
    match s.hw.eps[n].cfgr.epdir with
    | .inp => !s.hw.eps[n].csr.naktx
    | .out => !s.hw.eps[n].csr.nakrx

/-- A write that reconfigures (beyond `EPEN`) an enabled endpoint while the SIE owns its buffer
(40_register_access.md R139, U7). -/
def reconfiguresInUse (n : Fin 8) (c : EpCfgr) (s : State) : Bool :=
  s.hw.eps[n].cfgr.epen && ownsBuffer n s &&
    decide ({ c with epen := true } ≠ s.hw.eps[n].cfgr)

/-- `WR32(EPnCFGR, v)` (40_register_access.md R139, U7; notes/assumptions/12.md). -/
def rawWriteCfgr (n : Fin 8) (v : Word) (s : State) : Res :=
  if badConfig n (epCfgrFields s.cfg.layout.regs v) s then .refused .badEndpointConfig
  else if enablesUnallocated n (epCfgrFields s.cfg.layout.regs v) s then .refused .badEndpointConfig
  else if reconfiguresInUse n (epCfgrFields s.cfg.layout.regs v) s then .refused .configInUse
  else .next (writeCfgr n (epCfgrFields s.cfg.layout.regs v) s)

/-! ### The global registers -/

/-- `RD32(CSR)` (40_register_access.md R130). -/
def execRd32Csr (s : State) : Res := returnWord (csrImage s.cfg.layout.regs s.hw.csr) s

/-- `WR32(CSR, v)` (40_register_access.md R131). -/
def execWr32Csr (v : Word) (s : State) : Res := .next (writeCsr (csrFields s.cfg.layout.regs v) s)

/-- `RD32(IER)` (40_register_access.md R130). -/
def execRd32Ier (s : State) : Res := returnWord (ierImage s.cfg.layout.regs s.hw.ier) s

/-- `WR32(IER, v)` (40_register_access.md R133). -/
def execWr32Ier (v : Word) (s : State) : Res := .next (writeIer (ierFields s.cfg.layout.regs v) s)

/-- `RD32(ISR)`: all pending sources, nothing cleared (40_register_access.md R136). -/
def execRd32Isr (s : State) : Res := returnWord (isrImage s.cfg.layout.regs s.hw.isr) s

/-- `WR32(ISR, v)`: write-1-to-clear (40_register_access.md R134). -/
def execWr32Isr (v : Word) (s : State) : Res := .next (clearStatus (isrFields s.cfg.layout.regs v) s)

/-- `RD32(DEVAR)` (40_register_access.md R130). -/
def execRd32Devar (s : State) : Res := returnWord (devarImage s.cfg.layout.regs s.hw.devar) s

/-- `WR32(DEVAR, v)` (40_register_access.md R135). -/
def execWr32Devar (v : Word) (s : State) : Res := .next (writeDevar (devarField s.cfg.layout.regs v) s)

/-! ### EP_SRAM -/

/-- The word an SRAM read sees at `a` (40_register_access.md R140, 20_memory.md R71). -/
def sramWord (a : Nat) (s : State) : Word :=
  wordOfBytes (fwByte s a) (fwByte s (a + 1)) (fwByte s (a + 2)) (fwByte s (a + 3))

/-- `RD32(SRAM, off)` (40_register_access.md R140, R143). -/
def execRd32Sram (off : BitVec 12) (s : State) : Res :=
  if off.toNat % 4 ≠ 0 then .refused .misaligned
  else if s.cfg.layout.sramSize < off.toNat + 4 then .refused .outsideSram
  else returnWord (sramWord off.toNat s) (drawIf (fwRacing s off.toNat 4) s)

/-- `WR32(SRAM, off, v)`: the low byte at the lowest offset (40_register_access.md R140, R143). -/
def execWr32Sram (off : BitVec 12) (v : Word) (s : State) : Res :=
  if off.toNat % 4 ≠ 0 then .refused .misaligned
  else if s.cfg.layout.sramSize < off.toNat + 4 then .refused .outsideSram
  else .next (putBytesFw off.toNat (wordBytesLe v) s)

/-- A read of a register-window offset that holds no register returns a free value (10_state.md R28, U1). -/
def holeRead (s : State) : Res :=
  returnWord (Config.freeHole s.hw.draws) { s with hw := { s.hw with draws := s.hw.draws + 1 } }

/-- A write of such an offset has no effect on any state (10_state.md R28, U1). -/
def holeWrite (s : State) : Res := .next s

end Sys2Proof.Machine
end

