-- ==== Sys2Proof/Machine/Allocator.lean ====
section
/-! DEFINITION. The SRAM buffer arbiter: construction, buffer map, allocator, start (42_allocator.md). -/

namespace Sys2Proof.Machine

/-- The default endpoint number of a (direction, type) pair (42_allocator.md R203). -/
def defaultNumber (t : Config.DefaultAddr) (d : Dir) (ty : EpType) : BitVec 4 :=
  match ty, d with
  | .control, _ => t.control
  | .bulk, .inp => t.bulkIn
  | .bulk, .out => t.bulkOut
  | .interrupt, .inp => t.interruptIn
  | .interrupt, .out => t.interruptOut
  | .isochronous, _ => 0

/-- The number an allocation computes: the given address's, or the default (42_allocator.md R202). -/
def chosenNumber (s : State) (d : Dir) (ty : EpType) (opt : Option EpAddr) : BitVec 4 :=
  match opt with
  | some a => a.num
  | none => defaultNumber s.cfg.defaultAddr d ty

/-- The bitmap bits an allocation sets: both of endpoint 0, one of the others (42_allocator.md R202). -/
def allocBits (n : Fin 8) (d : Dir) : BitVec 16 :=
  if n = 0 then 0x0003#16 else BitVec.twoPow 16 (allocIndex n d)

/-- `min(requested, MAX_PKT)` (30_encoding.md R110(d)). -/
def negotiated (s : State) (mps : Nat) : Nat := min mps s.cfg.layout.maxPkt

/-- The record an allocation writes and returns; the operation's direction wins over the address's
(42_allocator.md R202). -/
def newInfo (s : State) (n : Fin 8) (d : Dir) (ty : EpType) (mps : Nat) (interval : Byte) : EpInfo where
  address := ⟨epNumber n, d⟩
  type := ty
  maxPacketSize := negotiated s mps
  interval := interval

/-- A successful allocation: the configuration register, the bitmap, the record (42_allocator.md R202, R204). DESIGN
CHOICE (notes/assumptions/36.md): the register is written also where a raw write has put the buffer of another enabled
endpoint into the region. -/
def commitAlloc (n : Fin 8) (d : Dir) (ty : EpType) (mps : Nat) (interval : Byte) (s : State) : State :=
  let info := newInfo s n d ty mps interval
  let s := writeCfgr n (cfgrValue s.cfg.layout n d ty) s
  { s with fw := { s.fw with
      alloc := s.fw.alloc ||| allocBits n d
      epinfo := s.fw.epinfo.set n (some info) } }

/-- The allocation fails: the number and the type do not fit, or the number is in use (42_allocator.md R202,
60_exceptions.md R311). -/
def allocFails (s : State) (n : Fin 8) (ty : EpType) : Bool :=
  (decide (ty = .control) != decide (n = 0)) || allocated s n

/-- `allocate(d, t, opt, mps, interval)`: the tests in the order of 42_allocator.md R202, all before any change. After
`START` it is excluded by the interface (R206), and offered after `ENABLE` it is refused (70_reset_and_hazards.md
R361). DESIGN CHOICE (notes/assumptions/36.md): where raw accesses, and no `ENABLE`, have attached the device or
enabled the endpoint, it runs as written, even while the SIE owns the endpoint's buffer. DESIGN CHOICE
(notes/assumptions/1.md, 32.md): before `NEW`, and after `NEW` in any order with the bus and control-pipe operations
but `ENABLE`, it runs as written. -/
def allocate (d : Dir) (ty : EpType) (opt : Option EpAddr) (mps : Nat) (interval : Byte) (s : State) : Res :=
  if s.fw.life = .started then .refused .allocAfterStart
  else if s.fw.busEnabled then .refused .allocAfterEnable
  else if ty = .isochronous then .refused .isochronous
  else withEndpoint s ⟨chosenNumber s d ty opt, d⟩ fun n =>
    if allocFails s n ty then raiseError .stack .allocError s
    else finish .stack (.info (newInfo s n d ty mps interval)) (commitAlloc n d ty mps interval s)

/-- The firmware state `NEW` creates, in a state; whether the bus was enabled, and a handler's snapshot, are not the
driver's and stay (42_allocator.md R200). DESIGN CHOICE (notes/assumptions/35.md): a call issued and held before `NEW`
stays held, with its operands and its checks left, and goes on upon the fresh state. -/
def freshDriver (s : State) : State :=
  { s with fw := { Fw.fresh s.cfg.layout .built with hsnap := s.fw.hsnap, busEnabled := s.fw.busEnabled } }

/-- `NEW(config)`: the firmware state gets its initial values; no register is accessed and the two
configuration booleans are ignored (42_allocator.md R200). DESIGN CHOICE (notes/assumptions/18.md): a `START` that ran
before any `NEW` counts as the driver's whole life, so a first `NEW` after it is refused like a second one; and `NEW`
after an `ENABLE` that ran before it leaves the bus enabled. -/
def execNew (_vbusDetection _enableVbusDetect : Bool) (s : State) : Res :=
  if s.fw.life ≠ .unbuilt then .refused .secondNew
  else finish .stack .driver (freshDriver s)

/-- `ALLOC_IN` (42_allocator.md R205). -/
def execAllocIn (ty : EpType) (opt : Option EpAddr) (mps : Nat) (interval : Byte) (s : State) : Res :=
  allocate .inp ty opt mps interval s

/-- `ALLOC_OUT` (42_allocator.md R205). -/
def execAllocOut (ty : EpType) (opt : Option EpAddr) (mps : Nat) (interval : Byte) (s : State) : Res :=
  allocate .out ty opt mps interval s

/-- `START` keeps the control packet size and consumes the driver (42_allocator.md R206). DESIGN CHOICE
(notes/assumptions/35.md): a call held before it stays held. -/
def startDriver (cmps : Nat) (s : State) : State :=
  { s with fw := { s.fw with ctrlMps := negotiated s cmps, life := .started } }

/-- `START(cmps)`: endpoint 0 is allocated unless it already is (42_allocator.md R206); that allocation too is refused
after `ENABLE` (70_reset_and_hazards.md R361). DESIGN CHOICE (notes/assumptions/18.md): after an early `ENABLE`, where
endpoint 0 is already allocated, `START` runs as written. -/
def execStart (cmps : Nat) (s : State) : Res :=
  if s.fw.life = .started then .refused .secondStart
  else if allocated s 0 then finish .stack .handles (startDriver cmps s)
  else if s.fw.busEnabled then .refused .allocAfterEnable
  else finish .stack .handles (startDriver cmps (commitAlloc 0 .out .control cmps 0 s))

/-- `BUFMAP(n, d)`: a pure function; a number above 7 aborts (42_allocator.md R201). -/
def execBufmap (number : Nat) (d : Dir) (s : State) : Res :=
  orAbort (endpointOf s.cfg.layout number) fun n =>
  finish .stack (.region (bufmap s.cfg.layout n d).1 (bufmap s.cfg.layout n d).2) s

/-- The result of `EP_INFO` (42_allocator.md R207). -/
def infoResult : Option EpInfo → Result
  | some i => .info i
  | none => .infoAbsent

/-- `EP_INFO(endpoint)` returns the record written at allocation (42_allocator.md R207). DESIGN CHOICE
(notes/assumptions/33.md): it is answered also while a call of that endpoint's task is held, and with the one record of
the number whichever direction the address has. -/
def execEpInfo (endpoint : EpAddr) (s : State) : Res :=
  withEndpoint s endpoint fun n => finish (.endpoint n) (infoResult s.fw.epinfo[n]) s

end Sys2Proof.Machine
end

