-- ==== Sys2Proof/Machine/Bus.lean ====
section
/-! DEFINITION. The meanings of the bus stimuli (41_bus_side.md). -/

namespace Sys2Proof.Machine

/-- `B_RESET` (41_bus_side.md R161). -/
def execBReset (s : State) : Res := stimReset s

/-- `B_SUSPEND` (41_bus_side.md R162). -/
def execBSuspend (s : State) : Res := stimSuspend s

/-- `B_RESUME` (41_bus_side.md R163). -/
def execBResume (s : State) : Res := stimResume s

/-- `B_SOF` (41_bus_side.md R164). -/
def execBSof (s : State) : Res := stimSof s

/-- `B_SETUP` (41_bus_side.md R166). -/
def execBSetup (addr : BitVec 7) (ep : BitVec 4) (data : List Byte) (s : State) : Res :=
  stimSetup addr ep data s

/-- `B_OUT` (41_bus_side.md R167). -/
def execBOut (addr : BitVec 7) (ep pid : BitVec 4) (data : List Byte) (s : State) : Res :=
  stimOut addr ep pid data s

/-- `B_IN` (41_bus_side.md R168). -/
def execBIn (addr : BitVec 7) (ep : BitVec 4) (ack : Bool) (s : State) : Res := stimIn addr ep ack s

end Sys2Proof.Machine
end

