-- ==== Sys2Proof/Machine/EndpointRegs.lean ====
section
/-! DEFINITION. The meanings of the raw accesses to the endpoint banks `EPnCSR`, `EPnTCR`, `EPnCFGR`, n = 0 to 7
(40_register_access.md R130, R137, R138, R139). -/

namespace Sys2Proof.Machine

/-! ### Endpoint 0 -/

/-- `RD32(EP0CSR)` (40_register_access.md R130). -/
def execRd32Ep0csr (s : State) : Res := readEpCsr 0 s

/-- `WR32(EP0CSR, v)` (40_register_access.md R137). -/
def execWr32Ep0csr (v : Word) (s : State) : Res := rawWriteCsr 0 v s

/-- `RD32(EP0TCR)` (40_register_access.md R130). -/
def execRd32Ep0tcr (s : State) : Res := readEpTcr 0 s

/-- `WR32(EP0TCR, v)` (40_register_access.md R138). -/
def execWr32Ep0tcr (v : Word) (s : State) : Res := rawWriteTcr 0 v s

/-- `RD32(EP0CFGR)` (40_register_access.md R130). -/
def execRd32Ep0cfgr (s : State) : Res := readEpCfgr 0 s

/-- `WR32(EP0CFGR, v)` (40_register_access.md R139). -/
def execWr32Ep0cfgr (v : Word) (s : State) : Res := rawWriteCfgr 0 v s

/-! ### Endpoint 1 -/

/-- `RD32(EP1CSR)` (40_register_access.md R130). -/
def execRd32Ep1csr (s : State) : Res := readEpCsr 1 s

/-- `WR32(EP1CSR, v)` (40_register_access.md R137). -/
def execWr32Ep1csr (v : Word) (s : State) : Res := rawWriteCsr 1 v s

/-- `RD32(EP1TCR)` (40_register_access.md R130). -/
def execRd32Ep1tcr (s : State) : Res := readEpTcr 1 s

/-- `WR32(EP1TCR, v)` (40_register_access.md R138). -/
def execWr32Ep1tcr (v : Word) (s : State) : Res := rawWriteTcr 1 v s

/-- `RD32(EP1CFGR)` (40_register_access.md R130). -/
def execRd32Ep1cfgr (s : State) : Res := readEpCfgr 1 s

/-- `WR32(EP1CFGR, v)` (40_register_access.md R139). -/
def execWr32Ep1cfgr (v : Word) (s : State) : Res := rawWriteCfgr 1 v s

/-! ### Endpoint 2 -/

/-- `RD32(EP2CSR)` (40_register_access.md R130). -/
def execRd32Ep2csr (s : State) : Res := readEpCsr 2 s

/-- `WR32(EP2CSR, v)` (40_register_access.md R137). -/
def execWr32Ep2csr (v : Word) (s : State) : Res := rawWriteCsr 2 v s

/-- `RD32(EP2TCR)` (40_register_access.md R130). -/
def execRd32Ep2tcr (s : State) : Res := readEpTcr 2 s

/-- `WR32(EP2TCR, v)` (40_register_access.md R138). -/
def execWr32Ep2tcr (v : Word) (s : State) : Res := rawWriteTcr 2 v s

/-- `RD32(EP2CFGR)` (40_register_access.md R130). -/
def execRd32Ep2cfgr (s : State) : Res := readEpCfgr 2 s

/-- `WR32(EP2CFGR, v)` (40_register_access.md R139). -/
def execWr32Ep2cfgr (v : Word) (s : State) : Res := rawWriteCfgr 2 v s

/-! ### Endpoint 3 -/

/-- `RD32(EP3CSR)` (40_register_access.md R130). -/
def execRd32Ep3csr (s : State) : Res := readEpCsr 3 s

/-- `WR32(EP3CSR, v)` (40_register_access.md R137). -/
def execWr32Ep3csr (v : Word) (s : State) : Res := rawWriteCsr 3 v s

/-- `RD32(EP3TCR)` (40_register_access.md R130). -/
def execRd32Ep3tcr (s : State) : Res := readEpTcr 3 s

/-- `WR32(EP3TCR, v)` (40_register_access.md R138). -/
def execWr32Ep3tcr (v : Word) (s : State) : Res := rawWriteTcr 3 v s

/-- `RD32(EP3CFGR)` (40_register_access.md R130). -/
def execRd32Ep3cfgr (s : State) : Res := readEpCfgr 3 s

/-- `WR32(EP3CFGR, v)` (40_register_access.md R139). -/
def execWr32Ep3cfgr (v : Word) (s : State) : Res := rawWriteCfgr 3 v s

/-! ### Endpoint 4 -/

/-- `RD32(EP4CSR)` (40_register_access.md R130). -/
def execRd32Ep4csr (s : State) : Res := readEpCsr 4 s

/-- `WR32(EP4CSR, v)` (40_register_access.md R137). -/
def execWr32Ep4csr (v : Word) (s : State) : Res := rawWriteCsr 4 v s

/-- `RD32(EP4TCR)` (40_register_access.md R130). -/
def execRd32Ep4tcr (s : State) : Res := readEpTcr 4 s

/-- `WR32(EP4TCR, v)` (40_register_access.md R138). -/
def execWr32Ep4tcr (v : Word) (s : State) : Res := rawWriteTcr 4 v s

/-- `RD32(EP4CFGR)` (40_register_access.md R130). -/
def execRd32Ep4cfgr (s : State) : Res := readEpCfgr 4 s

/-- `WR32(EP4CFGR, v)` (40_register_access.md R139). -/
def execWr32Ep4cfgr (v : Word) (s : State) : Res := rawWriteCfgr 4 v s

/-! ### Endpoint 5 -/

/-- `RD32(EP5CSR)` (40_register_access.md R130). -/
def execRd32Ep5csr (s : State) : Res := readEpCsr 5 s

/-- `WR32(EP5CSR, v)` (40_register_access.md R137). -/
def execWr32Ep5csr (v : Word) (s : State) : Res := rawWriteCsr 5 v s

/-- `RD32(EP5TCR)` (40_register_access.md R130). -/
def execRd32Ep5tcr (s : State) : Res := readEpTcr 5 s

/-- `WR32(EP5TCR, v)` (40_register_access.md R138). -/
def execWr32Ep5tcr (v : Word) (s : State) : Res := rawWriteTcr 5 v s

/-- `RD32(EP5CFGR)` (40_register_access.md R130). -/
def execRd32Ep5cfgr (s : State) : Res := readEpCfgr 5 s

/-- `WR32(EP5CFGR, v)` (40_register_access.md R139). -/
def execWr32Ep5cfgr (v : Word) (s : State) : Res := rawWriteCfgr 5 v s

/-! ### Endpoint 6 -/

/-- `RD32(EP6CSR)` (40_register_access.md R130). -/
def execRd32Ep6csr (s : State) : Res := readEpCsr 6 s

/-- `WR32(EP6CSR, v)` (40_register_access.md R137). -/
def execWr32Ep6csr (v : Word) (s : State) : Res := rawWriteCsr 6 v s

/-- `RD32(EP6TCR)` (40_register_access.md R130). -/
def execRd32Ep6tcr (s : State) : Res := readEpTcr 6 s

/-- `WR32(EP6TCR, v)` (40_register_access.md R138). -/
def execWr32Ep6tcr (v : Word) (s : State) : Res := rawWriteTcr 6 v s

/-- `RD32(EP6CFGR)` (40_register_access.md R130). -/
def execRd32Ep6cfgr (s : State) : Res := readEpCfgr 6 s

/-- `WR32(EP6CFGR, v)` (40_register_access.md R139). -/
def execWr32Ep6cfgr (v : Word) (s : State) : Res := rawWriteCfgr 6 v s

/-! ### Endpoint 7 -/

/-- `RD32(EP7CSR)` (40_register_access.md R130). -/
def execRd32Ep7csr (s : State) : Res := readEpCsr 7 s

/-- `WR32(EP7CSR, v)` (40_register_access.md R137). -/
def execWr32Ep7csr (v : Word) (s : State) : Res := rawWriteCsr 7 v s

/-- `RD32(EP7TCR)` (40_register_access.md R130). -/
def execRd32Ep7tcr (s : State) : Res := readEpTcr 7 s

/-- `WR32(EP7TCR, v)` (40_register_access.md R138). -/
def execWr32Ep7tcr (v : Word) (s : State) : Res := rawWriteTcr 7 v s

/-- `RD32(EP7CFGR)` (40_register_access.md R130). -/
def execRd32Ep7cfgr (s : State) : Res := readEpCfgr 7 s

/-- `WR32(EP7CFGR, v)` (40_register_access.md R139). -/
def execWr32Ep7cfgr (v : Word) (s : State) : Res := rawWriteCfgr 7 v s

end Sys2Proof.Machine
end

