-- ==== Sys2Proof/Machine/EndpointIo.lean ====
section
/-! DEFINITION. Endpoint I/O (45_endpoint_io.md R290 to R293). -/

namespace Sys2Proof.Machine

/-- The endpoint's region base in the buffer map (45_endpoint_io.md header, 42_allocator.md R201). -/
def regionBase (s : State) (n : Fin 8) (d : Dir) : Nat := (bufmap s.cfg.layout n d).1

/-- `EP_WAIT_ENABLED` returns to the task of endpoint `n`. -/
def waitReturn (n : Fin 8) (s : State) : State := observe (.result (.endpoint n) .unit) (setEpHeld n .idle s)

/-- `EP_WAIT_ENABLED(endpoint)`: at once when the latch is set, held otherwise (45_endpoint_io.md R290). DESIGN CHOICE
(notes/assumptions/33.md): it runs on any number 0 to 7 and either direction, allocated or not, since the rule does
not use the handle; a second call while one of that endpoint is held is refused. -/
def execEpWaitEnabled (endpoint : EpAddr) (s : State) : Res :=
  withEndpoint s endpoint fun n =>
  if s.tasks.eps[n] ≠ .idle then .refused .taskBusy
  else if s.fw.cfgLatch then finish (.endpoint n) .unit s
  else .next (setEpHeld n .waitEnabled s)

/-- `EP_WAIT_ENABLED` at its await, when its task is scheduled: it reads the latch, returns where it is set and waits
(again) where it is clear (45_endpoint_io.md R290, 70_reset_and_hazards.md R357). -/
def waitAwait (n : Fin 8) (s : State) : State :=
  if s.fw.cfgLatch then waitReturn n s else setEpHeld n .waitEnabled s

/-- The hold of `EP_WAIT_ENABLED` lifted. -/
def liftHold : EpHeld → EpHeld
  | .idle => .idle
  | .waitEnabled => .released
  | .released => .released
  | .writing => .writing

/-- `CFG_LATCH <- true`: it lifts the hold of every waiter at once, and where the latch is already true it changes
nothing (10_state.md R34, 44_control_pipe.md R263). No waiter steps here: each re-reads the latch when its own task is
scheduled (20_memory.md R79(a), 70_reset_and_hazards.md R357). -/
def setLatch (s : State) : State :=
  if s.fw.cfgLatch then s
  else
    { s with
      fw := { s.fw with cfgLatch := true }
      tasks := { s.tasks with eps := Vector.ofFn fun n => liftHold s.tasks.eps[n] } }

/-- The packet size of a handle inside its contract: number 1 to 7, allocated, in the handle's direction
(45_endpoint_io.md R293). -/
def handleSize (n : Fin 8) (d : Dir) (want : Dir) (s : State) : Option Nat :=
  if n = 0 then none
  else
    match s.fw.epinfo[n] with
    | none => none
    | some i => if d = want ∧ i.address.dir = want then some i.maxPacketSize else none

/-- `EP_READ` once a packet is seen waiting: count, bytes, and the buffer handed back to the SIE with the
value read first (45_endpoint_io.md R291). -/
def readPacket (n : Fin 8) (len : Nat) (t : EpCsr) (s : State) : Res :=
  let k := min len s.hw.eps[n].rxcnt.toNat
  andThen (memRead (regionBase s n .out) k s) fun r =>
  andThen (point r.2) fun s =>
  finish (.endpoint n) (.bytes r.1) (storeEpCsr n t { t with nakrx := false } s)

/-- `EP_READ(endpoint, len)`: never waits (45_endpoint_io.md R291). -/
def execEpRead (endpoint : EpAddr) (len : Nat) (s : State) : Res :=
  withEndpoint s endpoint fun n =>
  match handleSize n endpoint.dir .out s with
  | none => .refused .handleContract
  | some m =>
    if s.tasks.eps[n] ≠ .idle then .refused .taskBusy
    else if m < len then raiseError (.endpoint n) .bufferOverflow s
    else
      let t := s.hw.eps[n].csr
      if !t.nakrx || t.stlrx then finish (.endpoint n) (.bytes []) s
      else andThen (point s) (readPacket n len t)

/-- `EP_WRITE` after the length check: bytes, count, handover; then the call is held (45_endpoint_io.md R292). -/
def writePacket (n : Fin 8) (data : List Byte) (s : State) : Res :=
  andThen (memWrite (regionBase s n .inp) data s) fun s =>
  andThen (point s) fun s =>
  andThen (point (writeTxcnt n (BitVec.ofNat 7 data.length) s)) fun s =>
  let t := s.hw.eps[n].csr
  andThen (point s) fun s =>
  .next (setEpHeld n .writing (storeEpCsr n t { t with naktx := false } s))

/-- `EP_WRITE(endpoint, data)`: arms the packet and is held at the wait for a wake (45_endpoint_io.md R292). -/
def execEpWrite (endpoint : EpAddr) (data : List Byte) (s : State) : Res :=
  withEndpoint s endpoint fun n =>
  match handleSize n endpoint.dir .inp s with
  | none => .refused .handleContract
  | some m =>
    if s.tasks.eps[n] ≠ .idle then .refused .taskBusy
    else if m < data.length then raiseError (.endpoint n) .bufferOverflow s
    else writePacket n data s

/-- `EP_WRITE` after a wake it consumed: returns if `NAKTX` reads 1, waits again otherwise
(45_endpoint_io.md R292). -/
def writeAwait (n : Fin 8) (s : State) : Res :=
  if s.fw.wake then
    andThen (point (consumeWake s)) fun s =>
    if s.hw.eps[n].csr.naktx then finish (.endpoint n) .unit (setEpHeld n .idle s) else .next s
  else .next s

end Sys2Proof.Machine
end

