-- ==== Sys2Proof/Machine/ControlPipe.lean ====
section
/-! DEFINITION. The control pipe: the endpoint 0 state machine (44_control_pipe.md R260 to R269). A call in a
phase its contract does not list runs as written (R260, U16: notes/assumptions/7.md). -/

namespace Sys2Proof.Machine

/-- An operation of the control task returns. -/
def controlReturn (r : Result) (s : State) : Res := finish .control r (setControlHeld none s)

/-- One control-task operation at a time (44_control_pipe.md header). DESIGN CHOICE (notes/assumptions/32.md): before
`START`, which hands out the control-pipe handle, the operations run as written. -/
def whenControlFree (s : State) (r : Res) : Res :=
  match s.tasks.control with
  | some _ => .refused .taskBusy
  | none => r

/-- `CP_MAX_PACKET_SIZE` (44_control_pipe.md R261). -/
def execCpMaxPacketSize (s : State) : Res := finish .control (.number s.fw.ctrlMps) s

/-! ### Setup stage -/

/-- The packet `CP_SETUP` returns on timeout (44_control_pipe.md R262). -/
def zeroPacket (l : Config.Layout) : List Byte := List.replicate l.ep0SetupLen 0#8

/-- `CP_SETUP` with the packet read: phase, latch, result; setting the latch is an access of its own, with an
interleaving point before it (44_control_pipe.md R262, R263; 20_memory.md R79). -/
def setupDecoded (pkt : List Byte) (s : State) : Res :=
  if isSetConfiguration pkt then
    andThen (point (setPhase .setupReceived s)) fun s => controlReturn (.bytes pkt) (setLatch s)
  else controlReturn (.bytes pkt) (setPhase .setupReceived s)

/-- One check of `CP_SETUP`: the EP0 flag is consumed when it is set; otherwise the operation is at a `yield`
with `left` checks to make (44_control_pipe.md R262, R269). -/
def setupCheck (left : Nat) (s : State) : Res :=
  if flagOf s 4 then
    andThen (memRead s.cfg.layout.ep0SetupOff s.cfg.layout.ep0SetupLen (tasFlag 4 s)) fun r => setupDecoded r.1 r.2
  else .next (setControlHeld (some (.setup left)) s)

/-- `CP_SETUP` (44_control_pipe.md R262). -/
def execCpSetup (s : State) : Res := whenControlFree s (setupCheck s.cfg.setupMoreChecks s)

/-! ### Data stage -/

/-- `CP_DATA_OUT` with a packet waiting: count, bytes, and the buffer handed back with the value the check
read (44_control_pipe.md R264). -/
def dataOutTake (len : Nat) (t : EpCsr) (s : State) : Res :=
  let k := min (min len s.hw.eps[(0 : Fin 8)].rxcnt.toNat) s.cfg.layout.ep0RxLen
  andThen (memRead s.cfg.layout.ep0RxOff k s) fun r =>
  andThen (point r.2) fun s =>
  controlReturn (.bytes r.1) (storeEpCsr 0 t { t with nakrx := false } s)

/-- One check of `CP_DATA_OUT`: ready when `NAKRX = 1` and `STLRX = 0` (44_control_pipe.md R264). -/
def dataOutCheck (left len : Nat) (s : State) : Res :=
  let t := s.hw.eps[(0 : Fin 8)].csr
  if t.nakrx && !t.stlrx then andThen (point s) (dataOutTake len t)
  else .next (setControlHeld (some (.dataOut left len)) s)

/-- `CP_DATA_OUT(len, first, last)`; `first` and `last` change nothing here (44_control_pipe.md R264). -/
def execCpDataOut (len : Nat) (_first _last : Bool) (s : State) : Res :=
  whenControlFree s (dataOutCheck s.cfg.ctrlMoreChecks len (setPhase .dataOut s))

/-- The phase after `CP_DATA_IN` (44_control_pipe.md R265). -/
def phaseAfterIn (last : Bool) : Phase := if last then .idle else .dataIn

/-- `CP_DATA_IN` when the TX buffer is ready: bytes, count, handover (44_control_pipe.md R265). -/
def dataInPut (data : List Byte) (last : Bool) (t : EpCsr) (s : State) : Res :=
  let d := data.take s.cfg.layout.ep0TxLen
  andThen (memWrite s.cfg.layout.ep0TxOff d s) fun s =>
  andThen (point s) fun s =>
  andThen (point (writeTxcnt 0 (BitVec.ofNat 7 d.length) s)) fun s =>
  controlReturn .unit (setPhase (phaseAfterIn last) (storeEpCsr 0 t { t with naktx := false } s))

/-- One check of `CP_DATA_IN`: ready when `NAKTX = 1` and `STLTX = 0` (44_control_pipe.md R265). -/
def dataInCheck (left : Nat) (data : List Byte) (last : Bool) (s : State) : Res :=
  let t := s.hw.eps[(0 : Fin 8)].csr
  if t.naktx && !t.stltx then dataInPut data last t s
  else .next (setControlHeld (some (.dataIn left data last)) s)

/-- `CP_DATA_IN(data, first, last)` (44_control_pipe.md R265). -/
def execCpDataIn (data : List Byte) (_first last : Bool) (s : State) : Res :=
  whenControlFree s (dataInCheck s.cfg.ctrlMoreChecks data last s)

/-! ### Status stage -/

/-- A transfer without a data stage is in `StatusOnly` while it is accepted or rejected (44_control_pipe.md R260). -/
def statusPhase (s : State) : State :=
  if s.fw.phase = .setupReceived then setPhase .statusOnly s else s

/-- The steps of `CP_ACCEPT`: both stall bits cleared, and the zero-length status packet armed under
`ACCEPT_ARMS_STATUS`, the count before the handover (44_control_pipe.md R266). DESIGN CHOICE
(notes/assumptions/27.md): under `EPCSR_WRITE = plain`, for which the rule gives no register level, the accesses are
those of `toggle`: one read, the count, then one write back of the stall bits and `NAKTX` together. -/
def acceptSteps (s : State) : Res :=
  let t := s.hw.eps[(0 : Fin 8)].csr
  andThen (point s) fun s =>
  if s.cfg.acceptArmsStatus then
    andThen (point (writeTxcnt 0 0 s)) fun s =>
    controlReturn .unit (setPhase .idle
      (changeEpCsr 0 t { t with stltx := false, stlrx := false, naktx := false } s))
  else
    controlReturn .unit (setPhase .idle (changeEpCsr 0 t { t with stltx := false, stlrx := false } s))

/-- `CP_ACCEPT` (44_control_pipe.md R266). -/
def execCpAccept (s : State) : Res := whenControlFree s (acceptSteps (statusPhase s))

/-- `CP_REJECT`: both EP0 stall bits set (44_control_pipe.md R267). DESIGN CHOICE (notes/assumptions/27.md): in one
write under `EPCSR_WRITE = plain` too. -/
def execCpReject (s : State) : Res :=
  whenControlFree s <|
  let t := s.hw.eps[(0 : Fin 8)].csr
  andThen (point (statusPhase s)) fun s =>
  controlReturn .unit (setPhase .idle (changeEpCsr 0 t { t with stltx := true, stlrx := true } s))

/-- `CP_ACCEPT_SET_ADDRESS(addr)`: the address register, then the steps of `CP_ACCEPT` (44_control_pipe.md R268). -/
def execCpAcceptSetAddress (addr : BitVec 7) (s : State) : Res :=
  whenControlFree s (andThen (point (writeDevar addr (statusPhase s))) acceptSteps)

end Sys2Proof.Machine
end

