-- ==== Sys2Proof/Machine/Dispatcher.lean ====
section
/-! DEFINITION. The event dispatcher: the handler, the bus event loop and the bus operations
(43_dispatcher.md R220 to R230). -/

namespace Sys2Proof.Machine

/-! ### The handler -/

/-- `IRQ`: a run of the handler; only bus stimuli fall between its steps (43_dispatcher.md R220,
20_memory.md R79). -/
def execIrq (s : State) : Res := takeInterrupt (s.sched.map batchStims) { s with sched := [] }

/-! ### The bus event loop -/

/-- `PHASE <- Idle` and the latch cleared, at a bus reset (43_dispatcher.md R223). -/
def dropSession (s : State) : State :=
  { s with fw := { s.fw with cfgLatch := false, phase := .idle } }

/-- `CSR & 0x400`: only the pull-up enable survives (43_dispatcher.md R223). -/
def pullUpOnly (c : Csr) : Csr := ⟨false, false, false, c.dppuen⟩

/-- The reset slow-path (43_dispatcher.md R223), an interleaving point between its accesses. -/
def resetSlowPath (s : State) : Res :=
  andThen (point s) fun s =>
  let t := s.hw.csr
  andThen (point s) fun s =>
  andThen (point (writeCsr (pullUpOnly t) s)) fun s =>
  andThen (point (writeIer (ierFields s.cfg.layout.regs s.cfg.ierMask) s)) fun s =>
  .next (dropSession s)

/-- `POLL` returns an event. -/
def pollReturn (e : Event) (s : State) : Res := finish .bus (.event e) (setPollHeld false s)

/-- `tas` of the endpoint flags from index `k` on, `fuel` of them, and whether any was set
(43_dispatcher.md R222 priority 5). -/
def drainEndpoints : Nat → Nat → Bool → State → Host.Outcome (Bool × State) Fault Refusal
  | 0, _, any, s => .next (any, s)
  | fuel + 1, k, any, s =>
    andThen (point s) fun s =>
    drainEndpoints fuel (k + 1) (any || flagOf s (Fin.ofNat 8 k)) (tasFlag (Fin.ofNat 8 k) s)

/-- Priorities 5 and 6 of the drain; with nothing to report `POLL` waits again (43_dispatcher.md R222). -/
def pollTail (any : Bool) (s : State) : Res :=
  if any then pollReturn .noAction s
  else if !s.fw.powerAnnounced then
    pollReturn .powerAnnounced { s with fw := { s.fw with powerAnnounced := true } }
  else .next (setPollHeld true s)

/-- One pass of the drain after the wake was consumed, in the fixed priority order (43_dispatcher.md R222, R224). -/
def pollPass (s : State) : Res :=
  andThen (point s) fun s =>
  if flagOf s 0 then andThen (resetSlowPath (tasFlag 0 s)) (pollReturn .deviceVisible)
  else andThen (point (tasFlag 0 s)) fun s =>
  if flagOf s 2 then pollReturn .resume (tasFlag 2 s)
  else andThen (point (tasFlag 2 s)) fun s =>
  if flagOf s 1 then pollReturn .suspend (tasFlag 1 s)
  else andThen (point (tasFlag 1 s)) fun s =>
  andThen (drainEndpoints (min s.cfg.layout.nEpIrq 4) 4 false (tasFlag 3 s)) fun r => pollTail r.1 r.2

/-- `await WAKE = true; WAKE <- false`, then a pass; without a wake `POLL` is held (43_dispatcher.md R222). -/
def pollAwait (s : State) : Res :=
  if s.fw.wake then pollPass (consumeWake s) else .next (setPollHeld true s)

/-- `POLL` (43_dispatcher.md R222); at most one is in progress. DESIGN CHOICE (notes/assumptions/32.md): before `START`,
which hands out the bus handle, it runs as written. -/
def execPoll (s : State) : Res := if s.tasks.pollHeld then .refused .taskBusy else pollAwait s

/-! ### Bus operations without suspension -/

/-- The stall bit of a direction set to `b`. -/
def EpCsr.withStall (c : EpCsr) (d : Dir) (b : Bool) : EpCsr :=
  match d with
  | .inp => { c with stltx := b }
  | .out => { c with stlrx := b }

/-- The stall bit of a direction. -/
def EpCsr.stall (c : EpCsr) (d : Dir) : Bool :=
  match d with
  | .inp => c.stltx
  | .out => c.stlrx

/-- `EP_SET_STALLED(address, stalled)`: a read and a write of the one bit if it differs (43_dispatcher.md R225,
40_register_access.md R141). DESIGN CHOICE (notes/assumptions/32.md, 34.md): it runs before `START`, and while `POLL` is
held. -/
def execEpSetStalled (address : EpAddr) (stalled : Bool) (s : State) : Res :=
  withEndpoint s address fun n =>
  let t := s.hw.eps[n].csr
  andThen (point s) fun s =>
  finish .bus .unit (changeEpCsr n t (t.withStall address.dir stalled) s)

/-- `EP_IS_STALLED(address)` (43_dispatcher.md R226). -/
def execEpIsStalled (address : EpAddr) (s : State) : Res :=
  withEndpoint s address fun n => finish .bus (.flag (s.hw.eps[n].csr.stall address.dir)) s

/-- Enabling a configuration that was never written (all zero) or that the spec gives no meaning
(43_dispatcher.md R227, 40_register_access.md R139). -/
def enableRefused (n : Fin 8) (c : EpCfgr) (s : State) : Bool :=
  decide ({ c with epen := false } = EpCfgr.reset) || badConfig n { c with epen := true } s

/-- `EP_SET_ENABLED(address, enabled)`: read-modify-write of `EPnCFGR` (43_dispatcher.md R227). DESIGN CHOICE
(notes/assumptions/32.md, 34.md): it runs before `START`, and while `POLL` is held. -/
def execEpSetEnabled (address : EpAddr) (enabled : Bool) (s : State) : Res :=
  withEndpoint s address fun n =>
  let t := s.hw.eps[n].cfgr
  if enabled && enableRefused n t s then .refused .badEndpointConfig
  else andThen (point s) fun s => finish .bus .unit (writeCfgr n { t with epen := enabled } s)

/-- The bus has been started: no allocation after this (70_reset_and_hazards.md R361). -/
def markEnabled (s : State) : State := { s with fw := { s.fw with busEnabled := true } }

/-- `ENABLE`: pull-up, the SRAM/DATA-toggle reset pulse, the interrupt mask (43_dispatcher.md R228). DESIGN CHOICE
(notes/assumptions/32.md, 34.md): it runs before `START`, which hands out the bus handle, and while `POLL` is held.
DEDUCED (notes/assumptions/37.md): a token between the first two writes, where `ATTACHED` of 41_bus_side.md R160
holds, is answered. -/
def execEnable (s : State) : Res :=
  let t := s.hw.csr
  andThen (point s) fun s =>
  andThen (point (writeCsr { t with dppuen := true } s)) fun s =>
  andThen (point (writeCsr { t with dppuen := true, sramrstc := true } s)) fun s =>
  andThen (point (writeCsr { t with dppuen := true, sramrstc := false } s)) fun s =>
  finish .bus .unit (markEnabled (writeIer (ierFields s.cfg.layout.regs s.cfg.ierMask) s))

/-- `DISABLE`: the pull-up off and all interrupts masked (43_dispatcher.md R229). DESIGN CHOICE
(notes/assumptions/32.md, 34.md): it runs before `START`, and while `POLL` is held. -/
def execDisable (s : State) : Res :=
  let t := s.hw.csr
  andThen (point s) fun s =>
  andThen (point (writeCsr { t with dppuen := false } s)) fun s =>
  finish .bus .unit (writeIer Ier.zero s)

/-- `REMOTE_WAKEUP` always fails (43_dispatcher.md R230). -/
def execRemoteWakeup (s : State) : Res := raiseError .bus .unsupported s

end Sys2Proof.Machine
end

