-- ==== Sys2Proof/Machine/Resume.lean ====
section
/-! DEFINITION. A held operation goes on (00_scope.md R10, 20_memory.md R79(a)): which task moves is the schedule's
choice, so every choice of waiter is admitted (43_dispatcher.md R221). -/

namespace Sys2Proof.Machine

/-- The bus task: `POLL` at its await (43_dispatcher.md R222). -/
def resumeBus (s : State) : Res :=
  if s.tasks.pollHeld && s.fw.wake then pollPass (consumeWake s) else .next s

/-- `CP_DATA_IN` out of checks: nothing is written and the call returns (44_control_pipe.md R265). -/
def dataInTimeout (last : Bool) (s : State) : Res := controlReturn .unit (setPhase (phaseAfterIn last) s)

/-- The control task after a `yield`: another check, or the soft timeout when none is left
(44_control_pipe.md R269, 60_exceptions.md R314). -/
def resumeControl (s : State) : Res :=
  match s.tasks.control with
  | none => .next s
  | some (.setup 0) => controlReturn (.bytes (zeroPacket s.cfg.layout)) s
  | some (.setup (k + 1)) => setupCheck k s
  | some (.dataOut 0 _) => controlReturn (.bytes []) s
  | some (.dataOut (k + 1) len) => dataOutCheck k len s
  | some (.dataIn 0 _ last) => dataInTimeout last s
  | some (.dataIn (k + 1) data last) => dataInCheck k data last s

/-- The task of endpoint `n`: `EP_WAIT_ENABLED` re-reads the latch, woken or not (notes/assumptions/26.md); `EP_WRITE`
waits for a wake (45_endpoint_io.md R290, R292; 70_reset_and_hazards.md R357). -/
def resumeEndpoint (n : Fin 8) (s : State) : Res :=
  match s.tasks.eps[n] with
  | .idle => .next s
  | .waitEnabled => .next (waitAwait n s)
  | .released => .next (waitAwait n s)
  | .writing => writeAwait n s

/-- A held task goes on; a task that is not held, or whose condition does not hold, has no step and nothing
changes (00_scope.md R10 "stuck"). -/
def resumeTask (t : Task) (s : State) : Res :=
  match t with
  | .stack => .next s
  | .bus => resumeBus s
  | .control => resumeControl s
  | .endpoint n => resumeEndpoint n s

end Sys2Proof.Machine
end

