-- ==== Sys2Proof/Machine/Dispatch.lean ====
section
/-! DEFINITION. One arm per operation: its meaning (30_encoding.md R108). -/

namespace Sys2Proof.Machine

def exec (i : Instr) (s : State) : Host.Outcome State Fault Refusal :=
  match i with
  | .bReset => Sys2Proof.Machine.execBReset s
  | .bSuspend => Sys2Proof.Machine.execBSuspend s
  | .bResume => Sys2Proof.Machine.execBResume s
  | .bSof => Sys2Proof.Machine.execBSof s
  | .bSetup addr ep data => Sys2Proof.Machine.execBSetup addr ep data s
  | .bOut addr ep pid data => Sys2Proof.Machine.execBOut addr ep pid data s
  | .bIn addr ep ack => Sys2Proof.Machine.execBIn addr ep ack s
  | .newDriver v e => Sys2Proof.Machine.execNew v e s
  | .allocIn t o mps iv => Sys2Proof.Machine.execAllocIn t o mps iv s
  | .allocOut t o mps iv => Sys2Proof.Machine.execAllocOut t o mps iv s
  | .start cmps => Sys2Proof.Machine.execStart cmps s
  | .bufmap n d => Sys2Proof.Machine.execBufmap n d s
  | .irq => Sys2Proof.Machine.execIrq s
  | .poll => Sys2Proof.Machine.execPoll s
  | .epSetStalled a b => Sys2Proof.Machine.execEpSetStalled a b s
  | .epIsStalled a => Sys2Proof.Machine.execEpIsStalled a s
  | .epSetEnabled a b => Sys2Proof.Machine.execEpSetEnabled a b s
  | .enable => Sys2Proof.Machine.execEnable s
  | .disable => Sys2Proof.Machine.execDisable s
  | .remoteWakeup => Sys2Proof.Machine.execRemoteWakeup s
  | .cpMaxPacketSize => Sys2Proof.Machine.execCpMaxPacketSize s
  | .cpSetup => Sys2Proof.Machine.execCpSetup s
  | .cpDataOut len first last => Sys2Proof.Machine.execCpDataOut len first last s
  | .cpDataIn data first last => Sys2Proof.Machine.execCpDataIn data first last s
  | .cpAccept => Sys2Proof.Machine.execCpAccept s
  | .cpReject => Sys2Proof.Machine.execCpReject s
  | .cpAcceptSetAddress addr => Sys2Proof.Machine.execCpAcceptSetAddress addr s
  | .epInfo a => Sys2Proof.Machine.execEpInfo a s
  | .epWaitEnabled a => Sys2Proof.Machine.execEpWaitEnabled a s
  | .epRead a len => Sys2Proof.Machine.execEpRead a len s
  | .epWrite a data => Sys2Proof.Machine.execEpWrite a data s
  | .rd32Csr => Sys2Proof.Machine.execRd32Csr s
  | .wr32Csr v => Sys2Proof.Machine.execWr32Csr v s
  | .rd32Ier => Sys2Proof.Machine.execRd32Ier s
  | .wr32Ier v => Sys2Proof.Machine.execWr32Ier v s
  | .rd32Isr => Sys2Proof.Machine.execRd32Isr s
  | .wr32Isr v => Sys2Proof.Machine.execWr32Isr v s
  | .rd32Devar => Sys2Proof.Machine.execRd32Devar s
  | .wr32Devar v => Sys2Proof.Machine.execWr32Devar v s
  | .rd32Ep0csr => Sys2Proof.Machine.execRd32Ep0csr s
  | .wr32Ep0csr v => Sys2Proof.Machine.execWr32Ep0csr v s
  | .rd32Ep0tcr => Sys2Proof.Machine.execRd32Ep0tcr s
  | .wr32Ep0tcr v => Sys2Proof.Machine.execWr32Ep0tcr v s
  | .rd32Ep0cfgr => Sys2Proof.Machine.execRd32Ep0cfgr s
  | .wr32Ep0cfgr v => Sys2Proof.Machine.execWr32Ep0cfgr v s
  | .rd32Ep1csr => Sys2Proof.Machine.execRd32Ep1csr s
  | .wr32Ep1csr v => Sys2Proof.Machine.execWr32Ep1csr v s
  | .rd32Ep1tcr => Sys2Proof.Machine.execRd32Ep1tcr s
  | .wr32Ep1tcr v => Sys2Proof.Machine.execWr32Ep1tcr v s
  | .rd32Ep1cfgr => Sys2Proof.Machine.execRd32Ep1cfgr s
  | .wr32Ep1cfgr v => Sys2Proof.Machine.execWr32Ep1cfgr v s
  | .rd32Ep2csr => Sys2Proof.Machine.execRd32Ep2csr s
  | .wr32Ep2csr v => Sys2Proof.Machine.execWr32Ep2csr v s
  | .rd32Ep2tcr => Sys2Proof.Machine.execRd32Ep2tcr s
  | .wr32Ep2tcr v => Sys2Proof.Machine.execWr32Ep2tcr v s
  | .rd32Ep2cfgr => Sys2Proof.Machine.execRd32Ep2cfgr s
  | .wr32Ep2cfgr v => Sys2Proof.Machine.execWr32Ep2cfgr v s
  | .rd32Ep3csr => Sys2Proof.Machine.execRd32Ep3csr s
  | .wr32Ep3csr v => Sys2Proof.Machine.execWr32Ep3csr v s
  | .rd32Ep3tcr => Sys2Proof.Machine.execRd32Ep3tcr s
  | .wr32Ep3tcr v => Sys2Proof.Machine.execWr32Ep3tcr v s
  | .rd32Ep3cfgr => Sys2Proof.Machine.execRd32Ep3cfgr s
  | .wr32Ep3cfgr v => Sys2Proof.Machine.execWr32Ep3cfgr v s
  | .rd32Ep4csr => Sys2Proof.Machine.execRd32Ep4csr s
  | .wr32Ep4csr v => Sys2Proof.Machine.execWr32Ep4csr v s
  | .rd32Ep4tcr => Sys2Proof.Machine.execRd32Ep4tcr s
  | .wr32Ep4tcr v => Sys2Proof.Machine.execWr32Ep4tcr v s
  | .rd32Ep4cfgr => Sys2Proof.Machine.execRd32Ep4cfgr s
  | .wr32Ep4cfgr v => Sys2Proof.Machine.execWr32Ep4cfgr v s
  | .rd32Ep5csr => Sys2Proof.Machine.execRd32Ep5csr s
  | .wr32Ep5csr v => Sys2Proof.Machine.execWr32Ep5csr v s
  | .rd32Ep5tcr => Sys2Proof.Machine.execRd32Ep5tcr s
  | .wr32Ep5tcr v => Sys2Proof.Machine.execWr32Ep5tcr v s
  | .rd32Ep5cfgr => Sys2Proof.Machine.execRd32Ep5cfgr s
  | .wr32Ep5cfgr v => Sys2Proof.Machine.execWr32Ep5cfgr v s
  | .rd32Ep6csr => Sys2Proof.Machine.execRd32Ep6csr s
  | .wr32Ep6csr v => Sys2Proof.Machine.execWr32Ep6csr v s
  | .rd32Ep6tcr => Sys2Proof.Machine.execRd32Ep6tcr s
  | .wr32Ep6tcr v => Sys2Proof.Machine.execWr32Ep6tcr v s
  | .rd32Ep6cfgr => Sys2Proof.Machine.execRd32Ep6cfgr s
  | .wr32Ep6cfgr v => Sys2Proof.Machine.execWr32Ep6cfgr v s
  | .rd32Ep7csr => Sys2Proof.Machine.execRd32Ep7csr s
  | .wr32Ep7csr v => Sys2Proof.Machine.execWr32Ep7csr v s
  | .rd32Ep7tcr => Sys2Proof.Machine.execRd32Ep7tcr s
  | .wr32Ep7tcr v => Sys2Proof.Machine.execWr32Ep7tcr v s
  | .rd32Ep7cfgr => Sys2Proof.Machine.execRd32Ep7cfgr s
  | .wr32Ep7cfgr v => Sys2Proof.Machine.execWr32Ep7cfgr v s
  | .rd32Sram off => Sys2Proof.Machine.execRd32Sram off s
  | .wr32Sram off v => Sys2Proof.Machine.execWr32Sram off v s

end Sys2Proof.Machine
end

