-- ==== Sys2Proof/Machine/Fetch.lean ====
section
/-! DEFINITION. How the next agent's step is taken from the schedule (20_memory.md R79; notes/assumptions/4.md, 5.md). -/

namespace Sys2Proof.Machine

/-- The head of the schedule is taken, and what falls into the operation's interleaving points is set. -/
def takeEntry (rest : List Entry) (during : List (List Preempt)) (s : State) : State :=
  { s with inbox := rest, sched := during }

/-- The operation has run: interleaving points it did not reach are dropped. -/
def settle (r : Res) : Res := andThen r fun s => .next { s with sched := [] }

/-- An operation presented at a port: it runs if it decodes; an access to a hole of the register window reads
a free value or does nothing (10_state.md R28); anything else is refused (30_encoding.md R111(c)). -/
def issue (p : Port) (bytes : List Byte) (s : State) : Res :=
  match decodeWith s.cfg.layout p bytes with
  | .ok i => exec i s
  | .error (.holeRead _) => holeRead s
  | .error (.holeWrite _) => holeWrite s
  | .error e => .refused (.undecodable e)

/-- One entry of the schedule. -/
def runEntry (e : Entry) (rest : List Entry) (s : State) : Res :=
  match e with
  | .issue p bytes during => settle (issue p bytes (takeEntry rest during s))
  | .resume t during => settle (resumeTask t (takeEntry rest during s))

end Sys2Proof.Machine
end

