-- ==== Sys2Proof/Machine/Step.lean ====
section
/-! DEFINITION. One step: the next entry of the schedule. With none, no agent has a step and nothing changes. -/

namespace Sys2Proof.Machine

/-- One step of the machine. -/
def step (s : State) : Host.Outcome State Fault Refusal :=
  match s.inbox with
  | [] => .next s
  | e :: rest => runEntry e rest s

/-- The state with one operation, in the table's numbering, as the next entry of the schedule. -/
def State.withFetchWord (s : State) (nbits w : Nat) : State :=
  { s with inbox := .issue (tablePort nbits) (tableBytes nbits w) [] :: s.inbox }

end Sys2Proof.Machine
end

