-- ==== Sys2Proof/Safety.lean ====
section
/-! DEFINITION. The terms that claims use: quiet states, stored bytes, sound states. -/

namespace Sys2Proof.Machine

/-- Nothing falls into the interleaving points of the operation that runs next. -/
def Quiet (s : State) : Prop := s.sched = []

/-- The bytes stored in `[a, a + n)`. -/
def storedBytes (s : State) (a n : Nat) : List Byte := (List.range n).map fun i => byteAt s (a + i)

/-- No byte of `[a, a + n)` lies in an RX buffer the SIE owns, so firmware reads the stored bytes (20_memory.md R75,
R78). -/
def Unraced (s : State) (a n : Nat) : Prop := ∀ i < n, receiving s (a + i) = false

/-- What is left at `a` of the older bytes that a racing access to `s` may see, once `t` is reached: none where the SIE
gave the byte back, all of them elsewhere (20_memory.md R75(a), R78). -/
def racedAfter (s t : State) (a : Nat) : List Byte := if sieOwns s a && !sieOwns t a then [] else racedAt s a

/-- Races end where the SIE gives a byte back, and nowhere else (20_memory.md R75(a), R78). -/
def RacesEnd (s t : State) : Prop := ∀ a, racedAt t a = racedAfter s t a

/-- Every byte of EP_SRAM outside `[a, a + n)` reads in `t` as it does in `s`, but for the races that end because the
SIE gave the byte back. -/
def SameOutside (s t : State) (a n : Nat) : Prop :=
  ∀ k, k < a ∨ a + n ≤ k → byteAt t k = byteAt s k ∧ racedAt t k = racedAfter s t k

/-- A state in which only the stored bytes may differ. -/
def SameButBytes (s t : State) : Prop :=
  t = { s with hw := { s.hw with sram := t.hw.sram, raced := t.hw.raced } }

/-- `EPBUFA + EPLEN` stays inside EP_SRAM and both are multiples of 4 (42_allocator.md R208(c)). -/
def bufferFits (c : EpCfgr) : Prop :=
  c.epbufa.toNat + c.eplen.toNat ≤ 1024 ∧ c.epbufa.toNat % 4 = 0 ∧ c.eplen.toNat % 4 = 0

/-- The record of an allocated endpoint `n` (42_allocator.md R202, R208). -/
def infoFits (n : Fin 8) (i : EpInfo) : Prop :=
  i.address.num = epNumber n ∧ i.maxPacketSize ≤ 64 ∧ i.type ≠ .isochronous ∧ (i.type = .control ↔ n = 0)

/-- Only what the SIE owns races: a byte it does not own has no older value, and a count no older one while firmware
owns the TX buffer (20_memory.md R75(a), R78). -/
structure RacesOwned (s : State) : Prop where
  bytes : ∀ a, sieOwns s a = false → racedAt s a = []
  counts : ∀ n : Fin 8, s.hw.eps[n].csr.naktx = true → s.hw.eps[n].txcntOld = []

/-- What every step keeps, beside `Quiet`. -/
structure Sound (s : State) : Prop where
  /-- The numbers of 00_scope.md R5 are the standard ones. -/
  layout : s.cfg.layout = Config.Layout.std
  /-- EP_SRAM is listed in its canonical form. -/
  memory : Memory.wf s.cfg.layout.sramSize s.hw.sram = true
  /-- What races is the SIE's. -/
  races : RacesOwned s
  /-- `HSNAP` lives only inside the handler (10_state.md R43). -/
  snapshot : s.fw.hsnap = none
  /-- `CTRL_MPS` is a number 0 to 64 (10_state.md R39). -/
  controlSize : s.fw.ctrlMps ≤ 64
  /-- A record exists exactly for the allocated endpoints (42_allocator.md R202). -/
  recorded : ∀ n : Fin 8, (s.fw.epinfo[n]).isSome = allocated s n
  /-- Every record fits its endpoint. -/
  info : ∀ (n : Fin 8) (i : EpInfo), s.fw.epinfo[n] = some i → infoFits n i
  /-- At most one direction of a number above 0 is allocated, and it is its record's (42_allocator.md R208(d)). -/
  direction : ∀ (n : Fin 8) (i : EpInfo), n ≠ 0 → s.fw.epinfo[n] = some i →
    ∀ d, s.fw.alloc.getLsbD (allocIndex n d) = decide (d = i.address.dir)
  /-- Every buffer lies inside EP_SRAM, word-aligned. -/
  buffers : ∀ n : Fin 8, bufferFits s.hw.eps[n].cfgr
  /-- An allocated or enabled endpoint answers to its own number (42_allocator.md R208(c)). -/
  numbered : ∀ n : Fin 8, allocated s n = true ∨ s.hw.eps[n].cfgr.epen = true → s.hw.eps[n].cfgr.epadr = epNumber n
  /-- The buffers of enabled endpoints do not meet the EP0 regions (10_state.md R31), endpoint 0's but for the TX buffer. -/
  apartFromEp0 : ∀ n : Fin 8, s.hw.eps[n].cfgr.epen = true → meetsEp0 s.cfg.layout n s.hw.eps[n].cfgr = false
  /-- The buffers of two enabled endpoints do not meet (10_state.md R31). -/
  apart : ∀ n m : Fin 8, n ≠ 0 → m ≠ 0 → n ≠ m → s.hw.eps[n].cfgr.epen = true → s.hw.eps[m].cfgr.epen = true →
    overlaps s.hw.eps[n].cfgr.epbufa.toNat s.hw.eps[n].cfgr.eplen.toNat
      s.hw.eps[m].cfgr.epbufa.toNat s.hw.eps[m].cfgr.eplen.toNat = false

/-! ### The register images at the positions of 10_state.md R21 to R27 -/

/-- `CSR` at the positions of 10_state.md R21. -/
def csrWord (c : Csr) : Word := csrImage Config.RegMap.std c
/-- The fields of a word written to `CSR` (10_state.md R21). -/
def csrOfWord (v : Word) : Csr := csrFields Config.RegMap.std v
/-- `IER` at the positions of 10_state.md R22. -/
def ierWord (i : Ier) : Word := ierImage Config.RegMap.std i
/-- The fields of a word written to `IER` (10_state.md R22). -/
def ierOfWord (v : Word) : Ier := ierFields Config.RegMap.std v
/-- `ISR` at the positions of 10_state.md R23. -/
def isrWord (i : Isr) : Word := isrImage Config.RegMap.std i
/-- The source bits of a word (10_state.md R23). -/
def isrOfWord (v : Word) : Isr := isrFields Config.RegMap.std v
/-- `DEVAR` at the position of 10_state.md R24. -/
def devarWord (a : BitVec 7) : Word := devarImage Config.RegMap.std a
/-- The address in a word written to `DEVAR` (10_state.md R24). -/
def devarOfWord (v : Word) : BitVec 7 := devarField Config.RegMap.std v
/-- `EPnCSR` at the positions of 10_state.md R25. -/
def epCsrWord (c : EpCsr) : Word := epCsrImage Config.RegMap.std c
/-- The four bits of a word written to `EPnCSR` (10_state.md R25). -/
def epCsrOfWord (v : Word) : EpCsr := epCsrFields Config.RegMap.std v
/-- `EPnTCR` at the positions of 10_state.md R26. -/
def epTcrWord (txcnt rxcnt : BitVec 7) : Word := epTcrImage Config.RegMap.std txcnt rxcnt
/-- The `TXCNT` of a word written to `EPnTCR` (10_state.md R26). -/
def txcntOfWord (v : Word) : BitVec 7 := txcntField Config.RegMap.std v
/-- `EPnCFGR` at the positions of 10_state.md R27. -/
def epCfgrWord (c : EpCfgr) : Word := epCfgrImage Config.RegMap.std c
/-- The fields of a word written to `EPnCFGR` (10_state.md R27). -/
def epCfgrOfWord (v : Word) : EpCfgr := epCfgrFields Config.RegMap.std v

/-! ### Terms of single statements -/

/-- The 14 bits of a register access (30_encoding.md R100) in their two bytes. -/
def accessRecord (rw space : Bool) (off : BitVec 12) : List Byte :=
  halfBytes (0#2 ++ BitVec.ofBool rw ++ BitVec.ofBool space ++ off)

/-- `t` is `s` but for the registers and the memory of the SIE. -/
def SameButHardware (s t : State) : Prop := t = { s with hw := t.hw }

/-- The buffer state of an endpoint after the SRAM/DATA-toggle reset (40_register_access.md R132). -/
def afterToggleReset (e : Endpoint) : Endpoint :=
  { e with
    csr := { e.csr with naktx := true, nakrx := false }
    txcnt := 0, txcntOld := [], rxcnt := 0, dtgTx := false, dtgRx := false }

/-- The bytes after the SRAM/DATA-toggle reset, under `SRAMRST_CONTENT` (40_register_access.md R132); that under
`preserve` a race ends with the ownership only is the model's choice (notes/assumptions/8.md). -/
def ContentReset (s t : State) : Prop :=
  match s.cfg.sramRstContent with
  | .any => t.hw.epoch = s.hw.epoch + 1 ∧
      ∀ a, byteAt t a = Config.freeSram (s.hw.epoch + 1) a ∧ racedAt t a = []
  | .preserve => t.hw.epoch = s.hw.epoch ∧ (∀ a, byteAt t a = byteAt s a) ∧ RacesEnd s t
  | .zero => t.hw.epoch = s.hw.epoch ∧ ∀ a, a < 1024 → byteAt t a = 0#8 ∧ racedAt t a = []

/-- The SRAM/DATA-toggle reset: buffer state of every endpoint and the bytes, nothing else of the SIE but `CSR`
(40_register_access.md R132). -/
structure ToggleReset (s t : State) : Prop where
  endpoints : ∀ n : Fin 8, t.hw.eps[n] = afterToggleReset s.hw.eps[n]
  content : ContentReset s t
  rest : t.hw = { s.hw with csr := t.hw.csr, eps := t.hw.eps, sram := t.hw.sram, epoch := t.hw.epoch, raced := t.hw.raced }

/-- `t` is `s` with the bytes `d` stored by firmware at `a`: in a buffer the SIE owns the old byte may still be
seen (20_memory.md R78, R81). -/
structure StoredByFirmware (a : Nat) (d : List Byte) (s t : State) : Prop where
  stored : storedBytes t a d.length = d
  outside : SameOutside s t a d.length
  raced : ∀ k, a ≤ k → k < a + d.length →
    racedAt t k = if sieOwns s k then byteAt s k :: racedAt s k else []
  rest : SameButBytes s t

/-- The control task goes on `k` times, nothing falling in between. -/
def resumeControlTimes : Nat → State → Res
  | 0, s => .next s
  | k + 1, s => andThen (resumeTask .control s) (resumeControlTimes k)

/-- Two byte ranges have no byte in common. -/
def Apart (a la b lb : Nat) : Prop := la = 0 ∨ lb = 0 ∨ a + la ≤ b ∨ b + lb ≤ a

/-- A configuration of endpoint `n` to which the spec gives a meaning: it answers to its own number, its buffer
is word-aligned, inside EP_SRAM, apart from the EP0 regions (endpoint 0's but for the TX buffer) and from the buffers of
the other enabled endpoints 1 to 7 (40_register_access.md R139). -/
structure ConfigLegal (s : State) (n : Fin 8) (c : EpCfgr) : Prop where
  number : c.epadr = epNumber n
  fits : bufferFits c
  ep0Setup : Apart c.epbufa.toNat c.eplen.toNat s.cfg.layout.ep0SetupOff s.cfg.layout.ep0SetupLen
  ep0Tx : n ≠ 0 → Apart c.epbufa.toNat c.eplen.toNat s.cfg.layout.ep0TxOff s.cfg.layout.ep0TxLen
  ep0Rx : Apart c.epbufa.toNat c.eplen.toNat s.cfg.layout.ep0RxOff s.cfg.layout.ep0RxLen
  others : ∀ m : Fin 8, m ≠ n → m ≠ 0 → s.hw.eps[m].cfgr.epen = true →
    Apart c.epbufa.toNat c.eplen.toNat s.hw.eps[m].cfgr.epbufa.toNat s.hw.eps[m].cfgr.eplen.toNat

/-- A configuration enables nothing that was never allocated: its `EPEN` is 0, or endpoint `n` is enabled already, or
either bit of its number is allocated (10_state.md R35). -/
def EnablesAllocated (s : State) (n : Fin 8) (c : EpCfgr) : Prop :=
  c.epen = false ∨ s.hw.eps[n].cfgr.epen = true ∨
    s.fw.alloc.getLsbD (2 * n.val) = true ∨ s.fw.alloc.getLsbD (2 * n.val + 1) = true

/-- The SIE owns a buffer of endpoint `n`: either of endpoint 0's, the one of its direction otherwise (20_memory.md
R78). -/
def BufferInUse (s : State) (n : Fin 8) : Prop :=
  if n = 0 then s.hw.eps[n].csr.naktx = false ∨ s.hw.eps[n].csr.nakrx = false
  else
    match s.hw.eps[n].cfgr.epdir with
    | .inp => s.hw.eps[n].csr.naktx = false
    | .out => s.hw.eps[n].csr.nakrx = false

/-- The operation that a bus stimulus is. -/
def Stim.instr : Stim → Instr
  | .reset => .bReset
  | .suspend => .bSuspend
  | .resume => .bResume
  | .sof => .bSof
  | .setup addr ep data => .bSetup addr ep data
  | .out addr ep pid data => .bOut addr ep pid data
  | .inp addr ep ack => .bIn addr ep ack

/-- An allocation in a given direction. -/
def allocInstr (d : Dir) (t : EpType) (opt : Option EpAddr) (mps : Nat) (iv : Byte) : Instr :=
  match d with
  | .inp => .allocIn t opt mps iv
  | .out => .allocOut t opt mps iv

/-- The status bit of endpoint `n` in `ISR`; endpoints 4 to 7 have none (60_exceptions.md R316). -/
def endpointBit (n : Fin 8) : Word := if n.val ≤ 3 then 1#32 <<< (8 + n.val) else 0#32

end Sys2Proof.Machine
end

