-- ==== Sys2Proof/Certificates/Slice0/Obligations.lean ====
section
/-! DEFINITION. The statements for the provers. Each holds in every state that meets its hypotheses, reached by a
run or not; `Quiet` says that nothing of another agent falls between the operation's own steps, and
`s.cfg.layout = Config.Layout.std` that the literals of 00_scope.md R5 have the values it gives. -/

section

open Sys2Proof Sys2Proof.Machine

/-! ## Encoding -/

/-- Decoding what the encoder writes gives the operation back, whatever follows (R100, R102, R103, R106, R107,
R108; the operand bytes of format O are the model's choice, log 10). -/
def Obligations.DecodeEncodeRoundTrip : Prop :=
  ∀ (i : Instr) (r : List Byte), i.wf = true → decode (encode i).1 ((encode i).2 ++ r) = .ok i

/-- Words written out from the spec's ids, field positions, address byte and codes (R100, R102, R107, R108) decode to
the operations they stand for. How fields and operands are laid out in bytes (the presence byte, the 16-bit numbers
and lengths, the two ports) is the model's choice (log 10, DESIGN CHOICE). -/
def Obligations.DecodesWrittenWords : Prop :=
  decode .op [0x01#8] = .ok .bReset ∧
  decode .op [0x06#8, 0x05#8, 0x59#8, 0x03#8, 0x00#8, 9#8, 8#8, 7#8] = .ok (.bOut 5 2 0xB [9#8, 8#8, 7#8]) ∧
  decode .op [0x07#8, 0x83#8, 0x80#8] = .ok (.bIn 3 1 true) ∧
  decode .op [0x22#8, 2#8, 1#8, 0x02#8, 64#8, 0#8, 0#8] = .ok (.allocOut .bulk (some ⟨2, .out⟩) 64 0) ∧
  decode .op [0x41#8, 0x83#8, 1#8] = .ok (.epSetStalled ⟨3, .inp⟩ true) ∧
  decode .op [0x62#8, 0x02#8, 64#8, 0#8] = .ok (.epRead ⟨2, .out⟩ 64) ∧
  decode .access [0x50#8, 0x20#8, 4#8, 0#8, 0#8, 0#8] = .ok (.wr32Ep3csr 4) ∧
  decode .access [0x08#8, 0x00#8] = .ok .rd32Isr ∧
  decode .access [0xFC#8, 0x13#8] = .ok (.rd32Sram 0x3FC) ∧
  decodeTableWord 8 0x40 = some .poll ∧
  decodeTableWord 14 0x2060 = some (.wr32Ep3cfgr 0)

/-- Register-access decode at every offset, for both directions of access (R107, R143): the four global registers, the
three of each bank, the holes (which decode to no register, log 15), the offsets that are no multiple of 4, the words
of EP_SRAM, and the offsets outside either window; ids 0x10 and 0x11 present the same accesses, the id giving the
direction (R108), and an id that R108 does not list is refused (R111). The two-byte record, low byte first, the port it
comes by, that it follows an id with its direction bit 0, and the four bytes of write data are the model's layout
(log 10, DESIGN CHOICE). -/
def Obligations.RegisterAccessDecode : Prop :=
  ∀ (v : Word) (r : List Byte),
    (decode .access (accessRecord false false 0x000 ++ r) = .ok .rd32Csr ∧
      decode .access (accessRecord false false 0x004 ++ r) = .ok .rd32Ier ∧
      decode .access (accessRecord false false 0x008 ++ r) = .ok .rd32Isr ∧
      decode .access (accessRecord false false 0x010 ++ r) = .ok .rd32Devar ∧
      decode .access (accessRecord true false 0x000 ++ (wordBytesLe v ++ r)) = .ok (.wr32Csr v) ∧
      decode .access (accessRecord true false 0x004 ++ (wordBytesLe v ++ r)) = .ok (.wr32Ier v) ∧
      decode .access (accessRecord true false 0x008 ++ (wordBytesLe v ++ r)) = .ok (.wr32Isr v) ∧
      decode .access (accessRecord true false 0x010 ++ (wordBytesLe v ++ r)) = .ok (.wr32Devar v)) ∧
    (∀ n : Fin 8,
      decode .access (accessRecord false false (BitVec.ofNat 12 (0x014 + 0x14 * n.val)) ++ r) =
        .ok (readCsrInstr n) ∧
      decode .access (accessRecord false false (BitVec.ofNat 12 (0x014 + 0x14 * n.val + 0x0C)) ++ r) =
        .ok (readTcrInstr n) ∧
      decode .access (accessRecord false false (BitVec.ofNat 12 (0x014 + 0x14 * n.val + 0x10)) ++ r) =
        .ok (readCfgrInstr n) ∧
      decode .access (accessRecord true false (BitVec.ofNat 12 (0x014 + 0x14 * n.val)) ++
        (wordBytesLe v ++ r)) = .ok (writeCsrInstr n v) ∧
      decode .access (accessRecord true false (BitVec.ofNat 12 (0x014 + 0x14 * n.val + 0x0C)) ++
        (wordBytesLe v ++ r)) = .ok (writeTcrInstr n v) ∧
      decode .access (accessRecord true false (BitVec.ofNat 12 (0x014 + 0x14 * n.val + 0x10)) ++
        (wordBytesLe v ++ r)) = .ok (writeCfgrInstr n v)) ∧
    (∀ n : Fin 8, ∀ k : Nat, k = 0x04 ∨ k = 0x08 →
      decode .access (accessRecord false false (BitVec.ofNat 12 (0x014 + 0x14 * n.val + k)) ++ r) =
        .error (.holeRead (0x014 + 0x14 * n.val + k)) ∧
      decode .access (accessRecord true false (BitVec.ofNat 12 (0x014 + 0x14 * n.val + k)) ++
        (wordBytesLe v ++ r)) = .error (.holeWrite (0x014 + 0x14 * n.val + k))) ∧
    (decode .access (accessRecord false false 0x00C ++ r) = .error (.holeRead 0x00C) ∧
      decode .access (accessRecord true false 0x00C ++ (wordBytesLe v ++ r)) = .error (.holeWrite 0x00C)) ∧
    (∀ (rw space : Bool) (off : BitVec 12), off.toNat % 4 ≠ 0 →
      decode .access (accessRecord rw space off ++ r) = .error (.misaligned off.toNat)) ∧
    (∀ off : BitVec 12, off.toNat % 4 = 0 → off.toNat ≤ 0x3FC →
      decode .access (accessRecord false true off ++ r) = .ok (.rd32Sram off) ∧
      decode .access (accessRecord true true off ++ (wordBytesLe v ++ r)) = .ok (.wr32Sram off v)) ∧
    (∀ (rw : Bool) (off : BitVec 12), off.toNat % 4 = 0 →
      (0x0B4 ≤ off.toNat → decode .access (accessRecord rw false off ++ r) = .error (.outsideWindow off.toNat)) ∧
      (0x400 ≤ off.toNat → decode .access (accessRecord rw true off ++ r) = .error (.outsideWindow off.toNat))) ∧
    (∀ (space : Bool) (off : BitVec 12),
      decode .op (0x10#8 :: (accessRecord false space off ++ r)) = decode .access (accessRecord false space off ++ r) ∧
      decode .op (0x11#8 :: (accessRecord false space off ++ r)) = decode .access (accessRecord true space off ++ r)) ∧
    (∀ id : Byte, id.toNat = 0 ∨ (0x08 ≤ id.toNat ∧ id.toNat ≤ 0x0F) ∨ (0x12 ≤ id.toNat ∧ id.toNat ≤ 0x1F) ∨
        (0x25 ≤ id.toNat ∧ id.toNat ≤ 0x2F) ∨ (0x31 ≤ id.toNat ∧ id.toNat ≤ 0x3F) ∨
        (0x47 ≤ id.toNat ∧ id.toNat ≤ 0x4F) ∨ (0x57 ≤ id.toNat ∧ id.toNat ≤ 0x5F) ∨ 0x64 ≤ id.toNat →
      decode .op (id :: r) = .error (.unknownId id))

/-! ## Steps and whole states -/

/-- A step runs the decoded operation with what the schedule lets fall into it, then drops what it did not reach; a
hole of the register window reads a free value and ignores writes (R28); what decodes to nothing is refused (R111;
each decoded under the machine's own layout, `decode` being the standard one's); a held task goes on by its own entry;
with no entry nothing changes (R10). The list of entries is the model's input (log 4, 5). -/
def Obligations.StepRunsTheNextEntry : Prop :=
  ∀ s : State,
    (s.inbox = [] → step s = .next s) ∧
    (∀ (p : Port) (bytes : List Byte) (during : List (List Preempt)) (rest : List Entry),
      s.inbox = .issue p bytes during :: rest →
      (∀ i, decodeWith s.cfg.layout p bytes = .ok i →
        step s = match exec i { s with inbox := rest, sched := during } with
          | .next t => .next { t with sched := [] }
          | .fault e => .fault e
          | .refused e => .refused e) ∧
      (∀ off, decodeWith s.cfg.layout p bytes = .error (.holeRead off) →
        step s = .next { s with
          inbox := rest, sched := [], log := .value (Config.freeHole s.hw.draws) :: s.log,
          hw := { s.hw with draws := s.hw.draws + 1 } }) ∧
      (∀ off, decodeWith s.cfg.layout p bytes = .error (.holeWrite off) → step s = .next { s with inbox := rest, sched := [] }) ∧
      (∀ e, decodeWith s.cfg.layout p bytes = .error e → (∀ off, e ≠ .holeRead off) → (∀ off, e ≠ .holeWrite off) →
        step s = .refused (.undecodable e))) ∧
    (∀ (task : Task) (during : List (List Preempt)) (rest : List Entry),
      s.inbox = .resume task during :: rest →
      step s = match resumeTask task { s with inbox := rest, sched := during } with
        | .next t => .next { t with sched := [] }
        | .fault e => .fault e
        | .refused e => .refused e)

/-- A word placed by `withFetchWord` is the very next operation to run (the model's input list, log 4). -/
def Obligations.PresentedWordRunsNext : Prop :=
  ∀ (s : State) (nbits w : Nat) (i : Instr), s.cfg.layout = Config.Layout.std →
    decodeTableWord nbits w = some i →
    step (s.withFetchWord nbits w) = match exec i { s with sched := [] } with
      | .next t => .next { t with sched := [] }
      | .fault e => .fault e
      | .refused e => .refused e

/-- Every step keeps the invariant: EP_SRAM's canonical form, the records of the allocator, the partition of the
buffers of the enabled endpoints, and that only what the SIE owns has older values, whatever is written raw or
interleaved (R31, R36, R39, R75, R208; the older values are log 8 and 9). -/
def Obligations.StepKeepsSound : Prop :=
  ∀ s t : State, Sound s → Quiet s → step s = .next t → Sound t ∧ Quiet t

/-- The invariant holds at reset (the firmware part before `NEW` is the model's choice, log 1). -/
def Obligations.ResetIsSound : Prop := Sound State.reset ∧ Quiet State.reset

/-- Hardware reset (R45, R351): the register values, no byte of EP_SRAM fixed, the device detached, the line low,
no token matched. The firmware state before `NEW` is the model's choice (log 1) and is not stated. -/
def Obligations.HardwareResetValues : Prop :=
  csrWord State.reset.hw.csr = 0#32 ∧ ierWord State.reset.hw.ier = 0#32 ∧ isrWord State.reset.hw.isr = 0#32 ∧
  devarWord State.reset.hw.devar = 0#32 ∧
  (∀ n : Fin 8,
    epCsrWord State.reset.hw.eps[n].csr = 2#32 ∧
    epTcrWord State.reset.hw.eps[n].txcnt State.reset.hw.eps[n].rxcnt = 0#32 ∧
    epCfgrWord State.reset.hw.eps[n].cfgr = 0#32 ∧
    State.reset.hw.eps[n].dtgTx = false ∧ State.reset.hw.eps[n].dtgRx = false) ∧
  State.reset.hw.addrActive = 0 ∧ State.reset.hw.addrPending = false ∧
  (∀ a, byteAt State.reset a = Config.freeSram State.reset.hw.epoch a) ∧
  attached State.reset = false ∧ irqLine State.reset = false ∧
  (∀ tok addr ep, matchToken tok addr ep State.reset = none)

/-! ## Registers and EP_SRAM -/

/-- The 32-bit images of the registers (R21 to R28): every field at its position, reserved bits read 0 and ignore
writes, and the fields written are those the image shows. -/
def Obligations.RegisterImages : Prop :=
  (∀ c, (csrWord c).getLsbD 1 = c.fres ∧ (csrWord c).getLsbD 2 = c.pdwn ∧ (csrWord c).getLsbD 9 = c.sramrstc ∧
    (csrWord c).getLsbD 10 = c.dppuen) ∧
  (∀ v, csrWord (csrOfWord v) = v &&& 0x606#32) ∧ (∀ c, csrOfWord (csrWord c) = c) ∧
  (∀ i, (ierWord i).getLsbD 0 = i.ugie ∧ (ierWord i).getLsbD 1 = i.sofie ∧ (ierWord i).getLsbD 2 = i.urstie ∧
    (ierWord i).getLsbD 3 = i.rsmie ∧ (ierWord i).getLsbD 4 = i.suspie ∧ (ierWord i).getLsbD 8 = i.ep0ie ∧
    (ierWord i).getLsbD 9 = i.ep1ie ∧ (ierWord i).getLsbD 10 = i.ep2ie ∧ (ierWord i).getLsbD 11 = i.ep3ie) ∧
  (∀ v, ierWord (ierOfWord v) = v &&& 0xF1F#32) ∧ (∀ i, ierOfWord (ierWord i) = i) ∧
  (∀ i, (isrWord i).getLsbD 1 = i.sofif ∧ (isrWord i).getLsbD 2 = i.urstif ∧ (isrWord i).getLsbD 3 = i.rsmif ∧
    (isrWord i).getLsbD 4 = i.suspif ∧ (isrWord i).getLsbD 8 = i.ep0if ∧ (isrWord i).getLsbD 9 = i.ep1if ∧
    (isrWord i).getLsbD 10 = i.ep2if ∧ (isrWord i).getLsbD 11 = i.ep3if) ∧
  (∀ v, isrWord (isrOfWord v) = v &&& 0xF1E#32) ∧ (∀ i, isrOfWord (isrWord i) = i) ∧
  (∀ a, devarWord a = a.setWidth 32) ∧ (∀ v, devarWord (devarOfWord v) = v &&& 0x7F#32) ∧
  (∀ a, devarOfWord (devarWord a) = a) ∧
  (∀ c, (epCsrWord c).getLsbD 1 = c.naktx ∧ (epCsrWord c).getLsbD 2 = c.stltx ∧ (epCsrWord c).getLsbD 4 = c.nakrx ∧
    (epCsrWord c).getLsbD 5 = c.stlrx) ∧
  (∀ v, epCsrWord (epCsrOfWord v) = v &&& 0x36#32) ∧ (∀ c, epCsrOfWord (epCsrWord c) = c) ∧
  (∀ tx rx, (epTcrWord tx rx).extractLsb' 0 7 = tx ∧ (epTcrWord tx rx).extractLsb' 16 7 = rx ∧
    epTcrWord tx rx &&& 0x007F007F#32 = epTcrWord tx rx) ∧
  (∀ v, txcntOfWord v = v.extractLsb' 0 7) ∧
  (∀ c, (epCfgrWord c).extractLsb' 0 10 = c.epbufa ∧ (epCfgrWord c).extractLsb' 10 7 = c.eplen ∧
    (epCfgrWord c).extractLsb' 24 4 = c.epadr ∧ (epCfgrWord c).getLsbD 28 = decide (c.epdir = .inp) ∧
    (epCfgrWord c).extractLsb' 29 2 = (match c.eptype with
      | .control => 0#2
      | .isochronous => 1#2
      | .bulk => 2#2
      | .interrupt => 3#2) ∧
    (epCfgrWord c).getLsbD 31 = c.epen) ∧
  (∀ v, epCfgrWord (epCfgrOfWord v) = v &&& 0xFF01FFFF#32) ∧ (∀ c, epCfgrOfWord (epCfgrWord c) = c)

/-- Reads of registers return the image of the register and change no state (R130, R136). -/
def Obligations.RegistersRead : Prop :=
  ∀ s : State, s.cfg.layout = Config.Layout.std →
    exec .rd32Csr s = .next { s with log := .value (csrWord s.hw.csr) :: s.log } ∧
    exec .rd32Ier s = .next { s with log := .value (ierWord s.hw.ier) :: s.log } ∧
    exec .rd32Isr s = .next { s with log := .value (isrWord s.hw.isr) :: s.log } ∧
    exec .rd32Devar s = .next { s with log := .value (devarWord s.hw.devar) :: s.log } ∧
    ∀ n : Fin 8,
      exec (readCsrInstr n) s = .next { s with log := .value (epCsrWord s.hw.eps[n].csr) :: s.log } ∧
      exec (readTcrInstr n) s =
        .next { s with log := .value (epTcrWord s.hw.eps[n].txcnt s.hw.eps[n].rxcnt) :: s.log } ∧
      exec (readCfgrInstr n) s = .next { s with log := .value (epCfgrWord s.hw.eps[n].cfgr) :: s.log }

/-- A write of `CSR` stores its four bits; a 0-to-1 write of `SRAMRSTC` performs the SRAM/DATA-toggle reset in
the same step, and no other write does (R131, R132). The older bytes and counts of a race, and how the reset ends them,
also under `SRAMRST_CONTENT = preserve`, are the model's (log 8, DESIGN CHOICE there; log 9). -/
def Obligations.ControlRegisterWritten : Prop :=
  ∀ (s : State) (v : Word), s.cfg.layout = Config.Layout.std → ∃ t, exec (.wr32Csr v) s = .next t ∧
    csrWord t.hw.csr = v &&& 0x606#32 ∧ SameButHardware s t ∧
    (s.hw.csr.sramrstc = false → v.getLsbD 9 = true → ToggleReset s t) ∧
    (s.hw.csr.sramrstc = true ∨ v.getLsbD 9 = false → t.hw = { s.hw with csr := t.hw.csr })

/-- A write of `IER` stores its nine bits and nothing else; the line follows the status bits already set
(R133, R317). -/
def Obligations.InterruptEnableWritten : Prop :=
  ∀ (s : State) (v : Word), s.cfg.layout = Config.Layout.std → ∃ t, exec (.wr32Ier v) s = .next t ∧
    ierWord t.hw.ier = v &&& 0xF1F#32 ∧
    irqLine t = (v.getLsbD 0 && decide (isrWord s.hw.isr &&& v &&& 0xF1E#32 ≠ 0#32)) ∧
    t = { s with hw := { s.hw with ier := t.hw.ier } }

/-- A write of `ISR` clears the source bits written as 1 and keeps the others (R134); a write of `DEVAR` stores
the address and makes it pending, the active address unchanged (R135). -/
def Obligations.StatusAndAddressWritten : Prop :=
  ∀ (s : State) (v : Word), s.cfg.layout = Config.Layout.std →
    (∃ t, exec (.wr32Isr v) s = .next t ∧
      isrWord t.hw.isr = isrWord s.hw.isr &&& ~~~(v &&& 0xF1E#32) ∧
      t = { s with hw := { s.hw with isr := t.hw.isr } }) ∧
    exec (.wr32Devar v) s =
      .next { s with hw := { s.hw with devar := v.extractLsb' 0 7, addrPending := true } }

/-- A write of `EPnCSR` inverts the bits written as 1, or stores the four bits, per `EPCSR_WRITE`; no other field of
any endpoint changes, but that races end on a buffer the write takes back from the SIE (R137, R75(a); the older bytes
and counts a race leaves are the model's, log 8, 9). -/
def Obligations.EndpointStatusWritten : Prop :=
  ∀ (s : State) (n : Fin 8) (v : Word), s.cfg.layout = Config.Layout.std →
    ∃ t, exec (writeCsrInstr n v) s = .next t ∧
      (s.cfg.epcsrWrite = .toggle →
        epCsrWord t.hw.eps[n].csr = epCsrWord s.hw.eps[n].csr ^^^ (v &&& 0x36#32)) ∧
      (s.cfg.epcsrWrite = .plain → epCsrWord t.hw.eps[n].csr = v &&& 0x36#32) ∧
      RacesEnd s t ∧
      t = { s with hw := { s.hw with
        raced := t.hw.raced
        eps := s.hw.eps.set n { s.hw.eps[n] with
          csr := t.hw.eps[n].csr
          txcntOld := if s.hw.eps[n].csr.naktx = false ∧ t.hw.eps[n].csr.naktx = true then []
            else s.hw.eps[n].txcntOld } } }

/-- A write of `EPnTCR` stores `TXCNT` only; above the capacity of the TX buffer it is refused (R138). While the SIE
owns the buffer the old count stays among those a racing IN transaction may use (R138, R78; held as log 9 says). -/
def Obligations.TransmitCountWritten : Prop :=
  ∀ (s : State) (n : Fin 8) (v : Word) (cap : Nat), s.cfg.layout = Config.Layout.std →
    cap = (if n = 0 then 64 else s.hw.eps[n].cfgr.eplen.toNat) →
    (v.toNat % 128 ≤ cap → ∃ t, exec (writeTcrInstr n v) s = .next t ∧
      epTcrWord t.hw.eps[n].txcnt t.hw.eps[n].rxcnt =
        (epTcrWord s.hw.eps[n].txcnt s.hw.eps[n].rxcnt &&& 0x007F0000#32) ||| (v &&& 0x7F#32) ∧
      t = { s with hw := { s.hw with eps := s.hw.eps.set n { s.hw.eps[n] with
        txcnt := t.hw.eps[n].txcnt
        txcntOld := if s.hw.eps[n].csr.naktx then [] else s.hw.eps[n].txcnt :: s.hw.eps[n].txcntOld } } }) ∧
    (cap < v.toNat % 128 → exec (writeTcrInstr n v) s = .refused .countAboveCapacity)

/-- A write of `EPnCFGR` stores the six fields of a configuration the spec gives a meaning, and refuses the others,
and those that enable an endpoint that was never allocated (R139, U7). The model's reading (log 12, DEDUCED): the
range of endpoint 0 may meet the EP0 TX buffer, which is its own by R204; never allocated is read off the bitmap of
R35; on an enabled endpoint whose buffer the SIE owns, a write that changes at most `EPEN` is stored and any other is
refused. Races end on what the write takes from the SIE (log 8). -/
def Obligations.EndpointConfigWritten : Prop :=
  ∀ (s : State) (n : Fin 8) (v : Word), s.cfg.layout = Config.Layout.std →
    (ConfigLegal s n (epCfgrOfWord v) → EnablesAllocated s n (epCfgrOfWord v) →
      (s.hw.eps[n].cfgr.epen = false ∨ ¬ BufferInUse s n ∨
          v &&& 0x7F01FFFF#32 = epCfgrWord s.hw.eps[n].cfgr &&& 0x7FFFFFFF#32 →
        ∃ t, exec (writeCfgrInstr n v) s = .next t ∧
          epCfgrWord t.hw.eps[n].cfgr = v &&& 0xFF01FFFF#32 ∧ RacesEnd s t ∧
          t = { s with hw := { s.hw with
            raced := t.hw.raced
            eps := s.hw.eps.set n { s.hw.eps[n] with cfgr := t.hw.eps[n].cfgr } } }) ∧
      (s.hw.eps[n].cfgr.epen = true → BufferInUse s n →
        v &&& 0x7F01FFFF#32 ≠ epCfgrWord s.hw.eps[n].cfgr &&& 0x7FFFFFFF#32 →
        exec (writeCfgrInstr n v) s = .refused .configInUse)) ∧
    (¬ ConfigLegal s n (epCfgrOfWord v) ∨ ¬ EnablesAllocated s n (epCfgrOfWord v) →
      exec (writeCfgrInstr n v) s = .refused .badEndpointConfig)

/-- 32-bit accesses to EP_SRAM are little-endian (R140, R71): a read returns the four stored bytes where none lies in
an RX buffer the SIE owns, and always completes; a write stores the four bytes and leaves every other byte; accesses
outside or misaligned are refused (R143, R72). How races are held is the model's reading (log 8). -/
def Obligations.SramAccesses : Prop :=
  ∀ (s : State) (off : BitVec 12) (v : Word), s.cfg.layout = Config.Layout.std →
    (off.toNat % 4 = 0 → off.toNat < 1024 →
      (∃ w t, exec (.rd32Sram off) s = .next t ∧ t.log = .value w :: s.log ∧
        t = { s with log := t.log, hw := { s.hw with draws := t.hw.draws } }) ∧
      (Unraced s off.toNat 4 → exec (.rd32Sram off) s = .next { s with
        log := .value (byteAt s (off.toNat + 3) ++ byteAt s (off.toNat + 2) ++ byteAt s (off.toNat + 1) ++
          byteAt s off.toNat) :: s.log }) ∧
      (∃ t, exec (.wr32Sram off v) s = .next t ∧
        StoredByFirmware off.toNat
          [v.extractLsb' 0 8, v.extractLsb' 8 8, v.extractLsb' 16 8, v.extractLsb' 24 8] s t)) ∧
    (off.toNat % 4 ≠ 0 →
      exec (.rd32Sram off) s = .refused .misaligned ∧ exec (.wr32Sram off v) s = .refused .misaligned) ∧
    (off.toNat % 4 = 0 → 1024 ≤ off.toNat →
      exec (.rd32Sram off) s = .refused .outsideSram ∧ exec (.wr32Sram off v) s = .refused .outsideSram)

/-! ## The bus side -/

/-- Which endpoint a token matches (R160, R165); one that matches none gets no answer and changes no state. The model's
choices: where two enabled endpoints hold one `EPADR` none matches (log 24, DEDUCED), and a transaction on a matched
isochronous endpoint, which is outside the spec, is refused before any other test (log 23, DEDUCED). -/
def Obligations.TokenMatching : Prop :=
  ∀ (s : State) (addr : BitVec 7) (ep : BitVec 4), s.cfg.layout = Config.Layout.std →
    (∀ (tok : Token) (n : Fin 8), matchToken tok addr ep s = some n ↔
      (s.hw.csr.dppuen = true ∧ s.hw.csr.pdwn = false ∧ s.hw.csr.fres = false ∧ s.hw.csr.sramrstc = false) ∧
      addr = s.hw.addrActive ∧ ep.toNat ≤ 7 ∧
      (∀ m : Fin 8, (s.hw.eps[m].cfgr.epen = true ∧ s.hw.eps[m].cfgr.epadr = ep) ↔ m = n) ∧
      (tok = .setup → n = 0) ∧
      (tok = .out → n = 0 ∨ s.hw.eps[n].cfgr.epdir = .out) ∧
      (tok = .inp → n = 0 ∨ s.hw.eps[n].cfgr.epdir = .inp)) ∧
    (∀ data, matchToken .setup addr ep s = none →
      exec (.bSetup addr ep data) s = .next { s with log := .answer .none :: s.log }) ∧
    (∀ pid data, matchToken .out addr ep s = none →
      exec (.bOut addr ep pid data) s = .next { s with log := .answer .none :: s.log }) ∧
    (∀ ack, matchToken .inp addr ep s = none →
      exec (.bIn addr ep ack) s = .next { s with log := .answer .none :: s.log }) ∧
    (∀ (n : Fin 8) (pid : BitVec 4) (data : List Byte) (ack : Bool), s.hw.eps[n].cfgr.eptype = .isochronous →
      (matchToken .setup addr ep s = some n → exec (.bSetup addr ep data) s = .refused .isochronous) ∧
      (matchToken .out addr ep s = some n → exec (.bOut addr ep pid data) s = .refused .isochronous) ∧
      (matchToken .inp addr ep s = some n → exec (.bIn addr ep ack) s = .refused .isochronous))

/-- The line events and start-of-frame set their status bit, in every state or (SOF) while attached; the bus reset
also returns the SIE to address 0 and touches no toggle, NAK bit, count or stall bit (R161 to R164). That the four are
presented by their ids of R108 as the first byte at the `op` port, later bytes ignored, is the model's layout (log 10,
DESIGN CHOICE). -/
def Obligations.LineEventsSetStatus : Prop :=
  ∀ s : State,
    (∃ t, exec .bReset s = .next t ∧ isrWord t.hw.isr = isrWord s.hw.isr ||| 0x004#32 ∧
      t = { s with
        hw := { s.hw with isr := t.hw.isr, addrActive := 0, addrPending := false, devar := 0 }
        log := .answer .none :: s.log }) ∧
    (∃ t, exec .bSuspend s = .next t ∧ isrWord t.hw.isr = isrWord s.hw.isr ||| 0x010#32 ∧
      t = { s with hw := { s.hw with isr := t.hw.isr }, log := .answer .none :: s.log }) ∧
    (∃ t, exec .bResume s = .next t ∧ isrWord t.hw.isr = isrWord s.hw.isr ||| 0x008#32 ∧
      t = { s with hw := { s.hw with isr := t.hw.isr }, log := .answer .none :: s.log }) ∧
    (∃ t, exec .bSof s = .next t ∧
      isrWord t.hw.isr = isrWord s.hw.isr ||| (if attached s then 0x002#32 else 0#32) ∧
      t = { s with hw := { s.hw with isr := t.hw.isr }, log := .answer .none :: s.log }) ∧
    (∀ r, decode .op (0x01#8 :: r) = .ok .bReset ∧ decode .op (0x02#8 :: r) = .ok .bSuspend ∧
      decode .op (0x03#8 :: r) = .ok .bResume ∧ decode .op (0x04#8 :: r) = .ok .bSof)

/-- A matched SETUP of 8 bytes is always accepted: the bytes, endpoint 0's stall and NAK bits, counts and toggles,
`EP0IF`, the answer; another length gets no answer (R166). Races end on the TX buffer it takes back (R75(a), log 8,
9). -/
def Obligations.SetupAccepted : Prop :=
  ∀ (s : State) (addr : BitVec 7) (ep : BitVec 4) (data : List Byte), s.cfg.layout = Config.Layout.std →
    matchToken .setup addr ep s = some 0 → s.hw.eps[(0 : Fin 8)].cfgr.eptype ≠ .isochronous →
    (data.length = 8 → ∃ t, exec (.bSetup addr ep data) s = .next t ∧
      storedBytes t 0 8 = data ∧ SameOutside s t 0 8 ∧ (∀ k < 8, racedAt t k = []) ∧
      isrWord t.hw.isr = isrWord s.hw.isr ||| 0x100#32 ∧
      t = { s with
        hw := { s.hw with
          sram := t.hw.sram, raced := t.hw.raced, isr := t.hw.isr
          eps := s.hw.eps.set 0 { s.hw.eps[(0 : Fin 8)] with
            csr := ⟨true, false, false, false⟩, txcnt := 0, txcntOld := [], rxcnt := 0, dtgTx := true, dtgRx := true } }
        log := .answer .ack :: s.log }) ∧
    (data.length ≠ 8 → exec (.bSetup addr ep data) s = .next { s with log := .answer .none :: s.log })

/-- An OUT transaction on a matched endpoint, first applicable case (R167, R171); races end on the
buffer it gives back to firmware (R75(a), log 8). -/
def Obligations.OutTransaction : Prop :=
  ∀ (s : State) (addr : BitVec 7) (ep pid : BitVec 4) (data : List Byte) (n : Fin 8) (base cap : Nat), Sound s →
    matchToken .out addr ep s = some n → s.hw.eps[n].cfgr.eptype ≠ .isochronous →
    base = (if n = 0 then 0x048 else s.hw.eps[n].cfgr.epbufa.toNat) →
    cap = (if n = 0 then 64 else s.hw.eps[n].cfgr.eplen.toNat) →
    (s.hw.eps[n].csr.stlrx = true →
      exec (.bOut addr ep pid data) s = .next { s with log := .answer .stall :: s.log }) ∧
    (s.hw.eps[n].csr.stlrx = false → s.hw.eps[n].csr.nakrx = true →
      exec (.bOut addr ep pid data) s = .next { s with log := .answer .nak :: s.log }) ∧
    (s.hw.eps[n].csr.stlrx = false → s.hw.eps[n].csr.nakrx = false →
      (pid ≠ (if s.hw.eps[n].dtgRx then 0xB#4 else 0x3#4) →
        exec (.bOut addr ep pid data) s = .next { s with log := .answer .ack :: s.log }) ∧
      (pid = (if s.hw.eps[n].dtgRx then 0xB#4 else 0x3#4) → cap < data.length →
        exec (.bOut addr ep pid data) s = .next { s with log := .answer .none :: s.log }) ∧
      (pid = (if s.hw.eps[n].dtgRx then 0xB#4 else 0x3#4) → data.length ≤ cap →
        ∃ t, exec (.bOut addr ep pid data) s = .next t ∧
          storedBytes t base data.length = data ∧ SameOutside s t base data.length ∧
          (∀ k, base ≤ k → k < base + data.length → racedAt t k = []) ∧
          t.hw.eps[n].rxcnt.toNat = data.length ∧
          isrWord t.hw.isr = isrWord s.hw.isr ||| endpointBit n ∧
          t = { s with
            hw := { s.hw with
              sram := t.hw.sram, raced := t.hw.raced, isr := t.hw.isr
              eps := s.hw.eps.set n { s.hw.eps[n] with
                csr := { s.hw.eps[n].csr with nakrx := true }
                rxcnt := t.hw.eps[n].rxcnt, dtgRx := !s.hw.eps[n].dtgRx } }
            log := .answer .ack :: s.log }))

/-- An IN transaction on a matched endpoint, first applicable case, and the pending address (R168, R170, R171). Where
bytes or the count race, what is sent is one of the values each may have, for each byte on its own (R78, R138), the
toggle, the NAK bit, the status bit and the pending address move as always, and an unacknowledged packet stays armed;
how races are held is log 8 and 9. -/
def Obligations.InTransaction : Prop :=
  ∀ (s : State) (addr : BitVec 7) (ep : BitVec 4) (ack : Bool) (n : Fin 8) (base cap : Nat), Sound s →
    matchToken .inp addr ep s = some n → s.hw.eps[n].cfgr.eptype ≠ .isochronous →
    base = (if n = 0 then 0x008 else s.hw.eps[n].cfgr.epbufa.toNat) →
    cap = (if n = 0 then 64 else s.hw.eps[n].cfgr.eplen.toNat) →
    (s.hw.eps[n].csr.stltx = true →
      exec (.bIn addr ep ack) s = .next { s with log := .answer .stall :: s.log }) ∧
    (s.hw.eps[n].csr.stltx = false → s.hw.eps[n].csr.naktx = true →
      exec (.bIn addr ep ack) s = .next { s with log := .answer .nak :: s.log }) ∧
    (s.hw.eps[n].csr.stltx = false → s.hw.eps[n].csr.naktx = false →
      (s.hw.eps[n].txcntOld = [] → cap < s.hw.eps[n].txcnt.toNat →
        exec (.bIn addr ep ack) s = .refused .countAboveCapacity) ∧
      ((∀ c ∈ s.hw.eps[n].txcnt :: s.hw.eps[n].txcntOld, c.toNat ≤ cap) →
        ∃ (t : State) (bytes : List Byte), exec (.bIn addr ep ack) s = .next t ∧
          bytes.length ∈ (s.hw.eps[n].txcnt :: s.hw.eps[n].txcntOld).map BitVec.toNat ∧
          (∀ (k : Nat) (b : Byte), bytes[k]? = some b → b ∈ byteAt s (base + k) :: racedAt s (base + k)) ∧
          (s.hw.eps[n].txcntOld = [] → (∀ i < s.hw.eps[n].txcnt.toNat, racedAt s (base + i) = []) →
            bytes = storedBytes s base s.hw.eps[n].txcnt.toNat ∧ t.hw.draws = s.hw.draws) ∧
          (ack = false → t = { s with
            hw := { s.hw with draws := t.hw.draws }
            log := .answer (.data s.hw.eps[n].dtgTx bytes) :: s.log }) ∧
          (ack = true → isrWord t.hw.isr = isrWord s.hw.isr ||| endpointBit n ∧ RacesEnd s t ∧
            t = { s with
              hw := { s.hw with
                isr := t.hw.isr, raced := t.hw.raced, draws := t.hw.draws
                eps := s.hw.eps.set n { s.hw.eps[n] with
                  csr := { s.hw.eps[n].csr with naktx := true }, dtgTx := !s.hw.eps[n].dtgTx, txcntOld := [] }
                addrActive := if s.hw.addrPending then s.hw.devar else s.hw.addrActive
                addrPending := false }
              log := .answer (.data s.hw.eps[n].dtgTx bytes) :: s.log })))

/-- What the bus side never writes (R172): configuration, `CSR`, `IER`, every `EPnCFGR`, `TXCNT` and the stall bits
of endpoints 1 to 7 (endpoint 0's are R166's), all firmware state; and it never clears a status bit. -/
def Obligations.BusSideWritesNoFirmwareState : Prop :=
  ∀ (s t : State) (st : Stim), exec st.instr s = .next t →
    t.cfg = s.cfg ∧ t.fw = s.fw ∧ t.tasks = s.tasks ∧ t.inbox = s.inbox ∧
    t.hw.csr = s.hw.csr ∧ t.hw.ier = s.hw.ier ∧
    isrWord s.hw.isr &&& ~~~(isrWord t.hw.isr) = 0#32 ∧
    (∀ n : Fin 8, t.hw.eps[n].cfgr = s.hw.eps[n].cfgr) ∧
    (∀ n : Fin 8, n ≠ 0 → t.hw.eps[n].txcnt = s.hw.eps[n].txcnt ∧
      t.hw.eps[n].csr.stltx = s.hw.eps[n].csr.stltx ∧ t.hw.eps[n].csr.stlrx = s.hw.eps[n].csr.stlrx)

/-- The writers of a DATA toggle (R169): only a SETUP, an OUT, an IN, the handler, `ENABLE` and a write of `CSR`
change one. -/
def Obligations.ToggleWriters : Prop :=
  ∀ (i : Instr) (s t : State), Quiet s → exec i s = .next t →
    (∀ n : Fin 8, t.hw.eps[n].dtgTx = s.hw.eps[n].dtgTx ∧ t.hw.eps[n].dtgRx = s.hw.eps[n].dtgRx) ∨
    (∃ a e d, i = .bSetup a e d) ∨ (∃ a e p d, i = .bOut a e p d) ∨ (∃ a e k, i = .bIn a e k) ∨
    i = .irq ∨ i = .enable ∨ (∃ v, i = .wr32Csr v)

/-! ## The SRAM buffer arbiter -/

/-- `NEW` gives the firmware state its initial values and touches no hardware; a second one is refused (R200, R352).
That a `START` before any `NEW` counts as its own driver, so that a first `NEW` after it is refused, and that `NEW`
leaves the bus as enabled as it was, are the model's choices (log 18, DESIGN CHOICE), and so is that a call held before
`NEW` stays held (log 35, DESIGN CHOICE). -/
def Obligations.NewCreatesFirmwareState : Prop :=
  ∀ (s : State) (b₁ b₂ : Bool), s.cfg.layout = Config.Layout.std →
    (s.fw.life = .unbuilt → ∃ t, exec (.newDriver b₁ b₂) s = .next t ∧
      (∀ k : Fin 8, t.fw.evf[k] = false) ∧ t.fw.wake = false ∧ t.fw.cfgLatch = false ∧ t.fw.alloc = 0 ∧
      (∀ n : Fin 8, t.fw.epinfo[n] = none) ∧ t.fw.powerAnnounced = false ∧ t.fw.phase = .idle ∧
      t.fw.ctrlMps = 64 ∧ t.fw.life = .built ∧
      t = { s with
        fw := { t.fw with hsnap := s.fw.hsnap, busEnabled := s.fw.busEnabled }
        log := .result .stack .driver :: s.log }) ∧
    (s.fw.life ≠ .unbuilt → exec (.newDriver b₁ b₂) s = .refused .secondNew)

/-- An allocation that succeeds (R202, R203, R204, R205): the number given or the default, the value of `EPnCFGR`,
the bitmap, the record with the clamped packet size, and nothing else, but that races end where the write moves a buffer
(log 8). -/
def Obligations.AllocationSucceeds : Prop :=
  ∀ (s : State) (d : Dir) (ty : EpType) (opt : Option EpAddr) (mps : Nat) (iv : Byte) (n : Fin 8),
    s.cfg.layout = Config.Layout.std → s.cfg.defaultAddr = Config.DefaultAddr.std →
    s.fw.life ≠ .started → s.fw.busEnabled = false → ty ≠ .isochronous →
    (match opt, ty, d with
      | some a, _, _ => a.num
      | none, .bulk, .inp => 3
      | none, .bulk, .out => 2
      | none, .interrupt, .inp => 1
      | none, .interrupt, .out => 4
      | none, _, _ => 0) = BitVec.ofNat 4 n.val →
    (ty = .control ↔ n = 0) →
    s.fw.alloc.getLsbD (2 * n.val) = false → s.fw.alloc.getLsbD (2 * n.val + 1) = false →
    ∃ t, exec (allocInstr d ty opt mps iv) s = .next t ∧
      epCfgrWord t.hw.eps[n].cfgr = (if n = 0 then 0x80010008#32 else
        BitVec.ofNat 32 (0x088 + 124 * (n.val - 1)) ||| 124#32 <<< 10 ||| BitVec.ofNat 32 n.val <<< 24 |||
          (if d = .inp then 1#32 <<< 28 else 0#32) ||| (ty.code.setWidth 32) <<< 29) ∧
      t.fw.alloc = s.fw.alloc |||
        (if n = 0 then 3#16 else 1#16 <<< (2 * n.val + if d = .inp then 1 else 0)) ∧
      RacesEnd s t ∧
      t = { s with
        hw := { s.hw with raced := t.hw.raced, eps := s.hw.eps.set n { s.hw.eps[n] with cfgr := t.hw.eps[n].cfgr } }
        fw := { s.fw with
          alloc := t.fw.alloc
          epinfo := s.fw.epinfo.set n (some ⟨⟨BitVec.ofNat 4 n.val, d⟩, ty, min mps 64, iv⟩) }
        log := .result .stack (.info ⟨⟨BitVec.ofNat 4 n.val, d⟩, ty, min mps 64, iv⟩) :: s.log }

/-- An allocation that fails (R202, R203, R311): with the number given or the default in use, or a type that does not
fit the number, the error is the result and no state changes, so that a second default allocation of a pair always
fails; isochronous allocations, and those after `START` or `ENABLE` (R206, R361), are refused; the order of the
refusals is the model's (log 18). -/
def Obligations.AllocationFails : Prop :=
  ∀ (s : State) (d : Dir) (ty : EpType) (opt : Option EpAddr) (mps : Nat) (iv : Byte),
    s.cfg.layout = Config.Layout.std → s.cfg.defaultAddr = Config.DefaultAddr.std →
    (s.fw.life = .started → exec (allocInstr d ty opt mps iv) s = .refused .allocAfterStart) ∧
    (s.fw.life ≠ .started → s.fw.busEnabled = true →
      exec (allocInstr d ty opt mps iv) s = .refused .allocAfterEnable) ∧
    (s.fw.life ≠ .started → s.fw.busEnabled = false →
      exec (allocInstr d .isochronous opt mps iv) s = .refused .isochronous ∧
      (∀ n : Fin 8, ty ≠ .isochronous →
        (match opt, ty, d with
          | some a, _, _ => a.num
          | none, .bulk, .inp => 3
          | none, .bulk, .out => 2
          | none, .interrupt, .inp => 1
          | none, .interrupt, .out => 4
          | none, _, _ => 0) = BitVec.ofNat 4 n.val →
        (ty = .control ∧ n ≠ 0) ∨ (ty ≠ .control ∧ n = 0) ∨
          s.fw.alloc.getLsbD (2 * n.val) = true ∨ s.fw.alloc.getLsbD (2 * n.val + 1) = true →
        exec (allocInstr d ty opt mps iv) s =
          .next { s with log := .result .stack (.error .allocError) :: s.log })) ∧
    (∀ t mps' iv', exec (allocInstr d ty none mps iv) s = .next t →
      exec (allocInstr d ty none mps' iv') t = .next { t with log := .result .stack (.error .allocError) :: t.log })

/-- `START` keeps the clamped control packet size, allocates endpoint 0 unless it is allocated, and is possible
once (R206); the allocation it makes is refused after `ENABLE` (R361, log 18), races end where it moves a buffer
(log 8), and that a call held before it stays held is the model's choice (log 35, DESIGN CHOICE). -/
def Obligations.StartAllocatesControl : Prop :=
  ∀ (s : State) (cmps : Nat), s.cfg.layout = Config.Layout.std →
    (s.fw.life = .started → exec (.start cmps) s = .refused .secondStart) ∧
    (s.fw.life ≠ .started →
      (s.fw.alloc.getLsbD 0 = true ∨ s.fw.alloc.getLsbD 1 = true →
        exec (.start cmps) s = .next { s with
          fw := { s.fw with ctrlMps := min cmps 64, life := .started }
          log := .result .stack .handles :: s.log }) ∧
      (s.fw.alloc.getLsbD 0 = false → s.fw.alloc.getLsbD 1 = false → s.fw.busEnabled = true →
        exec (.start cmps) s = .refused .allocAfterEnable) ∧
      (s.fw.alloc.getLsbD 0 = false → s.fw.alloc.getLsbD 1 = false → s.fw.busEnabled = false →
        ∃ t, exec (.start cmps) s = .next t ∧ epCfgrWord t.hw.eps[(0 : Fin 8)].cfgr = 0x80010008#32 ∧ RacesEnd s t ∧
          t = { s with
            hw := { s.hw with
              raced := t.hw.raced
              eps := s.hw.eps.set 0 { s.hw.eps[(0 : Fin 8)] with cfgr := t.hw.eps[(0 : Fin 8)].cfgr } }
            fw := { s.fw with
              ctrlMps := min cmps 64, life := .started, alloc := s.fw.alloc ||| 3#16
              epinfo := s.fw.epinfo.set 0 (some ⟨⟨0, .out⟩, .control, min cmps 64, 0⟩) }
            log := .result .stack .handles :: s.log }))

/-- `BUFMAP` is a pure function of number and direction (R201); the regions of different endpoints are apart, and
apart from the three EP0 regions (R30, R31). -/
def Obligations.BufferMapPartition : Prop :=
  (∀ (s : State) (d : Dir), s.cfg.layout = Config.Layout.std →
    exec (.bufmap 0 .inp) s = .next { s with log := .result .stack (.region 0x008 64) :: s.log } ∧
    exec (.bufmap 0 .out) s = .next { s with log := .result .stack (.region 0x048 64) :: s.log } ∧
    (∀ n, 1 ≤ n → n ≤ 7 → exec (.bufmap n d) s =
      .next { s with log := .result .stack (.region (0x088 + 124 * (n - 1)) 124) :: s.log })) ∧
  (∀ (n m : Fin 8) (d e : Dir), n ≠ 0 →
    (bufmap Config.Layout.std n d).1 + (bufmap Config.Layout.std n d).2 ≤ 1004 ∧
    0x088 ≤ (bufmap Config.Layout.std n d).1 ∧
    (m ≠ n → Apart (bufmap Config.Layout.std n d).1 (bufmap Config.Layout.std n d).2
      (bufmap Config.Layout.std m e).1 (bufmap Config.Layout.std m e).2))

/-- `EP_INFO` returns the record written at allocation and nothing changes (R207); it is answered in every state, also
while a call of the endpoint's task is held, and for either direction of the address (log 33, DESIGN CHOICE). It is
presented by its id and the address byte, a layout of the model (log 10, DESIGN CHOICE). -/
def Obligations.EndpointInfoReturned : Prop :=
  ∀ (s : State) (a : EpAddr) (n : Fin 8) (i : EpInfo), s.cfg.layout = Config.Layout.std →
    a.num = BitVec.ofNat 4 n.val → s.fw.epinfo[n] = some i →
    exec (.epInfo a) s = .next { s with log := .result (.endpoint n) (.info i) :: s.log } ∧
    ∀ r, decode .op (0x60#8 :: a.byte :: r) = .ok (.epInfo a)

/-- Allocation is never undone (R35, R36, R361): whatever runs and whatever falls into it, an allocated bit stays
set and a record stays as it is; only `NEW` makes a fresh firmware state. -/
def Obligations.AllocationNeverUndone : Prop :=
  ∀ (i : Instr) (s t : State), Sound s → (∀ b₁ b₂, i ≠ .newDriver b₁ b₂) → exec i s = .next t →
    (∀ k, s.fw.alloc.getLsbD k = true → t.fw.alloc.getLsbD k = true) ∧
    (∀ (n : Fin 8) (r : EpInfo), s.fw.epinfo[n] = some r → t.fw.epinfo[n] = some r)

/-! ## The dispatcher -/

/-- A run of the handler into which nothing falls (R220): every pending source becomes its flag, all are cleared,
one wake if there was any; with a bus reset among them `SRAMRSTC` is pulsed, which performs the SRAM/DATA-toggle
reset once if it read 0. How that reset ends races, also under `SRAMRST_CONTENT = preserve`, is the model's (log 8,
DESIGN CHOICE there; log 9). -/
def Obligations.HandlerTranscribesPending : Prop :=
  ∀ s : State, Quiet s → s.cfg.layout = Config.Layout.std → ∃ t, exec .irq s = .next t ∧
    t.fw.evf.toList =
      [s.fw.evf[(0 : Fin 8)] || s.hw.isr.urstif, s.fw.evf[(1 : Fin 8)] || s.hw.isr.suspif,
       s.fw.evf[(2 : Fin 8)] || s.hw.isr.rsmif, s.fw.evf[(3 : Fin 8)] || s.hw.isr.sofif,
       s.fw.evf[(4 : Fin 8)] || s.hw.isr.ep0if, s.fw.evf[(5 : Fin 8)] || s.hw.isr.ep1if,
       s.fw.evf[(6 : Fin 8)] || s.hw.isr.ep2if, s.fw.evf[(7 : Fin 8)] || s.hw.isr.ep3if] ∧
    isrWord t.hw.isr = 0#32 ∧
    t.fw.wake = (s.fw.wake || decide (isrWord s.hw.isr ≠ 0#32)) ∧
    t.hw.csr = (if s.hw.isr.urstif then { s.hw.csr with sramrstc := false } else s.hw.csr) ∧
    (s.hw.isr.urstif = true → s.hw.csr.sramrstc = false →
      ToggleReset s { t with hw := { t.hw with isr := s.hw.isr } }) ∧
    (s.hw.isr.urstif = false ∨ s.hw.csr.sramrstc = true →
      t.hw = { s.hw with isr := t.hw.isr, csr := t.hw.csr }) ∧
    t = { s with hw := t.hw, fw := { s.fw with evf := t.fw.evf, wake := t.fw.wake, hsnap := none } }

/-- What the handler leaves, whatever bus stimuli fall between its steps (R220, R231(f), R323): `IER`, `CSR` but
`SRAMRSTC`, every `EPnCFGR`, the stall bits of endpoints 1 to 7, every other piece of firmware state; flags are
only set. -/
def Obligations.HandlerFrame : Prop :=
  ∀ s t : State, exec .irq s = .next t →
    t.cfg = s.cfg ∧ t.tasks = s.tasks ∧ t.inbox = s.inbox ∧ t.hw.ier = s.hw.ier ∧
    t.hw.csr.fres = s.hw.csr.fres ∧ t.hw.csr.pdwn = s.hw.csr.pdwn ∧ t.hw.csr.dppuen = s.hw.csr.dppuen ∧
    (s.hw.isr.urstif = true → t.hw.csr.sramrstc = false) ∧
    (s.hw.isr.urstif = false → t.hw.csr = s.hw.csr) ∧
    (∀ n : Fin 8, t.hw.eps[n].cfgr = s.hw.eps[n].cfgr) ∧
    (∀ n : Fin 8, n ≠ 0 → t.hw.eps[n].csr.stltx = s.hw.eps[n].csr.stltx ∧
      t.hw.eps[n].csr.stlrx = s.hw.eps[n].csr.stlrx) ∧
    (∀ k : Fin 8, s.fw.evf[k] = true → t.fw.evf[k] = true) ∧
    t.fw = { s.fw with evf := t.fw.evf, wake := t.fw.wake, hsnap := none }

/-- `POLL` (R222, R223, R224): it waits for a wake before it looks at any flag; then it reports the first flag in
priority order and clears that one only (with start-of-frame cleared silently and all endpoint flags together),
runs the reset slow-path at a reset, announces power once, and waits again when nothing is left. -/
def Obligations.PollReportsByPriority : Prop :=
  ∀ s : State, Quiet s → s.cfg.layout = Config.Layout.std → s.tasks.pollHeld = false →
    (s.fw.wake = false → exec .poll s = .next { s with tasks := { s.tasks with pollHeld := true } }) ∧
    (s.fw.wake = true →
      (s.fw.evf[(0 : Fin 8)] = true → ∃ t, exec .poll s = .next t ∧
        csrWord t.hw.csr = csrWord s.hw.csr &&& 0x400#32 ∧ ierWord t.hw.ier = s.cfg.ierMask &&& 0xF1F#32 ∧
        t = { s with
          hw := { s.hw with csr := t.hw.csr, ier := t.hw.ier }
          fw := { s.fw with
            wake := false, evf := s.fw.evf.set 0 false, cfgLatch := false, phase := .idle }
          log := .result .bus (.event .deviceVisible) :: s.log }) ∧
      (s.fw.evf[(0 : Fin 8)] = false → s.fw.evf[(2 : Fin 8)] = true → exec .poll s = .next { s with
        fw := { s.fw with wake := false, evf := s.fw.evf.set 2 false }
        log := .result .bus (.event .resume) :: s.log }) ∧
      (s.fw.evf[(0 : Fin 8)] = false → s.fw.evf[(2 : Fin 8)] = false → s.fw.evf[(1 : Fin 8)] = true →
        exec .poll s = .next { s with
          fw := { s.fw with wake := false, evf := s.fw.evf.set 1 false }
          log := .result .bus (.event .suspend) :: s.log }) ∧
      (s.fw.evf[(0 : Fin 8)] = false → s.fw.evf[(2 : Fin 8)] = false → s.fw.evf[(1 : Fin 8)] = false →
        ((∃ k : Fin 8, 4 ≤ k.val ∧ s.fw.evf[k] = true) → exec .poll s = .next { s with
          fw := { s.fw with wake := false, evf := Vector.replicate 8 false }
          log := .result .bus (.event .noAction) :: s.log }) ∧
        ((∀ k : Fin 8, 4 ≤ k.val → s.fw.evf[k] = false) →
          (s.fw.powerAnnounced = false → exec .poll s = .next { s with
            fw := { s.fw with wake := false, evf := Vector.replicate 8 false, powerAnnounced := true }
            log := .result .bus (.event .powerAnnounced) :: s.log }) ∧
          (s.fw.powerAnnounced = true → exec .poll s = .next { s with
            fw := { s.fw with wake := false, evf := Vector.replicate 8 false }
            tasks := { s.tasks with pollHeld := true } }))))

/-- `EP_SET_STALLED` writes the one stall bit of the address's direction, under either write semantics, and where the
bit already has that value it writes nothing, whatever falls between its read and its end (R225, R141). -/
def Obligations.StallBitWritten : Prop :=
  ∀ (s : State) (a : EpAddr) (n : Fin 8) (b : Bool) (bit : Word), s.cfg.layout = Config.Layout.std →
    a.num = BitVec.ofNat 4 n.val → bit = (if a.dir = .inp then 0x04#32 else 0x20#32) →
    (Quiet s → ∃ t, exec (.epSetStalled a b) s = .next t ∧
      epCsrWord t.hw.eps[n].csr =
        (if b then epCsrWord s.hw.eps[n].csr ||| bit else epCsrWord s.hw.eps[n].csr &&& ~~~bit) ∧
      t = { s with
        hw := { s.hw with eps := s.hw.eps.set n { s.hw.eps[n] with csr := t.hw.eps[n].csr } }
        log := .result .bus .unit :: s.log }) ∧
    (∀ u, decide (epCsrWord s.hw.eps[n].csr &&& bit ≠ 0#32) = b → point s = .next u →
      exec (.epSetStalled a b) s = .next { u with log := .result .bus .unit :: u.log })

/-- `EP_IS_STALLED` returns the stall bit of the address's direction and changes nothing; a number above 7 aborts
(R226). It is presented by its id and the address byte, a layout of the model (log 10, DESIGN CHOICE). -/
def Obligations.StallBitRead : Prop :=
  ∀ (s : State) (a : EpAddr), s.cfg.layout = Config.Layout.std →
    (∀ n : Fin 8, a.num = BitVec.ofNat 4 n.val → exec (.epIsStalled a) s = .next { s with
      log := .result .bus (.flag (if a.dir = .inp then (epCsrWord s.hw.eps[n].csr).getLsbD 2
        else (epCsrWord s.hw.eps[n].csr).getLsbD 5)) :: s.log }) ∧
    (7 < a.num.toNat → exec (.epIsStalled a) s = .fault .abort) ∧
    ∀ r, decode .op (0x42#8 :: a.byte :: r) = .ok (.epIsStalled a)

/-- `EP_SET_ENABLED` writes `EPEN` and keeps every other field, toggle, NAK bit and count; enabling a
configuration that was never written is refused (R227; what else is refused is the model's reading, log 12, 13). -/
def Obligations.EnableBitWritten : Prop :=
  ∀ (s : State) (a : EpAddr) (n : Fin 8) (b : Bool), Quiet s → s.cfg.layout = Config.Layout.std →
    a.num = BitVec.ofNat 4 n.val →
    ((b = true → ConfigLegal s n s.hw.eps[n].cfgr ∧ epCfgrWord s.hw.eps[n].cfgr &&& 0x7FFFFFFF#32 ≠ 0#32) →
      ∃ t, exec (.epSetEnabled a b) s = .next t ∧
        epCfgrWord t.hw.eps[n].cfgr = (if b then epCfgrWord s.hw.eps[n].cfgr ||| 0x80000000#32
          else epCfgrWord s.hw.eps[n].cfgr &&& 0x7FFFFFFF#32) ∧
        t = { s with
          hw := { s.hw with eps := s.hw.eps.set n { s.hw.eps[n] with cfgr := t.hw.eps[n].cfgr } }
          log := .result .bus .unit :: s.log }) ∧
    (b = true → epCfgrWord s.hw.eps[n].cfgr &&& 0x7FFFFFFF#32 = 0#32 →
      exec (.epSetEnabled a b) s = .refused .badEndpointConfig)

/-- `ENABLE` (R228): pull-up on, one SRAM/DATA-toggle reset pulse, the interrupt mask; `PDWN`, `FRES`, `ISR`, flags,
latch and phase untouched. That the bus is started is recorded, for R361 (log 18); how the reset ends races, also under
`SRAMRST_CONTENT = preserve`, is the model's (log 8, DESIGN CHOICE there; log 9). -/
def Obligations.EnableAttaches : Prop :=
  ∀ s : State, Quiet s → s.cfg.layout = Config.Layout.std → ∃ t, exec .enable s = .next t ∧
    t.hw.csr = { s.hw.csr with dppuen := true, sramrstc := false } ∧
    ierWord t.hw.ier = s.cfg.ierMask &&& 0xF1F#32 ∧
    (s.hw.csr.sramrstc = false → ToggleReset s { t with hw := { t.hw with ier := s.hw.ier } }) ∧
    (s.hw.csr.sramrstc = true → t.hw = { s.hw with csr := t.hw.csr, ier := t.hw.ier }) ∧
    t = { s with hw := t.hw, fw := { s.fw with busEnabled := true }, log := .result .bus .unit :: s.log }

/-- `DISABLE` (R229): pull-up off, every interrupt masked, the line low, nothing else. -/
def Obligations.DisableDetaches : Prop :=
  ∀ s : State, Quiet s → ∃ t, exec .disable s = .next t ∧
    csrWord t.hw.csr = csrWord s.hw.csr &&& ~~~0x400#32 ∧ ierWord t.hw.ier = 0#32 ∧
    attached t = false ∧ irqLine t = false ∧
    t = { s with
      hw := { s.hw with csr := t.hw.csr, ier := t.hw.ier }
      log := .result .bus .unit :: s.log }

/-- `REMOTE_WAKEUP` always fails, in every state, and touches nothing (R230). It is presented by its id as the first
byte at the `op` port, later bytes ignored, a layout of the model (log 10, DESIGN CHOICE). -/
def Obligations.RemoteWakeupUnsupported : Prop :=
  ∀ s : State,
    exec .remoteWakeup s = .next { s with log := .result .bus (.error .unsupported) :: s.log } ∧
    ∀ r, decode .op (0x46#8 :: r) = .ok .remoteWakeup

/-- Every operation that takes an endpoint number or address aborts when it exceeds 7, before any state change
(R315). -/
def Obligations.NumberAboveSevenAborts : Prop :=
  ∀ (s : State) (a : EpAddr), s.cfg.layout = Config.Layout.std → 7 < a.num.toNat →
    (∀ b, exec (.epSetStalled a b) s = .fault .abort) ∧
    exec (.epIsStalled a) s = .fault .abort ∧
    (∀ b, exec (.epSetEnabled a b) s = .fault .abort) ∧
    exec (.epInfo a) s = .fault .abort ∧
    exec (.epWaitEnabled a) s = .fault .abort ∧
    (∀ n, exec (.epRead a n) s = .fault .abort) ∧
    (∀ data, exec (.epWrite a data) s = .fault .abort) ∧
    (∀ n d, 7 < n → exec (.bufmap n d) s = .fault .abort) ∧
    (∀ d ty mps iv, s.fw.life ≠ .started → s.fw.busEnabled = false → ty ≠ .isochronous →
      exec (allocInstr d ty (some a) mps iv) s = .fault .abort)

/-- Event flags are set and `WAKE` is fired by the handler only (R32, R33): every other operation into which
nothing falls at most clears them. -/
def Obligations.OnlyHandlerSetsFlags : Prop :=
  ∀ (i : Instr) (s t : State), Quiet s → i ≠ .irq → exec i s = .next t →
    (∀ k : Fin 8, t.fw.evf[k] = true → s.fw.evf[k] = true) ∧ (t.fw.wake = true → s.fw.wake = true)

/-- The configuration latch is set by `CP_SETUP` only (R34, R263), whatever falls into the operation. -/
def Obligations.LatchSetOnlyBySetup : Prop :=
  ∀ (i : Instr) (s t : State), exec i s = .next t → t.fw.cfgLatch = true → s.fw.cfgLatch = true ∨ i = .cpSetup

/-! ## The control pipe -/

/-- `CP_MAX_PACKET_SIZE` returns `CTRL_MPS` and changes nothing (R261). -/
def Obligations.ControlSizeReturned : Prop :=
  ∀ s : State, exec .cpMaxPacketSize s = .next { s with log := .result .control (.number s.fw.ctrlMps) :: s.log }

/-- `CP_SETUP` with the EP0 flag set (R262, R263): the flag is consumed, the eight bytes returned, the phase set,
and at SET_CONFIGURATION the latch is set and the hold of every task held in `EP_WAIT_ENABLED`, and of no other, is
lifted; none of them steps here (R79). How a woken call goes on is log 26 (DEDUCED). -/
def Obligations.SetupReturnsPacket : Prop :=
  ∀ s : State, Quiet s → s.cfg.layout = Config.Layout.std → s.tasks.control = none →
    s.fw.evf[(4 : Fin 8)] = true → Unraced s 0 8 →
    ∃ t, exec .cpSetup s = .next t ∧
      t.fw.cfgLatch = (s.fw.cfgLatch || (decide (byteAt s 0 = 0x00#8) && decide (byteAt s 1 = 0x09#8))) ∧
      (t.fw.cfgLatch = s.fw.cfgLatch → t.tasks = s.tasks) ∧
      (t.fw.cfgLatch ≠ s.fw.cfgLatch → ∀ n : Fin 8, t.tasks.eps[n] =
        if s.tasks.eps[n] = .waitEnabled then .released else s.tasks.eps[n]) ∧
      t = { s with
        fw := { s.fw with
          evf := s.fw.evf.set 4 false, phase := .setupReceived, cfgLatch := t.fw.cfgLatch }
        tasks := { s.tasks with eps := t.tasks.eps }
        log := .result .control (.bytes (storedBytes s 0 8)) :: s.log }

/-- The bounded polls (R262, R264, R265, R269, R314): a first check that fails leaves the call at a yield with its
budget less one; a call with `k` checks left whose condition never holds is, after `j` more of them, held with `k - j`
left, and after the last one and its yield returns its soft timeout, having written nothing. The budgets are free (log
3), held calls are log 6, and that the data calls do this in every `PHASE` is the model's choice (log 7, DEDUCED). -/
def Obligations.BoundedPollsTimeOut : Prop :=
  ∀ (s : State) (k : Nat), Quiet s → s.cfg.layout = Config.Layout.std →
    (s.fw.evf[(4 : Fin 8)] = false →
      (s.tasks.control = none → exec .cpSetup s =
        .next { s with tasks := { s.tasks with control := some (.setup s.cfg.setupMoreChecks) } }) ∧
      (s.tasks.control = some (.setup k) →
        (∀ j ≤ k, resumeControlTimes j s =
          .next { s with tasks := { s.tasks with control := some (.setup (k - j)) } }) ∧
        resumeControlTimes (k + 1) s = .next { s with
          tasks := { s.tasks with control := none }
          log := .result .control (.bytes [0#8, 0#8, 0#8, 0#8, 0#8, 0#8, 0#8, 0#8]) :: s.log })) ∧
    (s.hw.eps[(0 : Fin 8)].csr.nakrx = false ∨ s.hw.eps[(0 : Fin 8)].csr.stlrx = true → ∀ len first last,
      (s.tasks.control = none → exec (.cpDataOut len first last) s = .next { s with
        fw := { s.fw with phase := .dataOut }
        tasks := { s.tasks with control := some (.dataOut s.cfg.ctrlMoreChecks len) } }) ∧
      (s.tasks.control = some (.dataOut k len) →
        (∀ j ≤ k, resumeControlTimes j s =
          .next { s with tasks := { s.tasks with control := some (.dataOut (k - j) len) } }) ∧
        resumeControlTimes (k + 1) s = .next { s with
          tasks := { s.tasks with control := none }, log := .result .control (.bytes []) :: s.log })) ∧
    (s.hw.eps[(0 : Fin 8)].csr.naktx = false ∨ s.hw.eps[(0 : Fin 8)].csr.stltx = true → ∀ data first last,
      (s.tasks.control = none → exec (.cpDataIn data first last) s = .next { s with
        tasks := { s.tasks with control := some (.dataIn s.cfg.ctrlMoreChecks data last) } }) ∧
      (s.tasks.control = some (.dataIn k data last) →
        (∀ j ≤ k, resumeControlTimes j s =
          .next { s with tasks := { s.tasks with control := some (.dataIn (k - j) data last) } }) ∧
        resumeControlTimes (k + 1) s = .next { s with
          fw := { s.fw with phase := if last then .idle else .dataIn }
          tasks := { s.tasks with control := none }, log := .result .control .unit :: s.log }))

/-- A held call whose condition holds goes on exactly as a fresh call in that state would (R222, R262, R264,
R265, R269; held calls are log 6). -/
def Obligations.HeldCallGoesOnAsFresh : Prop :=
  ∀ (s : State) (k : Nat), Quiet s → s.cfg.layout = Config.Layout.std →
    (s.tasks.pollHeld = true → s.fw.wake = true →
      resumeTask .bus s = exec .poll { s with tasks := { s.tasks with pollHeld := false } }) ∧
    (s.tasks.control = some (.setup (k + 1)) → s.fw.evf[(4 : Fin 8)] = true →
      resumeTask .control s = exec .cpSetup { s with tasks := { s.tasks with control := none } }) ∧
    (∀ len first last, s.tasks.control = some (.dataOut (k + 1) len) → s.fw.phase = .dataOut →
      s.hw.eps[(0 : Fin 8)].csr.nakrx = true → s.hw.eps[(0 : Fin 8)].csr.stlrx = false →
      resumeTask .control s =
        exec (.cpDataOut len first last) { s with tasks := { s.tasks with control := none } }) ∧
    (∀ data first last, s.tasks.control = some (.dataIn (k + 1) data last) →
      s.hw.eps[(0 : Fin 8)].csr.naktx = true → s.hw.eps[(0 : Fin 8)].csr.stltx = false →
      resumeTask .control s =
        exec (.cpDataIn data first last) { s with tasks := { s.tasks with control := none } })

/-- `CP_DATA_OUT` with a packet waiting (R264): `min(len, RXCNT, 64)` bytes, the buffer back to the SIE, the phase. That
it does this in every `PHASE` is the model's choice (log 7, DEDUCED). -/
def Obligations.DataOutTakesPacket : Prop :=
  ∀ (s : State) (len k : Nat) (first last : Bool), Quiet s → s.cfg.layout = Config.Layout.std →
    s.tasks.control = none → s.hw.eps[(0 : Fin 8)].csr.nakrx = true → s.hw.eps[(0 : Fin 8)].csr.stlrx = false →
    k = min (min len s.hw.eps[(0 : Fin 8)].rxcnt.toNat) 64 → Unraced s 0x048 k →
    exec (.cpDataOut len first last) s = .next { s with
      hw := { s.hw with eps := s.hw.eps.set 0 { s.hw.eps[(0 : Fin 8)] with
        csr := { s.hw.eps[(0 : Fin 8)].csr with nakrx := false } } }
      fw := { s.fw with phase := .dataOut }
      log := .result .control (.bytes (storedBytes s 0x048 k)) :: s.log }

/-- `CP_DATA_IN` with the TX buffer ready (R265): at most 64 bytes stored at 0x008, the count, the handover, the
phase; every other byte as before; no older byte is left where firmware owned the buffer (R75(a)). That it does this in
every `PHASE` is the model's choice (log 7, DEDUCED). -/
def Obligations.DataInArmsPacket : Prop :=
  ∀ (s : State) (data d : List Byte) (first last : Bool), Quiet s → s.cfg.layout = Config.Layout.std →
    s.tasks.control = none → s.hw.eps[(0 : Fin 8)].csr.naktx = true → s.hw.eps[(0 : Fin 8)].csr.stltx = false →
    d = data.take 64 →
    ∃ t, exec (.cpDataIn data first last) s = .next t ∧
      storedBytes t 0x008 d.length = d ∧ SameOutside s t 0x008 d.length ∧
      (∀ k, 0x008 ≤ k → k < 0x008 + d.length →
        racedAt t k = if sieOwns s k then byteAt s k :: racedAt s k else []) ∧
      t.hw.eps[(0 : Fin 8)].txcnt.toNat = d.length ∧
      t = { s with
        hw := { s.hw with
          sram := t.hw.sram, raced := t.hw.raced
          eps := s.hw.eps.set 0 { s.hw.eps[(0 : Fin 8)] with
            txcnt := t.hw.eps[(0 : Fin 8)].txcnt
            txcntOld := []
            csr := { s.hw.eps[(0 : Fin 8)].csr with naktx := false } } }
        fw := { s.fw with phase := if last then .idle else .dataIn }
        log := .result .control .unit :: s.log }

/-- `CP_ACCEPT` and `CP_ACCEPT_SET_ADDRESS` (R266, R268): both EP0 stall bits cleared, the zero-length status packet
armed under `ACCEPT_ARMS_STATUS`, the phase; the latter first writes the address and makes it pending.
That they do this in every `PHASE` is the model's choice (log 7, DEDUCED); the counts a race may still use are log 9. -/
def Obligations.AcceptArmsStatus : Prop :=
  ∀ (s : State) (addr : BitVec 7) (e : Endpoint), Quiet s → s.tasks.control = none →
    e = (if s.cfg.acceptArmsStatus then
      { s.hw.eps[(0 : Fin 8)] with
        txcnt := 0
        txcntOld := if s.hw.eps[(0 : Fin 8)].csr.naktx then []
          else s.hw.eps[(0 : Fin 8)].txcnt :: s.hw.eps[(0 : Fin 8)].txcntOld
        csr := { s.hw.eps[(0 : Fin 8)].csr with stltx := false, stlrx := false, naktx := false } }
      else { s.hw.eps[(0 : Fin 8)] with
        csr := { s.hw.eps[(0 : Fin 8)].csr with stltx := false, stlrx := false } }) →
    exec .cpAccept s = .next { s with
      hw := { s.hw with eps := s.hw.eps.set 0 e }
      fw := { s.fw with phase := .idle }
      log := .result .control .unit :: s.log } ∧
    exec (.cpAcceptSetAddress addr) s = .next { s with
      hw := { s.hw with eps := s.hw.eps.set 0 e, devar := addr, addrPending := true }
      fw := { s.fw with phase := .idle }
      log := .result .control .unit :: s.log }

/-- `CP_REJECT` sets both EP0 stall bits and touches no NAK bit, count or toggle (R267). That it does this in every
`PHASE` is the model's choice (log 7, DEDUCED). -/
def Obligations.RejectStallsControl : Prop :=
  ∀ s : State, Quiet s → s.tasks.control = none →
    exec .cpReject s = .next { s with
      hw := { s.hw with eps := s.hw.eps.set 0 { s.hw.eps[(0 : Fin 8)] with
        csr := { s.hw.eps[(0 : Fin 8)].csr with stltx := true, stlrx := true } } }
      fw := { s.fw with phase := .idle }
      log := .result .control .unit :: s.log }

/-! ## Endpoint I/O -/

/-- `EP_WAIT_ENABLED` returns at once while the latch is set and is held otherwise; a held one has no step while the
latch is clear, and one that the latch woke re-reads it when its task is scheduled, and returns or waits again (R290,
R357; log 26); an `EP_WRITE` that is held takes a wake before each check, returns when `NAKTX` reads 1 and waits again
otherwise (R292, R294(d); how a held call goes on is log 6). That `EP_WAIT_ENABLED` runs on every number 0 to 7 and
either direction is the model's choice (log 33, DESIGN CHOICE). -/
def Obligations.EndpointWaits : Prop :=
  ∀ (s : State) (a : EpAddr) (n : Fin 8), s.cfg.layout = Config.Layout.std →
    a.num = BitVec.ofNat 4 n.val →
    (s.tasks.eps[n] = .idle → s.fw.cfgLatch = true → exec (.epWaitEnabled a) s =
      .next { s with log := .result (.endpoint n) .unit :: s.log }) ∧
    (s.tasks.eps[n] = .idle → s.fw.cfgLatch = false → exec (.epWaitEnabled a) s =
      .next { s with tasks := { s.tasks with eps := s.tasks.eps.set n .waitEnabled } }) ∧
    (s.tasks.eps[n] = .waitEnabled → s.fw.cfgLatch = false → resumeTask (.endpoint n) s = .next s) ∧
    (s.tasks.eps[n] = .released → s.fw.cfgLatch = false → resumeTask (.endpoint n) s =
      .next { s with tasks := { s.tasks with eps := s.tasks.eps.set n .waitEnabled } }) ∧
    (s.tasks.eps[n] = .waitEnabled ∨ s.tasks.eps[n] = .released → s.fw.cfgLatch = true →
      resumeTask (.endpoint n) s = .next { s with
        tasks := { s.tasks with eps := s.tasks.eps.set n .idle }
        log := .result (.endpoint n) .unit :: s.log }) ∧
    (Quiet s → s.tasks.eps[n] = .writing →
      (s.fw.wake = false → resumeTask (.endpoint n) s = .next s) ∧
      (s.fw.wake = true → s.hw.eps[n].csr.naktx = false → resumeTask (.endpoint n) s =
        .next { s with fw := { s.fw with wake := false } }) ∧
      (s.fw.wake = true → s.hw.eps[n].csr.naktx = true → resumeTask (.endpoint n) s = .next { s with
        fw := { s.fw with wake := false }
        tasks := { s.tasks with eps := s.tasks.eps.set n .idle }
        log := .result (.endpoint n) .unit :: s.log }))

/-- `EP_READ` inside its contract (R291): `min(len, RXCNT)` bytes of the region and the buffer back to the SIE, or
the empty sequence at once when no packet waits or the endpoint is stalled. -/
def Obligations.ReadTakesPacket : Prop :=
  ∀ (s : State) (n : Fin 8) (i : EpInfo) (len k : Nat), Quiet s → s.cfg.layout = Config.Layout.std →
    n ≠ 0 → s.fw.epinfo[n] = some i → i.address.dir = .out → s.tasks.eps[n] = .idle → len ≤ i.maxPacketSize →
    (s.hw.eps[n].csr.nakrx = true → s.hw.eps[n].csr.stlrx = false →
      k = min len s.hw.eps[n].rxcnt.toNat → Unraced s (0x088 + 124 * (n.val - 1)) k →
      exec (.epRead ⟨BitVec.ofNat 4 n.val, .out⟩ len) s = .next { s with
        hw := { s.hw with eps := s.hw.eps.set n { s.hw.eps[n] with
          csr := { s.hw.eps[n].csr with nakrx := false } } }
        log := .result (.endpoint n) (.bytes (storedBytes s (0x088 + 124 * (n.val - 1)) k)) :: s.log }) ∧
    (s.hw.eps[n].csr.nakrx = false ∨ s.hw.eps[n].csr.stlrx = true →
      exec (.epRead ⟨BitVec.ofNat 4 n.val, .out⟩ len) s =
        .next { s with log := .result (.endpoint n) (.bytes []) :: s.log })

/-- A buffer longer than the negotiated size is `BufferOverflow` with no state changed (R291, R292, R312); outside the
contract of the handles the call is refused: endpoint 0, an endpoint with no record, a handle of the other direction,
or one whose record is of the other direction (R293, log 18). -/
def Obligations.TransferChecksComeFirst : Prop :=
  ∀ (s : State) (n : Fin 8) (len : Nat) (data : List Byte), s.cfg.layout = Config.Layout.std →
    (∀ i, n ≠ 0 → s.fw.epinfo[n] = some i → s.tasks.eps[n] = .idle →
      (i.address.dir = .out → i.maxPacketSize < len →
        exec (.epRead ⟨BitVec.ofNat 4 n.val, .out⟩ len) s =
          .next { s with log := .result (.endpoint n) (.error .bufferOverflow) :: s.log }) ∧
      (i.address.dir = .inp → i.maxPacketSize < data.length →
        exec (.epWrite ⟨BitVec.ofNat 4 n.val, .inp⟩ data) s =
          .next { s with log := .result (.endpoint n) (.error .bufferOverflow) :: s.log })) ∧
    (n = 0 ∨ s.fw.epinfo[n] = none → ∀ d,
      exec (.epRead ⟨BitVec.ofNat 4 n.val, d⟩ len) s = .refused .handleContract ∧
      exec (.epWrite ⟨BitVec.ofNat 4 n.val, d⟩ data) s = .refused .handleContract) ∧
    (∀ i, s.fw.epinfo[n] = some i →
      (i.address.dir = .inp → exec (.epRead ⟨BitVec.ofNat 4 n.val, .out⟩ len) s = .refused .handleContract) ∧
      (i.address.dir = .out → exec (.epWrite ⟨BitVec.ofNat 4 n.val, .inp⟩ data) s = .refused .handleContract)) ∧
    exec (.epRead ⟨BitVec.ofNat 4 n.val, .inp⟩ len) s = .refused .handleContract ∧
    exec (.epWrite ⟨BitVec.ofNat 4 n.val, .out⟩ data) s = .refused .handleContract

/-- `EP_WRITE` inside its contract (R292): the bytes at the base of the region, the count, the handover, and the call
is held until it takes a wake; every other byte and register as before. Where a packet was still
armed, the older bytes and the older count race on (R292(g), log 8, 9). -/
def Obligations.WriteArmsPacket : Prop :=
  ∀ (s : State) (n : Fin 8) (i : EpInfo) (data : List Byte), Quiet s → Sound s →
    n ≠ 0 → s.fw.epinfo[n] = some i → i.address.dir = .inp → s.tasks.eps[n] = .idle →
    data.length ≤ i.maxPacketSize →
    ∃ t, exec (.epWrite ⟨BitVec.ofNat 4 n.val, .inp⟩ data) s = .next t ∧
      storedBytes t (0x088 + 124 * (n.val - 1)) data.length = data ∧
      SameOutside s t (0x088 + 124 * (n.val - 1)) data.length ∧
      (∀ k, 0x088 + 124 * (n.val - 1) ≤ k → k < 0x088 + 124 * (n.val - 1) + data.length →
        racedAt t k = if sieOwns s k then byteAt s k :: racedAt s k else []) ∧
      t.hw.eps[n].txcnt.toNat = data.length ∧
      t = { s with
        hw := { s.hw with
          sram := t.hw.sram, raced := t.hw.raced
          eps := s.hw.eps.set n { s.hw.eps[n] with
            txcnt := t.hw.eps[n].txcnt
            txcntOld := if s.hw.eps[n].csr.naktx then [] else s.hw.eps[n].txcnt :: s.hw.eps[n].txcntOld
            csr := { s.hw.eps[n].csr with naktx := false } } }
        tasks := { s.tasks with eps := s.tasks.eps.set n .writing } }

/-! ## Races the model must admit -/

/-- A SETUP that arrives between the two word reads of `CP_SETUP` tears the packet (R363). -/
def Obligations.SetupReadCanTear : Prop :=
  ∀ (s : State) (addr : BitVec 7) (ep : BitVec 4) (new : List Byte), s.cfg.layout = Config.Layout.std →
    s.tasks.control = none → s.fw.evf[(4 : Fin 8)] = true → Unraced s 0 8 →
    matchToken .setup addr ep s = some 0 → s.hw.eps[(0 : Fin 8)].cfgr.eptype ≠ .isochronous →
    new.length = 8 → s.sched = [[], [.bus (.setup addr ep new)]] →
    ∃ t, exec .cpSetup s = .next t ∧
      t.log.head? = some (.result .control (.bytes (storedBytes s 0 4 ++ new.drop 4)))

/-- A SETUP accepted after the bus reset and before the handler's pulse is answered and then loses its toggles
(R355). -/
def Obligations.LatePulseWipesSetup : Prop :=
  ∀ (s : State) (addr : BitVec 7) (ep : BitVec 4) (data : List Byte), s.cfg.layout = Config.Layout.std →
    matchToken .setup addr ep s = some 0 → s.hw.eps[(0 : Fin 8)].cfgr.eptype ≠ .isochronous →
    data.length = 8 → s.hw.isr.urstif = true → s.sched = [[], [], [.bus (.setup addr ep data)]] →
    ∃ t, exec .irq s = .next t ∧ t.log = .answer .ack :: s.log ∧
      t.hw.eps[(0 : Fin 8)].dtgTx = false ∧ t.hw.eps[(0 : Fin 8)].dtgRx = false ∧
      t.hw.isr.ep0if = true

/-- A SETUP that arrives between the read and the write of `CP_REJECT` is accepted and then stalled although nobody
rejected it (R367(a)). -/
def Obligations.RejectCanStallNewSetup : Prop :=
  ∀ (s : State) (addr : BitVec 7) (ep : BitVec 4) (data : List Byte), s.cfg.layout = Config.Layout.std →
    s.tasks.control = none → matchToken .setup addr ep s = some 0 →
    s.hw.eps[(0 : Fin 8)].cfgr.eptype ≠ .isochronous → data.length = 8 →
    s.hw.eps[(0 : Fin 8)].csr.stltx = false → s.hw.eps[(0 : Fin 8)].csr.stlrx = false →
    s.sched = [[.bus (.setup addr ep data)]] →
    ∃ t, exec .cpReject s = .next t ∧ t.log = .result .control .unit :: .answer .ack :: s.log ∧
      t.hw.eps[(0 : Fin 8)].csr.stltx = true ∧ t.hw.eps[(0 : Fin 8)].csr.stlrx = true

/-- An armed packet sent while its bytes or its count race goes out with the stored count or an older one, and at each
offset independently the stored byte or an older one that firmware overwrote while the SIE owned the buffer (R78, R138,
R168; held as log 8 and 9 say). -/
def Obligations.RacedPacketMixesBytes : Prop :=
  ∀ (s t : State) (addr : BitVec 7) (ep : BitVec 4) (ack : Bool) (n : Fin 8) (base : Nat), Sound s →
    matchToken .inp addr ep s = some n → s.hw.eps[n].csr.stltx = false → s.hw.eps[n].csr.naktx = false →
    base = (if n = 0 then 0x008 else s.hw.eps[n].cfgr.epbufa.toNat) →
    exec (.bIn addr ep ack) s = .next t →
    ∃ bytes : List Byte, t.log = .answer (.data s.hw.eps[n].dtgTx bytes) :: s.log ∧
      bytes.length ∈ (s.hw.eps[n].txcnt :: s.hw.eps[n].txcntOld).map BitVec.toNat ∧
      ∀ (k : Nat) (b : Byte), bytes[k]? = some b → b ∈ byteAt s (base + k) :: racedAt s (base + k)

/-- What a held call excludes is refused: `POLL` while a `POLL` is held; `CP_SETUP`, `CP_DATA_OUT`, `CP_DATA_IN`,
`CP_ACCEPT`, `CP_REJECT` and `CP_ACCEPT_SET_ADDRESS` while the control task is held; `EP_WAIT_ENABLED`, `EP_READ` and
`EP_WRITE` of an endpoint whose task is held (R222, R293, 44 header; as refusals they are the model's, log 18). Not
refused, and not in this statement, are `CP_MAX_PACKET_SIZE` (log 18), `EP_INFO` (log 33) and the bus operations other
than `POLL` (log 34). -/
def Obligations.BusyTasksRefuse : Prop :=
  ∀ s : State, s.cfg.layout = Config.Layout.std →
    (s.tasks.pollHeld = true → exec .poll s = .refused .taskBusy) ∧
    (s.tasks.control ≠ none →
      exec .cpSetup s = .refused .taskBusy ∧ exec .cpAccept s = .refused .taskBusy ∧
      exec .cpReject s = .refused .taskBusy ∧
      (∀ addr, exec (.cpAcceptSetAddress addr) s = .refused .taskBusy) ∧
      (∀ len first last, exec (.cpDataOut len first last) s = .refused .taskBusy) ∧
      (∀ data first last, exec (.cpDataIn data first last) s = .refused .taskBusy)) ∧
    (∀ n : Fin 8, s.tasks.eps[n] ≠ .idle →
      (∀ d, exec (.epWaitEnabled ⟨BitVec.ofNat 4 n.val, d⟩) s = .refused .taskBusy) ∧
      (∀ i, n ≠ 0 → s.fw.epinfo[n] = some i →
        (i.address.dir = .out → ∀ len, exec (.epRead ⟨BitVec.ofNat 4 n.val, .out⟩ len) s = .refused .taskBusy) ∧
        (i.address.dir = .inp → ∀ data, exec (.epWrite ⟨BitVec.ofNat 4 n.val, .inp⟩ data) s = .refused .taskBusy)))

end
end

