-- ==== Sys2Proof/Laws/State.lean ====
section
/-! SUPPORT. What each named update of the state leaves and changes: one lemma per field. -/

namespace Sys2Proof.Machine

variable (s : State)


/-! ### `setEp` -/

@[simp] theorem setEp_cfg (n : Fin 8) (f : Endpoint → Endpoint) : (setEp n f s).cfg = s.cfg := rfl
@[simp] theorem setEp_hw_csr (n : Fin 8) (f : Endpoint → Endpoint) : (setEp n f s).hw.csr = s.hw.csr := rfl
@[simp] theorem setEp_hw_ier (n : Fin 8) (f : Endpoint → Endpoint) : (setEp n f s).hw.ier = s.hw.ier := rfl
@[simp] theorem setEp_hw_isr (n : Fin 8) (f : Endpoint → Endpoint) : (setEp n f s).hw.isr = s.hw.isr := rfl
@[simp] theorem setEp_hw_devar (n : Fin 8) (f : Endpoint → Endpoint) : (setEp n f s).hw.devar = s.hw.devar := rfl
@[simp] theorem setEp_hw_eps (n : Fin 8) (f : Endpoint → Endpoint) :
    (setEp n f s).hw.eps = s.hw.eps.set n (f s.hw.eps[n]) := rfl
@[simp] theorem setEp_hw_addrActive (n : Fin 8) (f : Endpoint → Endpoint) : (setEp n f s).hw.addrActive = s.hw.addrActive := rfl
@[simp] theorem setEp_hw_addrPending (n : Fin 8) (f : Endpoint → Endpoint) : (setEp n f s).hw.addrPending = s.hw.addrPending := rfl
@[simp] theorem setEp_hw_sram (n : Fin 8) (f : Endpoint → Endpoint) : (setEp n f s).hw.sram = s.hw.sram := rfl
@[simp] theorem setEp_hw_epoch (n : Fin 8) (f : Endpoint → Endpoint) : (setEp n f s).hw.epoch = s.hw.epoch := rfl
@[simp] theorem setEp_hw_raced (n : Fin 8) (f : Endpoint → Endpoint) : (setEp n f s).hw.raced = s.hw.raced := rfl
@[simp] theorem setEp_hw_draws (n : Fin 8) (f : Endpoint → Endpoint) : (setEp n f s).hw.draws = s.hw.draws := rfl
@[simp] theorem setEp_fw (n : Fin 8) (f : Endpoint → Endpoint) : (setEp n f s).fw = s.fw := rfl
@[simp] theorem setEp_tasks (n : Fin 8) (f : Endpoint → Endpoint) : (setEp n f s).tasks = s.tasks := rfl
@[simp] theorem setEp_inbox (n : Fin 8) (f : Endpoint → Endpoint) : (setEp n f s).inbox = s.inbox := rfl
@[simp] theorem setEp_sched (n : Fin 8) (f : Endpoint → Endpoint) : (setEp n f s).sched = s.sched := rfl
@[simp] theorem setEp_log (n : Fin 8) (f : Endpoint → Endpoint) : (setEp n f s).log = s.log := rfl

/-! ### `endRaces` -/

@[simp] theorem endRaces_cfg (u : State) : (endRaces u s).cfg = s.cfg := rfl
@[simp] theorem endRaces_hw_csr (u : State) : (endRaces u s).hw.csr = s.hw.csr := rfl
@[simp] theorem endRaces_hw_ier (u : State) : (endRaces u s).hw.ier = s.hw.ier := rfl
@[simp] theorem endRaces_hw_isr (u : State) : (endRaces u s).hw.isr = s.hw.isr := rfl
@[simp] theorem endRaces_hw_devar (u : State) : (endRaces u s).hw.devar = s.hw.devar := rfl
@[simp] theorem endRaces_hw_eps (u : State) : (endRaces u s).hw.eps = s.hw.eps := rfl
@[simp] theorem endRaces_hw_addrActive (u : State) : (endRaces u s).hw.addrActive = s.hw.addrActive := rfl
@[simp] theorem endRaces_hw_addrPending (u : State) : (endRaces u s).hw.addrPending = s.hw.addrPending := rfl
@[simp] theorem endRaces_hw_sram (u : State) : (endRaces u s).hw.sram = s.hw.sram := rfl
@[simp] theorem endRaces_hw_epoch (u : State) : (endRaces u s).hw.epoch = s.hw.epoch := rfl
@[simp] theorem endRaces_hw_raced (u : State) :
    (endRaces u s).hw.raced = s.hw.raced.filter fun c => !givenBack u s c.1 := rfl
@[simp] theorem endRaces_hw_draws (u : State) : (endRaces u s).hw.draws = s.hw.draws := rfl
@[simp] theorem endRaces_fw (u : State) : (endRaces u s).fw = s.fw := rfl
@[simp] theorem endRaces_tasks (u : State) : (endRaces u s).tasks = s.tasks := rfl
@[simp] theorem endRaces_inbox (u : State) : (endRaces u s).inbox = s.inbox := rfl
@[simp] theorem endRaces_sched (u : State) : (endRaces u s).sched = s.sched := rfl
@[simp] theorem endRaces_log (u : State) : (endRaces u s).log = s.log := rfl

/-! ### `updateEp` -/

@[simp] theorem updateEp_cfg (n : Fin 8) (f : Endpoint → Endpoint) : (updateEp n f s).cfg = s.cfg := rfl
@[simp] theorem updateEp_hw_csr (n : Fin 8) (f : Endpoint → Endpoint) : (updateEp n f s).hw.csr = s.hw.csr := rfl
@[simp] theorem updateEp_hw_ier (n : Fin 8) (f : Endpoint → Endpoint) : (updateEp n f s).hw.ier = s.hw.ier := rfl
@[simp] theorem updateEp_hw_isr (n : Fin 8) (f : Endpoint → Endpoint) : (updateEp n f s).hw.isr = s.hw.isr := rfl
@[simp] theorem updateEp_hw_devar (n : Fin 8) (f : Endpoint → Endpoint) : (updateEp n f s).hw.devar = s.hw.devar := rfl
@[simp] theorem updateEp_hw_eps (n : Fin 8) (f : Endpoint → Endpoint) :
    (updateEp n f s).hw.eps = s.hw.eps.set n (countBack s.hw.eps[n] (f s.hw.eps[n])) := rfl
@[simp] theorem updateEp_hw_addrActive (n : Fin 8) (f : Endpoint → Endpoint) : (updateEp n f s).hw.addrActive = s.hw.addrActive := rfl
@[simp] theorem updateEp_hw_addrPending (n : Fin 8) (f : Endpoint → Endpoint) : (updateEp n f s).hw.addrPending = s.hw.addrPending := rfl
@[simp] theorem updateEp_hw_sram (n : Fin 8) (f : Endpoint → Endpoint) : (updateEp n f s).hw.sram = s.hw.sram := rfl
@[simp] theorem updateEp_hw_epoch (n : Fin 8) (f : Endpoint → Endpoint) : (updateEp n f s).hw.epoch = s.hw.epoch := rfl
@[simp] theorem updateEp_hw_draws (n : Fin 8) (f : Endpoint → Endpoint) : (updateEp n f s).hw.draws = s.hw.draws := rfl
@[simp] theorem updateEp_fw (n : Fin 8) (f : Endpoint → Endpoint) : (updateEp n f s).fw = s.fw := rfl
@[simp] theorem updateEp_tasks (n : Fin 8) (f : Endpoint → Endpoint) : (updateEp n f s).tasks = s.tasks := rfl
@[simp] theorem updateEp_inbox (n : Fin 8) (f : Endpoint → Endpoint) : (updateEp n f s).inbox = s.inbox := rfl
@[simp] theorem updateEp_sched (n : Fin 8) (f : Endpoint → Endpoint) : (updateEp n f s).sched = s.sched := rfl
@[simp] theorem updateEp_log (n : Fin 8) (f : Endpoint → Endpoint) : (updateEp n f s).log = s.log := rfl

/-! ### `raiseStatus` -/

@[simp] theorem raiseStatus_cfg (v : Isr) : (raiseStatus v s).cfg = s.cfg := rfl
@[simp] theorem raiseStatus_hw_csr (v : Isr) : (raiseStatus v s).hw.csr = s.hw.csr := rfl
@[simp] theorem raiseStatus_hw_ier (v : Isr) : (raiseStatus v s).hw.ier = s.hw.ier := rfl
@[simp] theorem raiseStatus_hw_isr (v : Isr) :
    (raiseStatus v s).hw.isr = s.hw.isr.or v := rfl
@[simp] theorem raiseStatus_hw_devar (v : Isr) : (raiseStatus v s).hw.devar = s.hw.devar := rfl
@[simp] theorem raiseStatus_hw_eps (v : Isr) : (raiseStatus v s).hw.eps = s.hw.eps := rfl
@[simp] theorem raiseStatus_hw_addrActive (v : Isr) : (raiseStatus v s).hw.addrActive = s.hw.addrActive := rfl
@[simp] theorem raiseStatus_hw_addrPending (v : Isr) : (raiseStatus v s).hw.addrPending = s.hw.addrPending := rfl
@[simp] theorem raiseStatus_hw_sram (v : Isr) : (raiseStatus v s).hw.sram = s.hw.sram := rfl
@[simp] theorem raiseStatus_hw_epoch (v : Isr) : (raiseStatus v s).hw.epoch = s.hw.epoch := rfl
@[simp] theorem raiseStatus_hw_raced (v : Isr) : (raiseStatus v s).hw.raced = s.hw.raced := rfl
@[simp] theorem raiseStatus_hw_draws (v : Isr) : (raiseStatus v s).hw.draws = s.hw.draws := rfl
@[simp] theorem raiseStatus_fw (v : Isr) : (raiseStatus v s).fw = s.fw := rfl
@[simp] theorem raiseStatus_tasks (v : Isr) : (raiseStatus v s).tasks = s.tasks := rfl
@[simp] theorem raiseStatus_inbox (v : Isr) : (raiseStatus v s).inbox = s.inbox := rfl
@[simp] theorem raiseStatus_sched (v : Isr) : (raiseStatus v s).sched = s.sched := rfl
@[simp] theorem raiseStatus_log (v : Isr) : (raiseStatus v s).log = s.log := rfl

/-! ### `clearStatus` -/

@[simp] theorem clearStatus_cfg (v : Isr) : (clearStatus v s).cfg = s.cfg := rfl
@[simp] theorem clearStatus_hw_csr (v : Isr) : (clearStatus v s).hw.csr = s.hw.csr := rfl
@[simp] theorem clearStatus_hw_ier (v : Isr) : (clearStatus v s).hw.ier = s.hw.ier := rfl
@[simp] theorem clearStatus_hw_isr (v : Isr) :
    (clearStatus v s).hw.isr = s.hw.isr.clear v := rfl
@[simp] theorem clearStatus_hw_devar (v : Isr) : (clearStatus v s).hw.devar = s.hw.devar := rfl
@[simp] theorem clearStatus_hw_eps (v : Isr) : (clearStatus v s).hw.eps = s.hw.eps := rfl
@[simp] theorem clearStatus_hw_addrActive (v : Isr) : (clearStatus v s).hw.addrActive = s.hw.addrActive := rfl
@[simp] theorem clearStatus_hw_addrPending (v : Isr) : (clearStatus v s).hw.addrPending = s.hw.addrPending := rfl
@[simp] theorem clearStatus_hw_sram (v : Isr) : (clearStatus v s).hw.sram = s.hw.sram := rfl
@[simp] theorem clearStatus_hw_epoch (v : Isr) : (clearStatus v s).hw.epoch = s.hw.epoch := rfl
@[simp] theorem clearStatus_hw_raced (v : Isr) : (clearStatus v s).hw.raced = s.hw.raced := rfl
@[simp] theorem clearStatus_hw_draws (v : Isr) : (clearStatus v s).hw.draws = s.hw.draws := rfl
@[simp] theorem clearStatus_fw (v : Isr) : (clearStatus v s).fw = s.fw := rfl
@[simp] theorem clearStatus_tasks (v : Isr) : (clearStatus v s).tasks = s.tasks := rfl
@[simp] theorem clearStatus_inbox (v : Isr) : (clearStatus v s).inbox = s.inbox := rfl
@[simp] theorem clearStatus_sched (v : Isr) : (clearStatus v s).sched = s.sched := rfl
@[simp] theorem clearStatus_log (v : Isr) : (clearStatus v s).log = s.log := rfl

/-! ### `storeCsr` -/

@[simp] theorem storeCsr_cfg (v : Csr) : (storeCsr v s).cfg = s.cfg := rfl
@[simp] theorem storeCsr_hw_csr (v : Csr) :
    (storeCsr v s).hw.csr = v := rfl
@[simp] theorem storeCsr_hw_ier (v : Csr) : (storeCsr v s).hw.ier = s.hw.ier := rfl
@[simp] theorem storeCsr_hw_isr (v : Csr) : (storeCsr v s).hw.isr = s.hw.isr := rfl
@[simp] theorem storeCsr_hw_devar (v : Csr) : (storeCsr v s).hw.devar = s.hw.devar := rfl
@[simp] theorem storeCsr_hw_eps (v : Csr) : (storeCsr v s).hw.eps = s.hw.eps := rfl
@[simp] theorem storeCsr_hw_addrActive (v : Csr) : (storeCsr v s).hw.addrActive = s.hw.addrActive := rfl
@[simp] theorem storeCsr_hw_addrPending (v : Csr) : (storeCsr v s).hw.addrPending = s.hw.addrPending := rfl
@[simp] theorem storeCsr_hw_sram (v : Csr) : (storeCsr v s).hw.sram = s.hw.sram := rfl
@[simp] theorem storeCsr_hw_epoch (v : Csr) : (storeCsr v s).hw.epoch = s.hw.epoch := rfl
@[simp] theorem storeCsr_hw_raced (v : Csr) : (storeCsr v s).hw.raced = s.hw.raced := rfl
@[simp] theorem storeCsr_hw_draws (v : Csr) : (storeCsr v s).hw.draws = s.hw.draws := rfl
@[simp] theorem storeCsr_fw (v : Csr) : (storeCsr v s).fw = s.fw := rfl
@[simp] theorem storeCsr_tasks (v : Csr) : (storeCsr v s).tasks = s.tasks := rfl
@[simp] theorem storeCsr_inbox (v : Csr) : (storeCsr v s).inbox = s.inbox := rfl
@[simp] theorem storeCsr_sched (v : Csr) : (storeCsr v s).sched = s.sched := rfl
@[simp] theorem storeCsr_log (v : Csr) : (storeCsr v s).log = s.log := rfl

/-! ### `writeIer` -/

@[simp] theorem writeIer_cfg (v : Ier) : (writeIer v s).cfg = s.cfg := rfl
@[simp] theorem writeIer_hw_csr (v : Ier) : (writeIer v s).hw.csr = s.hw.csr := rfl
@[simp] theorem writeIer_hw_ier (v : Ier) :
    (writeIer v s).hw.ier = v := rfl
@[simp] theorem writeIer_hw_isr (v : Ier) : (writeIer v s).hw.isr = s.hw.isr := rfl
@[simp] theorem writeIer_hw_devar (v : Ier) : (writeIer v s).hw.devar = s.hw.devar := rfl
@[simp] theorem writeIer_hw_eps (v : Ier) : (writeIer v s).hw.eps = s.hw.eps := rfl
@[simp] theorem writeIer_hw_addrActive (v : Ier) : (writeIer v s).hw.addrActive = s.hw.addrActive := rfl
@[simp] theorem writeIer_hw_addrPending (v : Ier) : (writeIer v s).hw.addrPending = s.hw.addrPending := rfl
@[simp] theorem writeIer_hw_sram (v : Ier) : (writeIer v s).hw.sram = s.hw.sram := rfl
@[simp] theorem writeIer_hw_epoch (v : Ier) : (writeIer v s).hw.epoch = s.hw.epoch := rfl
@[simp] theorem writeIer_hw_raced (v : Ier) : (writeIer v s).hw.raced = s.hw.raced := rfl
@[simp] theorem writeIer_hw_draws (v : Ier) : (writeIer v s).hw.draws = s.hw.draws := rfl
@[simp] theorem writeIer_fw (v : Ier) : (writeIer v s).fw = s.fw := rfl
@[simp] theorem writeIer_tasks (v : Ier) : (writeIer v s).tasks = s.tasks := rfl
@[simp] theorem writeIer_inbox (v : Ier) : (writeIer v s).inbox = s.inbox := rfl
@[simp] theorem writeIer_sched (v : Ier) : (writeIer v s).sched = s.sched := rfl
@[simp] theorem writeIer_log (v : Ier) : (writeIer v s).log = s.log := rfl

/-! ### `writeDevar` -/

@[simp] theorem writeDevar_cfg (a : BitVec 7) : (writeDevar a s).cfg = s.cfg := rfl
@[simp] theorem writeDevar_hw_csr (a : BitVec 7) : (writeDevar a s).hw.csr = s.hw.csr := rfl
@[simp] theorem writeDevar_hw_ier (a : BitVec 7) : (writeDevar a s).hw.ier = s.hw.ier := rfl
@[simp] theorem writeDevar_hw_isr (a : BitVec 7) : (writeDevar a s).hw.isr = s.hw.isr := rfl
@[simp] theorem writeDevar_hw_devar (a : BitVec 7) :
    (writeDevar a s).hw.devar = a := rfl
@[simp] theorem writeDevar_hw_eps (a : BitVec 7) : (writeDevar a s).hw.eps = s.hw.eps := rfl
@[simp] theorem writeDevar_hw_addrActive (a : BitVec 7) : (writeDevar a s).hw.addrActive = s.hw.addrActive := rfl
@[simp] theorem writeDevar_hw_addrPending (a : BitVec 7) :
    (writeDevar a s).hw.addrPending = true := rfl
@[simp] theorem writeDevar_hw_sram (a : BitVec 7) : (writeDevar a s).hw.sram = s.hw.sram := rfl
@[simp] theorem writeDevar_hw_epoch (a : BitVec 7) : (writeDevar a s).hw.epoch = s.hw.epoch := rfl
@[simp] theorem writeDevar_hw_raced (a : BitVec 7) : (writeDevar a s).hw.raced = s.hw.raced := rfl
@[simp] theorem writeDevar_hw_draws (a : BitVec 7) : (writeDevar a s).hw.draws = s.hw.draws := rfl
@[simp] theorem writeDevar_fw (a : BitVec 7) : (writeDevar a s).fw = s.fw := rfl
@[simp] theorem writeDevar_tasks (a : BitVec 7) : (writeDevar a s).tasks = s.tasks := rfl
@[simp] theorem writeDevar_inbox (a : BitVec 7) : (writeDevar a s).inbox = s.inbox := rfl
@[simp] theorem writeDevar_sched (a : BitVec 7) : (writeDevar a s).sched = s.sched := rfl
@[simp] theorem writeDevar_log (a : BitVec 7) : (writeDevar a s).log = s.log := rfl

/-! ### `putByte` -/

@[simp] theorem putByte_cfg (a : Nat) (b : Byte) : (putByte a b s).cfg = s.cfg := rfl
@[simp] theorem putByte_hw_csr (a : Nat) (b : Byte) : (putByte a b s).hw.csr = s.hw.csr := rfl
@[simp] theorem putByte_hw_ier (a : Nat) (b : Byte) : (putByte a b s).hw.ier = s.hw.ier := rfl
@[simp] theorem putByte_hw_isr (a : Nat) (b : Byte) : (putByte a b s).hw.isr = s.hw.isr := rfl
@[simp] theorem putByte_hw_devar (a : Nat) (b : Byte) : (putByte a b s).hw.devar = s.hw.devar := rfl
@[simp] theorem putByte_hw_eps (a : Nat) (b : Byte) : (putByte a b s).hw.eps = s.hw.eps := rfl
@[simp] theorem putByte_hw_addrActive (a : Nat) (b : Byte) : (putByte a b s).hw.addrActive = s.hw.addrActive := rfl
@[simp] theorem putByte_hw_addrPending (a : Nat) (b : Byte) : (putByte a b s).hw.addrPending = s.hw.addrPending := rfl
@[simp] theorem putByte_hw_sram (a : Nat) (b : Byte) :
    (putByte a b s).hw.sram = Memory.store s.hw.sram a b := rfl
@[simp] theorem putByte_hw_epoch (a : Nat) (b : Byte) : (putByte a b s).hw.epoch = s.hw.epoch := rfl
@[simp] theorem putByte_hw_raced (a : Nat) (b : Byte) :
    (putByte a b s).hw.raced = s.hw.raced.filter fun c => c.1 ≠ a := rfl
@[simp] theorem putByte_hw_draws (a : Nat) (b : Byte) : (putByte a b s).hw.draws = s.hw.draws := rfl
@[simp] theorem putByte_fw (a : Nat) (b : Byte) : (putByte a b s).fw = s.fw := rfl
@[simp] theorem putByte_tasks (a : Nat) (b : Byte) : (putByte a b s).tasks = s.tasks := rfl
@[simp] theorem putByte_inbox (a : Nat) (b : Byte) : (putByte a b s).inbox = s.inbox := rfl
@[simp] theorem putByte_sched (a : Nat) (b : Byte) : (putByte a b s).sched = s.sched := rfl
@[simp] theorem putByte_log (a : Nat) (b : Byte) : (putByte a b s).log = s.log := rfl

/-! ### `putByteFw` -/

@[simp] theorem putByteFw_cfg (a : Nat) (b : Byte) : (putByteFw a b s).cfg = s.cfg := by unfold putByteFw; split <;> rfl
@[simp] theorem putByteFw_hw_csr (a : Nat) (b : Byte) : (putByteFw a b s).hw.csr = s.hw.csr := by unfold putByteFw; split <;> rfl
@[simp] theorem putByteFw_hw_ier (a : Nat) (b : Byte) : (putByteFw a b s).hw.ier = s.hw.ier := by unfold putByteFw; split <;> rfl
@[simp] theorem putByteFw_hw_isr (a : Nat) (b : Byte) : (putByteFw a b s).hw.isr = s.hw.isr := by unfold putByteFw; split <;> rfl
@[simp] theorem putByteFw_hw_devar (a : Nat) (b : Byte) : (putByteFw a b s).hw.devar = s.hw.devar := by unfold putByteFw; split <;> rfl
@[simp] theorem putByteFw_hw_eps (a : Nat) (b : Byte) : (putByteFw a b s).hw.eps = s.hw.eps := by unfold putByteFw; split <;> rfl
@[simp] theorem putByteFw_hw_addrActive (a : Nat) (b : Byte) : (putByteFw a b s).hw.addrActive = s.hw.addrActive := by unfold putByteFw; split <;> rfl
@[simp] theorem putByteFw_hw_addrPending (a : Nat) (b : Byte) : (putByteFw a b s).hw.addrPending = s.hw.addrPending := by unfold putByteFw; split <;> rfl
@[simp] theorem putByteFw_hw_sram (a : Nat) (b : Byte) :
    (putByteFw a b s).hw.sram = Memory.store s.hw.sram a b := by unfold putByteFw; split <;> rfl
@[simp] theorem putByteFw_hw_epoch (a : Nat) (b : Byte) : (putByteFw a b s).hw.epoch = s.hw.epoch := by unfold putByteFw; split <;> rfl
@[simp] theorem putByteFw_hw_draws (a : Nat) (b : Byte) : (putByteFw a b s).hw.draws = s.hw.draws := by unfold putByteFw; split <;> rfl
@[simp] theorem putByteFw_fw (a : Nat) (b : Byte) : (putByteFw a b s).fw = s.fw := by unfold putByteFw; split <;> rfl
@[simp] theorem putByteFw_tasks (a : Nat) (b : Byte) : (putByteFw a b s).tasks = s.tasks := by unfold putByteFw; split <;> rfl
@[simp] theorem putByteFw_inbox (a : Nat) (b : Byte) : (putByteFw a b s).inbox = s.inbox := by unfold putByteFw; split <;> rfl
@[simp] theorem putByteFw_sched (a : Nat) (b : Byte) : (putByteFw a b s).sched = s.sched := by unfold putByteFw; split <;> rfl
@[simp] theorem putByteFw_log (a : Nat) (b : Byte) : (putByteFw a b s).log = s.log := by unfold putByteFw; split <;> rfl

/-! ### `drawIf` -/

@[simp] theorem drawIf_cfg (r : Bool) : (drawIf r s).cfg = s.cfg := by unfold drawIf; split <;> simp_all
@[simp] theorem drawIf_hw_csr (r : Bool) : (drawIf r s).hw.csr = s.hw.csr := by unfold drawIf; split <;> simp_all
@[simp] theorem drawIf_hw_ier (r : Bool) : (drawIf r s).hw.ier = s.hw.ier := by unfold drawIf; split <;> simp_all
@[simp] theorem drawIf_hw_isr (r : Bool) : (drawIf r s).hw.isr = s.hw.isr := by unfold drawIf; split <;> simp_all
@[simp] theorem drawIf_hw_devar (r : Bool) : (drawIf r s).hw.devar = s.hw.devar := by unfold drawIf; split <;> simp_all
@[simp] theorem drawIf_hw_eps (r : Bool) : (drawIf r s).hw.eps = s.hw.eps := by unfold drawIf; split <;> simp_all
@[simp] theorem drawIf_hw_addrActive (r : Bool) : (drawIf r s).hw.addrActive = s.hw.addrActive := by unfold drawIf; split <;> simp_all
@[simp] theorem drawIf_hw_addrPending (r : Bool) : (drawIf r s).hw.addrPending = s.hw.addrPending := by unfold drawIf; split <;> simp_all
@[simp] theorem drawIf_hw_sram (r : Bool) : (drawIf r s).hw.sram = s.hw.sram := by unfold drawIf; split <;> simp_all
@[simp] theorem drawIf_hw_epoch (r : Bool) : (drawIf r s).hw.epoch = s.hw.epoch := by unfold drawIf; split <;> simp_all
@[simp] theorem drawIf_hw_raced (r : Bool) : (drawIf r s).hw.raced = s.hw.raced := by unfold drawIf; split <;> simp_all
@[simp] theorem drawIf_hw_draws (r : Bool) :
    (drawIf r s).hw.draws = if r then s.hw.draws + 1 else s.hw.draws := by unfold drawIf; split <;> simp_all
@[simp] theorem drawIf_fw (r : Bool) : (drawIf r s).fw = s.fw := by unfold drawIf; split <;> simp_all
@[simp] theorem drawIf_tasks (r : Bool) : (drawIf r s).tasks = s.tasks := by unfold drawIf; split <;> simp_all
@[simp] theorem drawIf_inbox (r : Bool) : (drawIf r s).inbox = s.inbox := by unfold drawIf; split <;> simp_all
@[simp] theorem drawIf_sched (r : Bool) : (drawIf r s).sched = s.sched := by unfold drawIf; split <;> simp_all
@[simp] theorem drawIf_log (r : Bool) : (drawIf r s).log = s.log := by unfold drawIf; split <;> simp_all

/-! ### `applyAddress` -/

@[simp] theorem applyAddress_cfg : (applyAddress s).cfg = s.cfg := by unfold applyAddress; split <;> simp_all
@[simp] theorem applyAddress_hw_csr : (applyAddress s).hw.csr = s.hw.csr := by unfold applyAddress; split <;> simp_all
@[simp] theorem applyAddress_hw_ier : (applyAddress s).hw.ier = s.hw.ier := by unfold applyAddress; split <;> simp_all
@[simp] theorem applyAddress_hw_isr : (applyAddress s).hw.isr = s.hw.isr := by unfold applyAddress; split <;> simp_all
@[simp] theorem applyAddress_hw_devar : (applyAddress s).hw.devar = s.hw.devar := by unfold applyAddress; split <;> simp_all
@[simp] theorem applyAddress_hw_eps : (applyAddress s).hw.eps = s.hw.eps := by unfold applyAddress; split <;> simp_all
@[simp] theorem applyAddress_hw_addrActive :
    (applyAddress s).hw.addrActive = if s.hw.addrPending then s.hw.devar else s.hw.addrActive := by unfold applyAddress; split <;> simp_all
@[simp] theorem applyAddress_hw_addrPending :
    (applyAddress s).hw.addrPending = false := by unfold applyAddress; split <;> simp_all
@[simp] theorem applyAddress_hw_sram : (applyAddress s).hw.sram = s.hw.sram := by unfold applyAddress; split <;> simp_all
@[simp] theorem applyAddress_hw_epoch : (applyAddress s).hw.epoch = s.hw.epoch := by unfold applyAddress; split <;> simp_all
@[simp] theorem applyAddress_hw_raced : (applyAddress s).hw.raced = s.hw.raced := by unfold applyAddress; split <;> simp_all
@[simp] theorem applyAddress_hw_draws : (applyAddress s).hw.draws = s.hw.draws := by unfold applyAddress; split <;> simp_all
@[simp] theorem applyAddress_fw : (applyAddress s).fw = s.fw := by unfold applyAddress; split <;> simp_all
@[simp] theorem applyAddress_tasks : (applyAddress s).tasks = s.tasks := by unfold applyAddress; split <;> simp_all
@[simp] theorem applyAddress_inbox : (applyAddress s).inbox = s.inbox := by unfold applyAddress; split <;> simp_all
@[simp] theorem applyAddress_sched : (applyAddress s).sched = s.sched := by unfold applyAddress; split <;> simp_all
@[simp] theorem applyAddress_log : (applyAddress s).log = s.log := by unfold applyAddress; split <;> simp_all

/-! ### `resetContent` -/

@[simp] theorem resetContent_cfg : (resetContent s).cfg = s.cfg := by unfold resetContent; split <;> rfl
@[simp] theorem resetContent_hw_csr : (resetContent s).hw.csr = s.hw.csr := by unfold resetContent; split <;> rfl
@[simp] theorem resetContent_hw_ier : (resetContent s).hw.ier = s.hw.ier := by unfold resetContent; split <;> rfl
@[simp] theorem resetContent_hw_isr : (resetContent s).hw.isr = s.hw.isr := by unfold resetContent; split <;> rfl
@[simp] theorem resetContent_hw_devar : (resetContent s).hw.devar = s.hw.devar := by unfold resetContent; split <;> rfl
@[simp] theorem resetContent_hw_eps : (resetContent s).hw.eps = s.hw.eps := by unfold resetContent; split <;> rfl
@[simp] theorem resetContent_hw_addrActive : (resetContent s).hw.addrActive = s.hw.addrActive := by unfold resetContent; split <;> rfl
@[simp] theorem resetContent_hw_addrPending : (resetContent s).hw.addrPending = s.hw.addrPending := by unfold resetContent; split <;> rfl
@[simp] theorem resetContent_hw_draws : (resetContent s).hw.draws = s.hw.draws := by unfold resetContent; split <;> rfl
@[simp] theorem resetContent_fw : (resetContent s).fw = s.fw := by unfold resetContent; split <;> rfl
@[simp] theorem resetContent_tasks : (resetContent s).tasks = s.tasks := by unfold resetContent; split <;> rfl
@[simp] theorem resetContent_inbox : (resetContent s).inbox = s.inbox := by unfold resetContent; split <;> rfl
@[simp] theorem resetContent_sched : (resetContent s).sched = s.sched := by unfold resetContent; split <;> rfl
@[simp] theorem resetContent_log : (resetContent s).log = s.log := by unfold resetContent; split <;> rfl

/-! ### `sramReset` -/

@[simp] theorem sramReset_cfg : (sramReset s).cfg = s.cfg := by simp [sramReset]
@[simp] theorem sramReset_hw_csr : (sramReset s).hw.csr = s.hw.csr := by simp [sramReset]
@[simp] theorem sramReset_hw_ier : (sramReset s).hw.ier = s.hw.ier := by simp [sramReset]
@[simp] theorem sramReset_hw_isr : (sramReset s).hw.isr = s.hw.isr := by simp [sramReset]
@[simp] theorem sramReset_hw_devar : (sramReset s).hw.devar = s.hw.devar := by simp [sramReset]
@[simp] theorem sramReset_hw_eps :
    (sramReset s).hw.eps = Vector.ofFn fun n => bufferReset s.hw.eps[n] := by simp [sramReset]
@[simp] theorem sramReset_hw_addrActive : (sramReset s).hw.addrActive = s.hw.addrActive := by simp [sramReset]
@[simp] theorem sramReset_hw_addrPending : (sramReset s).hw.addrPending = s.hw.addrPending := by simp [sramReset]
@[simp] theorem sramReset_hw_draws : (sramReset s).hw.draws = s.hw.draws := by simp [sramReset]
@[simp] theorem sramReset_fw : (sramReset s).fw = s.fw := by simp [sramReset]
@[simp] theorem sramReset_tasks : (sramReset s).tasks = s.tasks := by simp [sramReset]
@[simp] theorem sramReset_inbox : (sramReset s).inbox = s.inbox := by simp [sramReset]
@[simp] theorem sramReset_sched : (sramReset s).sched = s.sched := by simp [sramReset]
@[simp] theorem sramReset_log : (sramReset s).log = s.log := by simp [sramReset]

/-! ### `markEnabled` -/

@[simp] theorem markEnabled_cfg : (markEnabled s).cfg = s.cfg := rfl
@[simp] theorem markEnabled_hw : (markEnabled s).hw = s.hw := rfl
@[simp] theorem markEnabled_fw_evf : (markEnabled s).fw.evf = s.fw.evf := rfl
@[simp] theorem markEnabled_fw_wake : (markEnabled s).fw.wake = s.fw.wake := rfl
@[simp] theorem markEnabled_fw_cfgLatch : (markEnabled s).fw.cfgLatch = s.fw.cfgLatch := rfl
@[simp] theorem markEnabled_fw_alloc : (markEnabled s).fw.alloc = s.fw.alloc := rfl
@[simp] theorem markEnabled_fw_epinfo : (markEnabled s).fw.epinfo = s.fw.epinfo := rfl
@[simp] theorem markEnabled_fw_powerAnnounced : (markEnabled s).fw.powerAnnounced = s.fw.powerAnnounced := rfl
@[simp] theorem markEnabled_fw_phase : (markEnabled s).fw.phase = s.fw.phase := rfl
@[simp] theorem markEnabled_fw_ctrlMps : (markEnabled s).fw.ctrlMps = s.fw.ctrlMps := rfl
@[simp] theorem markEnabled_fw_hsnap : (markEnabled s).fw.hsnap = s.fw.hsnap := rfl
@[simp] theorem markEnabled_fw_life : (markEnabled s).fw.life = s.fw.life := rfl
@[simp] theorem markEnabled_fw_busEnabled :
    (markEnabled s).fw.busEnabled = true := rfl
@[simp] theorem markEnabled_tasks : (markEnabled s).tasks = s.tasks := rfl
@[simp] theorem markEnabled_inbox : (markEnabled s).inbox = s.inbox := rfl
@[simp] theorem markEnabled_sched : (markEnabled s).sched = s.sched := rfl
@[simp] theorem markEnabled_log : (markEnabled s).log = s.log := rfl

/-! ### `freshDriver` -/

@[simp] theorem freshDriver_cfg : (freshDriver s).cfg = s.cfg := rfl
@[simp] theorem freshDriver_hw : (freshDriver s).hw = s.hw := rfl
@[simp] theorem freshDriver_fw_evf :
    (freshDriver s).fw.evf = Vector.replicate 8 false := rfl
@[simp] theorem freshDriver_fw_wake :
    (freshDriver s).fw.wake = false := rfl
@[simp] theorem freshDriver_fw_cfgLatch :
    (freshDriver s).fw.cfgLatch = false := rfl
@[simp] theorem freshDriver_fw_alloc :
    (freshDriver s).fw.alloc = 0 := rfl
@[simp] theorem freshDriver_fw_epinfo :
    (freshDriver s).fw.epinfo = Vector.replicate 8 none := rfl
@[simp] theorem freshDriver_fw_powerAnnounced :
    (freshDriver s).fw.powerAnnounced = false := rfl
@[simp] theorem freshDriver_fw_phase :
    (freshDriver s).fw.phase = .idle := rfl
@[simp] theorem freshDriver_fw_ctrlMps :
    (freshDriver s).fw.ctrlMps = s.cfg.layout.maxPkt := rfl
@[simp] theorem freshDriver_fw_hsnap : (freshDriver s).fw.hsnap = s.fw.hsnap := rfl
@[simp] theorem freshDriver_fw_life :
    (freshDriver s).fw.life = .built := rfl
@[simp] theorem freshDriver_fw_busEnabled : (freshDriver s).fw.busEnabled = s.fw.busEnabled := rfl
@[simp] theorem freshDriver_tasks : (freshDriver s).tasks = s.tasks := rfl
@[simp] theorem freshDriver_inbox : (freshDriver s).inbox = s.inbox := rfl
@[simp] theorem freshDriver_sched : (freshDriver s).sched = s.sched := rfl
@[simp] theorem freshDriver_log : (freshDriver s).log = s.log := rfl

/-! ### `tasFlag` -/

@[simp] theorem tasFlag_cfg (k : Fin 8) : (tasFlag k s).cfg = s.cfg := rfl
@[simp] theorem tasFlag_hw (k : Fin 8) : (tasFlag k s).hw = s.hw := rfl
@[simp] theorem tasFlag_fw_evf (k : Fin 8) :
    (tasFlag k s).fw.evf = s.fw.evf.set k false := rfl
@[simp] theorem tasFlag_fw_wake (k : Fin 8) : (tasFlag k s).fw.wake = s.fw.wake := rfl
@[simp] theorem tasFlag_fw_cfgLatch (k : Fin 8) : (tasFlag k s).fw.cfgLatch = s.fw.cfgLatch := rfl
@[simp] theorem tasFlag_fw_alloc (k : Fin 8) : (tasFlag k s).fw.alloc = s.fw.alloc := rfl
@[simp] theorem tasFlag_fw_epinfo (k : Fin 8) : (tasFlag k s).fw.epinfo = s.fw.epinfo := rfl
@[simp] theorem tasFlag_fw_powerAnnounced (k : Fin 8) : (tasFlag k s).fw.powerAnnounced = s.fw.powerAnnounced := rfl
@[simp] theorem tasFlag_fw_phase (k : Fin 8) : (tasFlag k s).fw.phase = s.fw.phase := rfl
@[simp] theorem tasFlag_fw_ctrlMps (k : Fin 8) : (tasFlag k s).fw.ctrlMps = s.fw.ctrlMps := rfl
@[simp] theorem tasFlag_fw_hsnap (k : Fin 8) : (tasFlag k s).fw.hsnap = s.fw.hsnap := rfl
@[simp] theorem tasFlag_fw_life (k : Fin 8) : (tasFlag k s).fw.life = s.fw.life := rfl
@[simp] theorem tasFlag_fw_busEnabled (k : Fin 8) : (tasFlag k s).fw.busEnabled = s.fw.busEnabled := rfl
@[simp] theorem tasFlag_tasks (k : Fin 8) : (tasFlag k s).tasks = s.tasks := rfl
@[simp] theorem tasFlag_inbox (k : Fin 8) : (tasFlag k s).inbox = s.inbox := rfl
@[simp] theorem tasFlag_sched (k : Fin 8) : (tasFlag k s).sched = s.sched := rfl
@[simp] theorem tasFlag_log (k : Fin 8) : (tasFlag k s).log = s.log := rfl

/-! ### `fireWake` -/

@[simp] theorem fireWake_cfg : (fireWake s).cfg = s.cfg := rfl
@[simp] theorem fireWake_hw : (fireWake s).hw = s.hw := rfl
@[simp] theorem fireWake_fw_evf : (fireWake s).fw.evf = s.fw.evf := rfl
@[simp] theorem fireWake_fw_wake :
    (fireWake s).fw.wake = true := rfl
@[simp] theorem fireWake_fw_cfgLatch : (fireWake s).fw.cfgLatch = s.fw.cfgLatch := rfl
@[simp] theorem fireWake_fw_alloc : (fireWake s).fw.alloc = s.fw.alloc := rfl
@[simp] theorem fireWake_fw_epinfo : (fireWake s).fw.epinfo = s.fw.epinfo := rfl
@[simp] theorem fireWake_fw_powerAnnounced : (fireWake s).fw.powerAnnounced = s.fw.powerAnnounced := rfl
@[simp] theorem fireWake_fw_phase : (fireWake s).fw.phase = s.fw.phase := rfl
@[simp] theorem fireWake_fw_ctrlMps : (fireWake s).fw.ctrlMps = s.fw.ctrlMps := rfl
@[simp] theorem fireWake_fw_hsnap : (fireWake s).fw.hsnap = s.fw.hsnap := rfl
@[simp] theorem fireWake_fw_life : (fireWake s).fw.life = s.fw.life := rfl
@[simp] theorem fireWake_fw_busEnabled : (fireWake s).fw.busEnabled = s.fw.busEnabled := rfl
@[simp] theorem fireWake_tasks : (fireWake s).tasks = s.tasks := rfl
@[simp] theorem fireWake_inbox : (fireWake s).inbox = s.inbox := rfl
@[simp] theorem fireWake_sched : (fireWake s).sched = s.sched := rfl
@[simp] theorem fireWake_log : (fireWake s).log = s.log := rfl

/-! ### `consumeWake` -/

@[simp] theorem consumeWake_cfg : (consumeWake s).cfg = s.cfg := rfl
@[simp] theorem consumeWake_hw : (consumeWake s).hw = s.hw := rfl
@[simp] theorem consumeWake_fw_evf : (consumeWake s).fw.evf = s.fw.evf := rfl
@[simp] theorem consumeWake_fw_wake :
    (consumeWake s).fw.wake = false := rfl
@[simp] theorem consumeWake_fw_cfgLatch : (consumeWake s).fw.cfgLatch = s.fw.cfgLatch := rfl
@[simp] theorem consumeWake_fw_alloc : (consumeWake s).fw.alloc = s.fw.alloc := rfl
@[simp] theorem consumeWake_fw_epinfo : (consumeWake s).fw.epinfo = s.fw.epinfo := rfl
@[simp] theorem consumeWake_fw_powerAnnounced : (consumeWake s).fw.powerAnnounced = s.fw.powerAnnounced := rfl
@[simp] theorem consumeWake_fw_phase : (consumeWake s).fw.phase = s.fw.phase := rfl
@[simp] theorem consumeWake_fw_ctrlMps : (consumeWake s).fw.ctrlMps = s.fw.ctrlMps := rfl
@[simp] theorem consumeWake_fw_hsnap : (consumeWake s).fw.hsnap = s.fw.hsnap := rfl
@[simp] theorem consumeWake_fw_life : (consumeWake s).fw.life = s.fw.life := rfl
@[simp] theorem consumeWake_fw_busEnabled : (consumeWake s).fw.busEnabled = s.fw.busEnabled := rfl
@[simp] theorem consumeWake_tasks : (consumeWake s).tasks = s.tasks := rfl
@[simp] theorem consumeWake_inbox : (consumeWake s).inbox = s.inbox := rfl
@[simp] theorem consumeWake_sched : (consumeWake s).sched = s.sched := rfl
@[simp] theorem consumeWake_log : (consumeWake s).log = s.log := rfl

/-! ### `setPhase` -/

@[simp] theorem setPhase_cfg (p : Phase) : (setPhase p s).cfg = s.cfg := rfl
@[simp] theorem setPhase_hw (p : Phase) : (setPhase p s).hw = s.hw := rfl
@[simp] theorem setPhase_fw_evf (p : Phase) : (setPhase p s).fw.evf = s.fw.evf := rfl
@[simp] theorem setPhase_fw_wake (p : Phase) : (setPhase p s).fw.wake = s.fw.wake := rfl
@[simp] theorem setPhase_fw_cfgLatch (p : Phase) : (setPhase p s).fw.cfgLatch = s.fw.cfgLatch := rfl
@[simp] theorem setPhase_fw_alloc (p : Phase) : (setPhase p s).fw.alloc = s.fw.alloc := rfl
@[simp] theorem setPhase_fw_epinfo (p : Phase) : (setPhase p s).fw.epinfo = s.fw.epinfo := rfl
@[simp] theorem setPhase_fw_powerAnnounced (p : Phase) : (setPhase p s).fw.powerAnnounced = s.fw.powerAnnounced := rfl
@[simp] theorem setPhase_fw_phase (p : Phase) :
    (setPhase p s).fw.phase = p := rfl
@[simp] theorem setPhase_fw_ctrlMps (p : Phase) : (setPhase p s).fw.ctrlMps = s.fw.ctrlMps := rfl
@[simp] theorem setPhase_fw_hsnap (p : Phase) : (setPhase p s).fw.hsnap = s.fw.hsnap := rfl
@[simp] theorem setPhase_fw_life (p : Phase) : (setPhase p s).fw.life = s.fw.life := rfl
@[simp] theorem setPhase_fw_busEnabled (p : Phase) : (setPhase p s).fw.busEnabled = s.fw.busEnabled := rfl
@[simp] theorem setPhase_tasks (p : Phase) : (setPhase p s).tasks = s.tasks := rfl
@[simp] theorem setPhase_inbox (p : Phase) : (setPhase p s).inbox = s.inbox := rfl
@[simp] theorem setPhase_sched (p : Phase) : (setPhase p s).sched = s.sched := rfl
@[simp] theorem setPhase_log (p : Phase) : (setPhase p s).log = s.log := rfl

/-! ### `handlerRead` -/

@[simp] theorem handlerRead_cfg : (handlerRead s).cfg = s.cfg := rfl
@[simp] theorem handlerRead_hw : (handlerRead s).hw = s.hw := rfl
@[simp] theorem handlerRead_fw_evf : (handlerRead s).fw.evf = s.fw.evf := rfl
@[simp] theorem handlerRead_fw_wake : (handlerRead s).fw.wake = s.fw.wake := rfl
@[simp] theorem handlerRead_fw_cfgLatch : (handlerRead s).fw.cfgLatch = s.fw.cfgLatch := rfl
@[simp] theorem handlerRead_fw_alloc : (handlerRead s).fw.alloc = s.fw.alloc := rfl
@[simp] theorem handlerRead_fw_epinfo : (handlerRead s).fw.epinfo = s.fw.epinfo := rfl
@[simp] theorem handlerRead_fw_powerAnnounced : (handlerRead s).fw.powerAnnounced = s.fw.powerAnnounced := rfl
@[simp] theorem handlerRead_fw_phase : (handlerRead s).fw.phase = s.fw.phase := rfl
@[simp] theorem handlerRead_fw_ctrlMps : (handlerRead s).fw.ctrlMps = s.fw.ctrlMps := rfl
@[simp] theorem handlerRead_fw_hsnap :
    (handlerRead s).fw.hsnap = some s.hw.isr := rfl
@[simp] theorem handlerRead_fw_life : (handlerRead s).fw.life = s.fw.life := rfl
@[simp] theorem handlerRead_fw_busEnabled : (handlerRead s).fw.busEnabled = s.fw.busEnabled := rfl
@[simp] theorem handlerRead_tasks : (handlerRead s).tasks = s.tasks := rfl
@[simp] theorem handlerRead_inbox : (handlerRead s).inbox = s.inbox := rfl
@[simp] theorem handlerRead_sched : (handlerRead s).sched = s.sched := rfl
@[simp] theorem handlerRead_log : (handlerRead s).log = s.log := rfl

/-! ### `handlerFlags` -/

@[simp] theorem handlerFlags_cfg (v : Isr) : (handlerFlags v s).cfg = s.cfg := rfl
@[simp] theorem handlerFlags_hw (v : Isr) : (handlerFlags v s).hw = s.hw := rfl
@[simp] theorem handlerFlags_fw_evf (v : Isr) :
    (handlerFlags v s).fw.evf = setFlags s.fw.evf v := rfl
@[simp] theorem handlerFlags_fw_wake (v : Isr) : (handlerFlags v s).fw.wake = s.fw.wake := rfl
@[simp] theorem handlerFlags_fw_cfgLatch (v : Isr) : (handlerFlags v s).fw.cfgLatch = s.fw.cfgLatch := rfl
@[simp] theorem handlerFlags_fw_alloc (v : Isr) : (handlerFlags v s).fw.alloc = s.fw.alloc := rfl
@[simp] theorem handlerFlags_fw_epinfo (v : Isr) : (handlerFlags v s).fw.epinfo = s.fw.epinfo := rfl
@[simp] theorem handlerFlags_fw_powerAnnounced (v : Isr) : (handlerFlags v s).fw.powerAnnounced = s.fw.powerAnnounced := rfl
@[simp] theorem handlerFlags_fw_phase (v : Isr) : (handlerFlags v s).fw.phase = s.fw.phase := rfl
@[simp] theorem handlerFlags_fw_ctrlMps (v : Isr) : (handlerFlags v s).fw.ctrlMps = s.fw.ctrlMps := rfl
@[simp] theorem handlerFlags_fw_hsnap (v : Isr) : (handlerFlags v s).fw.hsnap = s.fw.hsnap := rfl
@[simp] theorem handlerFlags_fw_life (v : Isr) : (handlerFlags v s).fw.life = s.fw.life := rfl
@[simp] theorem handlerFlags_fw_busEnabled (v : Isr) : (handlerFlags v s).fw.busEnabled = s.fw.busEnabled := rfl
@[simp] theorem handlerFlags_tasks (v : Isr) : (handlerFlags v s).tasks = s.tasks := rfl
@[simp] theorem handlerFlags_inbox (v : Isr) : (handlerFlags v s).inbox = s.inbox := rfl
@[simp] theorem handlerFlags_sched (v : Isr) : (handlerFlags v s).sched = s.sched := rfl
@[simp] theorem handlerFlags_log (v : Isr) : (handlerFlags v s).log = s.log := rfl

/-! ### `handlerReturn` -/

@[simp] theorem handlerReturn_cfg (v : Isr) : (handlerReturn v s).cfg = s.cfg := by unfold handlerReturn; split <;> simp_all
@[simp] theorem handlerReturn_hw (v : Isr) : (handlerReturn v s).hw = s.hw := by unfold handlerReturn; split <;> simp_all
@[simp] theorem handlerReturn_fw_evf (v : Isr) : (handlerReturn v s).fw.evf = s.fw.evf := by unfold handlerReturn; split <;> simp_all
@[simp] theorem handlerReturn_fw_wake (v : Isr) :
    (handlerReturn v s).fw.wake = if v.any then true else s.fw.wake := by unfold handlerReturn; split <;> simp_all
@[simp] theorem handlerReturn_fw_cfgLatch (v : Isr) : (handlerReturn v s).fw.cfgLatch = s.fw.cfgLatch := by unfold handlerReturn; split <;> simp_all
@[simp] theorem handlerReturn_fw_alloc (v : Isr) : (handlerReturn v s).fw.alloc = s.fw.alloc := by unfold handlerReturn; split <;> simp_all
@[simp] theorem handlerReturn_fw_epinfo (v : Isr) : (handlerReturn v s).fw.epinfo = s.fw.epinfo := by unfold handlerReturn; split <;> simp_all
@[simp] theorem handlerReturn_fw_powerAnnounced (v : Isr) : (handlerReturn v s).fw.powerAnnounced = s.fw.powerAnnounced := by unfold handlerReturn; split <;> simp_all
@[simp] theorem handlerReturn_fw_phase (v : Isr) : (handlerReturn v s).fw.phase = s.fw.phase := by unfold handlerReturn; split <;> simp_all
@[simp] theorem handlerReturn_fw_ctrlMps (v : Isr) : (handlerReturn v s).fw.ctrlMps = s.fw.ctrlMps := by unfold handlerReturn; split <;> simp_all
@[simp] theorem handlerReturn_fw_hsnap (v : Isr) :
    (handlerReturn v s).fw.hsnap = none := by unfold handlerReturn; split <;> simp_all
@[simp] theorem handlerReturn_fw_life (v : Isr) : (handlerReturn v s).fw.life = s.fw.life := by unfold handlerReturn; split <;> simp_all
@[simp] theorem handlerReturn_fw_busEnabled (v : Isr) : (handlerReturn v s).fw.busEnabled = s.fw.busEnabled := by unfold handlerReturn; split <;> simp_all
@[simp] theorem handlerReturn_tasks (v : Isr) : (handlerReturn v s).tasks = s.tasks := by unfold handlerReturn; split <;> simp_all
@[simp] theorem handlerReturn_inbox (v : Isr) : (handlerReturn v s).inbox = s.inbox := by unfold handlerReturn; split <;> simp_all
@[simp] theorem handlerReturn_sched (v : Isr) : (handlerReturn v s).sched = s.sched := by unfold handlerReturn; split <;> simp_all
@[simp] theorem handlerReturn_log (v : Isr) : (handlerReturn v s).log = s.log := by unfold handlerReturn; split <;> simp_all

/-! ### `dropSession` -/

@[simp] theorem dropSession_cfg : (dropSession s).cfg = s.cfg := rfl
@[simp] theorem dropSession_hw : (dropSession s).hw = s.hw := rfl
@[simp] theorem dropSession_fw_evf : (dropSession s).fw.evf = s.fw.evf := rfl
@[simp] theorem dropSession_fw_wake : (dropSession s).fw.wake = s.fw.wake := rfl
@[simp] theorem dropSession_fw_cfgLatch :
    (dropSession s).fw.cfgLatch = false := rfl
@[simp] theorem dropSession_fw_alloc : (dropSession s).fw.alloc = s.fw.alloc := rfl
@[simp] theorem dropSession_fw_epinfo : (dropSession s).fw.epinfo = s.fw.epinfo := rfl
@[simp] theorem dropSession_fw_powerAnnounced : (dropSession s).fw.powerAnnounced = s.fw.powerAnnounced := rfl
@[simp] theorem dropSession_fw_phase :
    (dropSession s).fw.phase = .idle := rfl
@[simp] theorem dropSession_fw_ctrlMps : (dropSession s).fw.ctrlMps = s.fw.ctrlMps := rfl
@[simp] theorem dropSession_fw_hsnap : (dropSession s).fw.hsnap = s.fw.hsnap := rfl
@[simp] theorem dropSession_fw_life : (dropSession s).fw.life = s.fw.life := rfl
@[simp] theorem dropSession_fw_busEnabled : (dropSession s).fw.busEnabled = s.fw.busEnabled := rfl
@[simp] theorem dropSession_tasks : (dropSession s).tasks = s.tasks := rfl
@[simp] theorem dropSession_inbox : (dropSession s).inbox = s.inbox := rfl
@[simp] theorem dropSession_sched : (dropSession s).sched = s.sched := rfl
@[simp] theorem dropSession_log : (dropSession s).log = s.log := rfl

/-! ### `startDriver` -/

@[simp] theorem startDriver_cfg (m : Nat) : (startDriver m s).cfg = s.cfg := rfl
@[simp] theorem startDriver_hw (m : Nat) : (startDriver m s).hw = s.hw := rfl
@[simp] theorem startDriver_fw_evf (m : Nat) : (startDriver m s).fw.evf = s.fw.evf := rfl
@[simp] theorem startDriver_fw_wake (m : Nat) : (startDriver m s).fw.wake = s.fw.wake := rfl
@[simp] theorem startDriver_fw_cfgLatch (m : Nat) : (startDriver m s).fw.cfgLatch = s.fw.cfgLatch := rfl
@[simp] theorem startDriver_fw_alloc (m : Nat) : (startDriver m s).fw.alloc = s.fw.alloc := rfl
@[simp] theorem startDriver_fw_epinfo (m : Nat) : (startDriver m s).fw.epinfo = s.fw.epinfo := rfl
@[simp] theorem startDriver_fw_powerAnnounced (m : Nat) : (startDriver m s).fw.powerAnnounced = s.fw.powerAnnounced := rfl
@[simp] theorem startDriver_fw_phase (m : Nat) : (startDriver m s).fw.phase = s.fw.phase := rfl
@[simp] theorem startDriver_fw_ctrlMps (m : Nat) :
    (startDriver m s).fw.ctrlMps = negotiated s m := rfl
@[simp] theorem startDriver_fw_hsnap (m : Nat) : (startDriver m s).fw.hsnap = s.fw.hsnap := rfl
@[simp] theorem startDriver_fw_life (m : Nat) :
    (startDriver m s).fw.life = .started := rfl
@[simp] theorem startDriver_fw_busEnabled (m : Nat) : (startDriver m s).fw.busEnabled = s.fw.busEnabled := rfl
@[simp] theorem startDriver_tasks (m : Nat) : (startDriver m s).tasks = s.tasks := rfl
@[simp] theorem startDriver_inbox (m : Nat) : (startDriver m s).inbox = s.inbox := rfl
@[simp] theorem startDriver_sched (m : Nat) : (startDriver m s).sched = s.sched := rfl
@[simp] theorem startDriver_log (m : Nat) : (startDriver m s).log = s.log := rfl

/-! ### `setPollHeld` -/

@[simp] theorem setPollHeld_cfg (b : Bool) : (setPollHeld b s).cfg = s.cfg := rfl
@[simp] theorem setPollHeld_hw (b : Bool) : (setPollHeld b s).hw = s.hw := rfl
@[simp] theorem setPollHeld_fw (b : Bool) : (setPollHeld b s).fw = s.fw := rfl
@[simp] theorem setPollHeld_tasks_pollHeld (b : Bool) :
    (setPollHeld b s).tasks.pollHeld = b := rfl
@[simp] theorem setPollHeld_tasks_control (b : Bool) : (setPollHeld b s).tasks.control = s.tasks.control := rfl
@[simp] theorem setPollHeld_tasks_eps (b : Bool) : (setPollHeld b s).tasks.eps = s.tasks.eps := rfl
@[simp] theorem setPollHeld_inbox (b : Bool) : (setPollHeld b s).inbox = s.inbox := rfl
@[simp] theorem setPollHeld_sched (b : Bool) : (setPollHeld b s).sched = s.sched := rfl
@[simp] theorem setPollHeld_log (b : Bool) : (setPollHeld b s).log = s.log := rfl

/-! ### `setControlHeld` -/

@[simp] theorem setControlHeld_cfg (c : Option ControlHeld) : (setControlHeld c s).cfg = s.cfg := rfl
@[simp] theorem setControlHeld_hw (c : Option ControlHeld) : (setControlHeld c s).hw = s.hw := rfl
@[simp] theorem setControlHeld_fw (c : Option ControlHeld) : (setControlHeld c s).fw = s.fw := rfl
@[simp] theorem setControlHeld_tasks_pollHeld (c : Option ControlHeld) : (setControlHeld c s).tasks.pollHeld = s.tasks.pollHeld := rfl
@[simp] theorem setControlHeld_tasks_control (c : Option ControlHeld) :
    (setControlHeld c s).tasks.control = c := rfl
@[simp] theorem setControlHeld_tasks_eps (c : Option ControlHeld) : (setControlHeld c s).tasks.eps = s.tasks.eps := rfl
@[simp] theorem setControlHeld_inbox (c : Option ControlHeld) : (setControlHeld c s).inbox = s.inbox := rfl
@[simp] theorem setControlHeld_sched (c : Option ControlHeld) : (setControlHeld c s).sched = s.sched := rfl
@[simp] theorem setControlHeld_log (c : Option ControlHeld) : (setControlHeld c s).log = s.log := rfl

/-! ### `setEpHeld` -/

@[simp] theorem setEpHeld_cfg (n : Fin 8) (h : EpHeld) : (setEpHeld n h s).cfg = s.cfg := rfl
@[simp] theorem setEpHeld_hw (n : Fin 8) (h : EpHeld) : (setEpHeld n h s).hw = s.hw := rfl
@[simp] theorem setEpHeld_fw (n : Fin 8) (h : EpHeld) : (setEpHeld n h s).fw = s.fw := rfl
@[simp] theorem setEpHeld_tasks_pollHeld (n : Fin 8) (h : EpHeld) : (setEpHeld n h s).tasks.pollHeld = s.tasks.pollHeld := rfl
@[simp] theorem setEpHeld_tasks_control (n : Fin 8) (h : EpHeld) : (setEpHeld n h s).tasks.control = s.tasks.control := rfl
@[simp] theorem setEpHeld_tasks_eps (n : Fin 8) (h : EpHeld) :
    (setEpHeld n h s).tasks.eps = s.tasks.eps.set n h := rfl
@[simp] theorem setEpHeld_inbox (n : Fin 8) (h : EpHeld) : (setEpHeld n h s).inbox = s.inbox := rfl
@[simp] theorem setEpHeld_sched (n : Fin 8) (h : EpHeld) : (setEpHeld n h s).sched = s.sched := rfl
@[simp] theorem setEpHeld_log (n : Fin 8) (h : EpHeld) : (setEpHeld n h s).log = s.log := rfl

/-! ### `observe` -/

@[simp] theorem observe_cfg (o : Obs) : (observe o s).cfg = s.cfg := rfl
@[simp] theorem observe_hw (o : Obs) : (observe o s).hw = s.hw := rfl
@[simp] theorem observe_fw (o : Obs) : (observe o s).fw = s.fw := rfl
@[simp] theorem observe_tasks (o : Obs) : (observe o s).tasks = s.tasks := rfl
@[simp] theorem observe_inbox (o : Obs) : (observe o s).inbox = s.inbox := rfl
@[simp] theorem observe_sched (o : Obs) : (observe o s).sched = s.sched := rfl
@[simp] theorem observe_log (o : Obs) : (observe o s).log = o :: s.log := rfl

/-! ### `answer` -/

@[simp] theorem answer_cfg (a : Answer) : (answer a s).cfg = s.cfg := rfl
@[simp] theorem answer_hw (a : Answer) : (answer a s).hw = s.hw := rfl
@[simp] theorem answer_fw (a : Answer) : (answer a s).fw = s.fw := rfl
@[simp] theorem answer_tasks (a : Answer) : (answer a s).tasks = s.tasks := rfl
@[simp] theorem answer_inbox (a : Answer) : (answer a s).inbox = s.inbox := rfl
@[simp] theorem answer_sched (a : Answer) : (answer a s).sched = s.sched := rfl
@[simp] theorem answer_log (a : Answer) : (answer a s).log = .answer a :: s.log := rfl

/-! ### `statusPhase` -/

@[simp] theorem statusPhase_cfg : (statusPhase s).cfg = s.cfg := by unfold statusPhase; split <;> simp_all
@[simp] theorem statusPhase_hw : (statusPhase s).hw = s.hw := by unfold statusPhase; split <;> simp_all
@[simp] theorem statusPhase_fw_evf : (statusPhase s).fw.evf = s.fw.evf := by unfold statusPhase; split <;> simp_all
@[simp] theorem statusPhase_fw_wake : (statusPhase s).fw.wake = s.fw.wake := by unfold statusPhase; split <;> simp_all
@[simp] theorem statusPhase_fw_cfgLatch : (statusPhase s).fw.cfgLatch = s.fw.cfgLatch := by unfold statusPhase; split <;> simp_all
@[simp] theorem statusPhase_fw_alloc : (statusPhase s).fw.alloc = s.fw.alloc := by unfold statusPhase; split <;> simp_all
@[simp] theorem statusPhase_fw_epinfo : (statusPhase s).fw.epinfo = s.fw.epinfo := by unfold statusPhase; split <;> simp_all
@[simp] theorem statusPhase_fw_powerAnnounced : (statusPhase s).fw.powerAnnounced = s.fw.powerAnnounced := by unfold statusPhase; split <;> simp_all
@[simp] theorem statusPhase_fw_phase :
    (statusPhase s).fw.phase = if s.fw.phase = .setupReceived then .statusOnly else s.fw.phase := by unfold statusPhase; split <;> simp_all
@[simp] theorem statusPhase_fw_ctrlMps : (statusPhase s).fw.ctrlMps = s.fw.ctrlMps := by unfold statusPhase; split <;> simp_all
@[simp] theorem statusPhase_fw_hsnap : (statusPhase s).fw.hsnap = s.fw.hsnap := by unfold statusPhase; split <;> simp_all
@[simp] theorem statusPhase_fw_life : (statusPhase s).fw.life = s.fw.life := by unfold statusPhase; split <;> simp_all
@[simp] theorem statusPhase_fw_busEnabled : (statusPhase s).fw.busEnabled = s.fw.busEnabled := by unfold statusPhase; split <;> simp_all
@[simp] theorem statusPhase_tasks : (statusPhase s).tasks = s.tasks := by unfold statusPhase; split <;> simp_all
@[simp] theorem statusPhase_inbox : (statusPhase s).inbox = s.inbox := by unfold statusPhase; split <;> simp_all
@[simp] theorem statusPhase_sched : (statusPhase s).sched = s.sched := by unfold statusPhase; split <;> simp_all
@[simp] theorem statusPhase_log : (statusPhase s).log = s.log := by unfold statusPhase; split <;> simp_all

/-! ### Reading an endpoint, a flag or a task after an update -/

@[simp] theorem setEp_get (n m : Fin 8) (f : Endpoint → Endpoint) :
    (setEp n f s).hw.eps[m.val] = if m = n then f s.hw.eps[n] else s.hw.eps[m.val] := by
  by_cases h : m = n
  · subst h; simp
  · have : n.val ≠ m.val := fun e => h (Fin.ext e.symm)
    simp [h, this]

@[simp] theorem updateEp_get (n m : Fin 8) (f : Endpoint → Endpoint) :
    (updateEp n f s).hw.eps[m.val] =
      if m = n then countBack s.hw.eps[n] (f s.hw.eps[n]) else s.hw.eps[m.val] :=
  setEp_get s n m fun e => countBack e (f e)

@[simp] theorem tasFlag_get (k j : Fin 8) :
    (tasFlag k s).fw.evf[j.val] = if j = k then false else s.fw.evf[j.val] := by
  by_cases h : j = k
  · subst h; simp
  · have : k.val ≠ j.val := fun e => h (Fin.ext e.symm)
    simp [h, this]

@[simp] theorem setEpHeld_get (n m : Fin 8) (h : EpHeld) :
    (setEpHeld n h s).tasks.eps[m.val] = if m = n then h else s.tasks.eps[m.val] := by
  by_cases e : m = n
  · subst e; simp
  · have : n.val ≠ m.val := fun x => e (Fin.ext x.symm)
    simp [e, this]

@[simp] theorem sramReset_get (m : Fin 8) : (sramReset s).hw.eps[m.val] = bufferReset s.hw.eps[m.val] := by
  simp

end Sys2Proof.Machine
end

