-- ==== Sys2Proof/Laws/Memory.lean ====
section
/-! SUPPORT. EP_SRAM as a canonical list: read after write, and that every operation keeps the form. -/

namespace Sys2Proof.Machine

/-! ### The list -/

theorem Memory.find_store_same (m : List Host.Cell) (a : Nat) (b : Byte) :
    Memory.find (Memory.store m a b) a = some b := by
  induction m with
  | nil => simp [Memory.store, Memory.find]
  | cons c r ih =>
    obtain ⟨k, x⟩ := c
    simp only [Memory.store]
    split
    · simp [Memory.find]
    · split
      · simp [Memory.find]
      · have hk : k ≠ a := fun e => ‹¬a = k› e.symm
        simp [Memory.find, hk, ih]

theorem Memory.find_store_other (m : List Host.Cell) {a k : Nat} (b : Byte) (h : k ≠ a) :
    Memory.find (Memory.store m a b) k = Memory.find m k := by
  induction m with
  | nil => simp [Memory.store, Memory.find, Ne.symm h]
  | cons c r ih =>
    obtain ⟨j, x⟩ := c
    simp only [Memory.store]
    split
    · simp [Memory.find, Ne.symm h]
    · split
      · rename_i hj
        subst hj
        simp [Memory.find, Ne.symm h]
      · simp [Memory.find, ih]

theorem Memory.wfFrom_store {size : Nat} {lo : Option Nat} {m : List Host.Cell} {a : Nat} (b : Byte)
    (hm : Memory.wfFrom size lo m = true) (hlo : ∀ l, lo = some l → l < a) (ha : a < size) :
    Memory.wfFrom size lo (Memory.store m a b) = true := by
  induction m generalizing lo with
  | nil => cases lo <;> simp_all [Memory.store, Memory.wfFrom]
  | cons c r ih =>
    obtain ⟨k, x⟩ := c
    simp only [Memory.wfFrom, Bool.and_eq_true, decide_eq_true_eq] at hm
    obtain ⟨⟨hlk, hk⟩, hr⟩ := hm
    simp only [Memory.store]
    split
    · cases lo <;> simp_all [Memory.wfFrom]
    · split
      · cases lo <;> simp_all [Memory.wfFrom]
      · have : k < a := by omega
        have := ih hr (by simpa using this)
        cases lo <;> simp_all [Memory.wfFrom]

/-- A store inside EP_SRAM keeps the canonical form. -/
theorem Memory.wf_store {size : Nat} {m : List Host.Cell} {a : Nat} (b : Byte) (hm : Memory.wf size m = true)
    (ha : a < size) : Memory.wf size (Memory.store m a b) = true :=
  Memory.wfFrom_store b hm (by simp) ha

theorem Memory.wfFrom_zeros {size : Nat} (lo : Option Nat) (n k : Nat) (hlo : ∀ l, lo = some l → l < n)
    (h : n + k ≤ size) :
    Memory.wfFrom size lo ((List.range' n k).map fun a => (a, 0#8)) = true := by
  induction k generalizing lo n with
  | zero => simp [Memory.wfFrom]
  | succ k ih =>
    have hr := ih (some n) (n + 1) (by simp) (by omega)
    have hn : n < size := by omega
    cases lo <;> simp_all [List.range'_succ, Memory.wfFrom]

/-- All of EP_SRAM at 0 is in canonical form. -/
theorem Memory.wf_zeros (size : Nat) : Memory.wf size (Memory.zeros size) = true := by
  rw [Memory.zeros, List.range_eq_range']
  exact Memory.wfFrom_zeros none 0 _ (by simp) (by simp)

theorem Memory.find_zeros_from (n k a : Nat) :
    Memory.find ((List.range' n k).map fun i => (i, 0#8)) a = if n ≤ a ∧ a < n + k then some 0#8 else none := by
  induction k generalizing n with
  | zero => simp [Memory.find]
  | succ k ih =>
    simp only [List.range'_succ, List.map_cons, Memory.find, ih]
    by_cases h : n = a
    · subst h; simp
    · have : (n + 1 ≤ a ∧ a < n + 1 + k) ↔ (n ≤ a ∧ a < n + (k + 1)) := by omega
      rw [if_neg h]
      simp only [this]

theorem Memory.find_zeros {size a : Nat} (h : a < size) : Memory.find (Memory.zeros size) a = some 0#8 := by
  rw [Memory.zeros, List.range_eq_range', Memory.find_zeros_from]
  simp [h]

/-! ### One byte -/

variable (s : State)

theorem byteAt_congr {s t : State} (hs : t.hw.sram = s.hw.sram) (he : t.hw.epoch = s.hw.epoch) (a : Nat) :
    byteAt t a = byteAt s a := by
  simp [byteAt, hs, he]

theorem racedAt_congr {s t : State} (h : t.hw.raced = s.hw.raced) (a : Nat) : racedAt t a = racedAt s a := by
  simp [racedAt, h]

theorem byteAt_of_store {s t : State} {a : Nat} {b : Byte} (hs : t.hw.sram = Memory.store s.hw.sram a b)
    (he : t.hw.epoch = s.hw.epoch) (k : Nat) : byteAt t k = if k = a then b else byteAt s k := by
  unfold byteAt
  rw [hs, he]
  by_cases h : k = a
  · subst h; simp [Memory.find_store_same]
  · simp [h, Memory.find_store_other _ b h]

theorem byteAt_putByte (a : Nat) (b : Byte) (k : Nat) :
    byteAt (putByte a b s) k = if k = a then b else byteAt s k :=
  byteAt_of_store (by simp) (by simp) k

theorem byteAt_putByteFw (a : Nat) (b : Byte) (k : Nat) :
    byteAt (putByteFw a b s) k = if k = a then b else byteAt s k :=
  byteAt_of_store (by simp) (by simp) k

theorem filter_other_cell (l : List Host.Cell) (a k : Nat) :
    (l.filter fun c => decide (c.1 ≠ a)).filter (fun c => decide (c.1 = k)) =
      if k = a then [] else l.filter fun c => decide (c.1 = k) := by
  rw [List.filter_filter]
  by_cases h : k = a
  · subst h
    simp
  · rw [if_neg h]
    refine List.filter_congr fun c _ => ?_
    by_cases hc : c.1 = k <;> simp [hc, h]

theorem racedAt_putByte (a : Nat) (b : Byte) (k : Nat) :
    racedAt (putByte a b s) k = if k = a then [] else racedAt s k := by
  unfold racedAt
  rw [putByte_hw_raced, filter_other_cell]
  split <;> simp

/-- A firmware write in a buffer the SIE owns adds the old byte to those a racing access may see; elsewhere it
leaves only the new one (20_memory.md R78). -/
theorem racedAt_putByteFw (a : Nat) (b : Byte) (k : Nat) :
    racedAt (putByteFw a b s) k =
      if k = a then (if sieOwns s a then byteAt s a :: racedAt s a else []) else racedAt s k := by
  unfold putByteFw
  split
  · by_cases h : k = a
    · subst h; simp [racedAt]
    · simp [racedAt, h, Ne.symm h]
  · simpa using racedAt_putByte s a b k

/-! ### Ownership depends on the endpoints and the layout only -/

theorem sieOwns_congr {s t : State} (he : t.hw.eps = s.hw.eps) (hc : t.cfg = s.cfg) (a : Nat) :
    sieOwns t a = sieOwns s a := by
  simp [sieOwns, ownsTx, ownsRx, sends, receives, txBase, txCap, rxBase, rxCap, he, hc]

theorem receiving_congr {s t : State} (he : t.hw.eps = s.hw.eps) (hc : t.cfg = s.cfg) (a : Nat) :
    receiving t a = receiving s a := by
  have : ownsRx t a = ownsRx s a := by funext n; simp [ownsRx, receives, rxBase, rxCap, he, hc]
  simp [receiving, this]

/-! ### Where races end -/

theorem filter_by_key (l : List Host.Cell) (p : Nat → Bool) (a : Nat) :
    (l.filter fun c => p c.1).filter (fun c => decide (c.1 = a)) =
      if p a then l.filter (fun c => decide (c.1 = a)) else [] := by
  rw [List.filter_filter]
  by_cases h : p a = true
  · rw [if_pos h]
    refine List.filter_congr fun c _ => ?_
    by_cases hc : c.1 = a <;> simp [hc, h]
  · rw [if_neg h, List.filter_eq_nil_iff]
    intro c _
    by_cases hc : c.1 = a <;> simp [hc, h]

/-- Races end on the bytes given back, and nowhere else (20_memory.md R75(a)). -/
theorem racedAt_endRaces (u s : State) (a : Nat) :
    racedAt (endRaces u s) a = if givenBack u s a then [] else racedAt s a := by
  unfold racedAt
  rw [endRaces_hw_raced, filter_by_key s.hw.raced (fun k => !givenBack u s k)]
  cases givenBack u s a <;> rfl

/-- With nothing given back every race goes on. -/
theorem endRaces_same {u s : State} (h : ∀ a, sieOwns u a = true → sieOwns s a = true) : endRaces u s = s := by
  have e : s.hw.raced.filter (fun c => !givenBack u s c.1) = s.hw.raced := by
    refine List.filter_eq_self.mpr fun c _ => ?_
    unfold givenBack
    cases hu : sieOwns u c.1
    · rfl
    · simp [h _ hu]
  unfold endRaces
  rw [e]

theorem sieOwns_endRaces (u s : State) (a : Nat) : sieOwns (endRaces u s) a = sieOwns s a :=
  sieOwns_congr (endRaces_hw_eps s u) (endRaces_cfg s u) a

/-- A change of an endpoint ends the races on what is given back by it, and no other (20_memory.md R75(a), R78). -/
theorem racesEnd_updateEp (n : Fin 8) (f : Endpoint → Endpoint) (s : State) : RacesEnd s (updateEp n f s) := by
  intro a
  have e : racedAt (setEp n (fun e => countBack e (f e)) s) a = racedAt s a := racedAt_congr (by simp) a
  unfold racedAfter updateEp
  rw [racedAt_endRaces, e, sieOwns_endRaces]
  rfl

theorem byteAt_updateEp (n : Fin 8) (f : Endpoint → Endpoint) (s : State) (a : Nat) :
    byteAt (updateEp n f s) a = byteAt s a := byteAt_congr (by simp) (by simp) a

/-- With the TX buffer not given back the counts stay. -/
theorem countBack_keep {e e' : Endpoint} (h : e.csr.naktx = false → e'.csr.naktx = false) : countBack e e' = e' := by
  unfold countBack
  cases hx : e.csr.naktx
  · rw [h hx]; rfl
  · rfl

/-- Only the older counts change, and `NAKTX` is as given. -/
theorem countBack_csr (e e' : Endpoint) : (countBack e e').csr = e'.csr := by
  unfold countBack
  split <;> rfl

/-- While firmware owns the TX buffer no older count is left. -/
theorem countBack_counts {e e' : Endpoint} (h : e.csr.naktx = true → e.txcntOld = [])
    (hf : e'.txcntOld = e.txcntOld ∨ e'.txcntOld = []) (hn : e'.csr.naktx = true) :
    (countBack e e').txcntOld = [] := by
  unfold countBack
  cases hx : e.csr.naktx
  · rw [hn]; rfl
  · rcases hf with hf | hf
    · exact hf.trans (h hx)
    · exact hf

/-- A change of an endpoint that leaves its buffer where it is and takes none from the SIE ends no race. -/
theorem updateEp_handover {n : Fin 8} {f : Endpoint → Endpoint} {s : State}
    (hd : (f s.hw.eps[n]).cfgr.epdir = s.hw.eps[n].cfgr.epdir)
    (hb : (f s.hw.eps[n]).cfgr.epbufa = s.hw.eps[n].cfgr.epbufa)
    (hl : (f s.hw.eps[n]).cfgr.eplen = s.hw.eps[n].cfgr.eplen)
    (ht : s.hw.eps[n].csr.naktx = false → (f s.hw.eps[n]).csr.naktx = false)
    (hr : s.hw.eps[n].csr.nakrx = false → (f s.hw.eps[n]).csr.nakrx = false) : updateEp n f s = setEp n f s := by
  have he : setEp n (fun e => countBack e (f e)) s = setEp n f s := by
    show { s with hw := { s.hw with eps := s.hw.eps.set n (countBack s.hw.eps[n] (f s.hw.eps[n])) } } = _
    rw [countBack_keep ht]
    rfl
  unfold updateEp
  rw [he]
  refine endRaces_same fun a h => ?_
  simp only [sieOwns, List.any_eq_true, List.mem_finRange, true_and] at h ⊢
  obtain ⟨m, h⟩ := h
  refine ⟨m, ?_⟩
  have g : (setEp n f s).hw.eps[m] = if m = n then f s.hw.eps[n] else s.hw.eps[m] := setEp_get s n m f
  by_cases hm : m = n
  · subst hm
    rw [if_pos rfl] at g
    simp only [ownsTx, ownsRx, sends, receives, txBase, txCap, rxBase, rxCap, setEp_cfg, g, hd, hb, hl] at h ⊢
    revert h ht hr
    cases s.hw.eps[m].csr.naktx <;> cases (f s.hw.eps[m]).csr.naktx <;>
      cases s.hw.eps[m].csr.nakrx <;> cases (f s.hw.eps[m]).csr.nakrx <;> simp <;> intros <;> simp_all
  · rw [if_neg hm] at g
    simpa only [ownsTx, ownsRx, sends, receives, txBase, txCap, rxBase, rxCap, setEp_cfg, g] using h

/-! ### A run of bytes -/

theorem SameButBytes.refl : SameButBytes s s := rfl

theorem SameButBytes.trans {s t u : State} (h₁ : SameButBytes s t) (h₂ : SameButBytes t u) : SameButBytes s u := by
  unfold SameButBytes at *
  rw [h₁] at h₂
  exact h₂

theorem SameButBytes.eps {s t : State} (h : SameButBytes s t) : t.hw.eps = s.hw.eps := by rw [h]
theorem SameButBytes.cfg {s t : State} (h : SameButBytes s t) : t.cfg = s.cfg := by rw [h]
theorem SameButBytes.epoch {s t : State} (h : SameButBytes s t) : t.hw.epoch = s.hw.epoch := by rw [h]

theorem putByte_sameBut (a : Nat) (b : Byte) : SameButBytes s (putByte a b s) := rfl

theorem putByteFw_sameBut (a : Nat) (b : Byte) : SameButBytes s (putByteFw a b s) := by
  unfold putByteFw
  split <;> rfl

theorem putBytes_sameBut (a : Nat) (d : List Byte) : SameButBytes s (putBytes a d s) := by
  induction d generalizing a s with
  | nil => exact SameButBytes.refl s
  | cons b r ih => exact (putByte_sameBut s a b).trans (ih _ _)

theorem putBytesFw_sameBut (a : Nat) (d : List Byte) : SameButBytes s (putBytesFw a d s) := by
  induction d generalizing a s with
  | nil => exact SameButBytes.refl s
  | cons b r ih => exact (putByteFw_sameBut s a b).trans (ih _ _)

theorem wf_putByte {s : State} {a : Nat} (b : Byte) (h : Memory.wf s.cfg.layout.sramSize s.hw.sram = true)
    (ha : a < s.cfg.layout.sramSize) : Memory.wf s.cfg.layout.sramSize (putByte a b s).hw.sram = true := by
  simpa using Memory.wf_store b h ha

theorem wf_putByteFw {s : State} {a : Nat} (b : Byte) (h : Memory.wf s.cfg.layout.sramSize s.hw.sram = true)
    (ha : a < s.cfg.layout.sramSize) : Memory.wf s.cfg.layout.sramSize (putByteFw a b s).hw.sram = true := by
  simpa using Memory.wf_store b h ha

theorem wf_putBytes {s : State} {a : Nat} {d : List Byte} (h : Memory.wf s.cfg.layout.sramSize s.hw.sram = true)
    (ha : a + d.length ≤ s.cfg.layout.sramSize) :
    Memory.wf s.cfg.layout.sramSize (putBytes a d s).hw.sram = true := by
  induction d generalizing a s with
  | nil => exact h
  | cons b r ih =>
    simp only [List.length_cons] at ha
    exact ih (s := putByte a b s) (wf_putByte b h (by omega)) (by rw [putByte_cfg]; omega)

theorem wf_putBytesFw {s : State} {a : Nat} {d : List Byte} (h : Memory.wf s.cfg.layout.sramSize s.hw.sram = true)
    (ha : a + d.length ≤ s.cfg.layout.sramSize) :
    Memory.wf s.cfg.layout.sramSize (putBytesFw a d s).hw.sram = true := by
  induction d generalizing a s with
  | nil => exact h
  | cons b r ih =>
    simp only [List.length_cons] at ha
    have := ih (s := putByteFw a b s) (a := a + 1) (by rw [putByteFw_cfg]; exact wf_putByteFw b h (by omega)) (by rw [putByteFw_cfg]; omega)
    rwa [putByteFw_cfg] at this

/-- Read after write, for every offset: the bytes stored, and outside them the bytes before. -/
theorem byteAt_putBytes (a : Nat) (d : List Byte) (k : Nat) :
    byteAt (putBytes a d s) k = if a ≤ k ∧ k < a + d.length then d.getD (k - a) 0#8 else byteAt s k := by
  induction d generalizing a s with
  | nil => simp [putBytes]
  | cons b r ih =>
    simp only [putBytes, ih, byteAt_putByte, List.length_cons]
    by_cases h : k = a
    · subst h; simp
    · by_cases h' : a + 1 ≤ k ∧ k < a + 1 + r.length
      · have e : k - a = (k - (a + 1)) + 1 := by omega
        rw [if_pos h', if_pos (by omega), e, List.getD_cons_succ]
      · rw [if_neg h', if_neg h, if_neg (by omega)]

theorem byteAt_putBytesFw (a : Nat) (d : List Byte) (k : Nat) :
    byteAt (putBytesFw a d s) k = if a ≤ k ∧ k < a + d.length then d.getD (k - a) 0#8 else byteAt s k := by
  induction d generalizing a s with
  | nil => simp [putBytesFw]
  | cons b r ih =>
    simp only [putBytesFw, ih, byteAt_putByteFw, List.length_cons]
    by_cases h : k = a
    · subst h; simp
    · by_cases h' : a + 1 ≤ k ∧ k < a + 1 + r.length
      · have e : k - a = (k - (a + 1)) + 1 := by omega
        rw [if_pos h', if_pos (by omega), e, List.getD_cons_succ]
      · rw [if_neg h', if_neg h, if_neg (by omega)]

theorem racedAt_putBytes (a : Nat) (d : List Byte) (k : Nat) :
    racedAt (putBytes a d s) k = if a ≤ k ∧ k < a + d.length then [] else racedAt s k := by
  induction d generalizing a s with
  | nil => simp [putBytes]
  | cons b r ih =>
    simp only [putBytes, ih, racedAt_putByte, List.length_cons]
    by_cases h : k = a
    · subst h; simp
    · by_cases h' : a + 1 ≤ k ∧ k < a + 1 + r.length
      · rw [if_pos h', if_pos (by omega)]
      · rw [if_neg h', if_neg h, if_neg (by omega)]

theorem racedAt_putBytesFw (a : Nat) (d : List Byte) (k : Nat) :
    racedAt (putBytesFw a d s) k =
      if a ≤ k ∧ k < a + d.length then (if sieOwns s k then byteAt s k :: racedAt s k else [])
      else racedAt s k := by
  induction d generalizing a s with
  | nil => simp [putBytesFw]
  | cons b r ih =>
    have ho := sieOwns_congr (putByteFw_sameBut s a b).eps (putByteFw_sameBut s a b).cfg k
    simp only [putBytesFw, ih, racedAt_putByteFw, byteAt_putByteFw, ho, List.length_cons]
    by_cases h : k = a
    · subst h; simp
    · by_cases h' : a + 1 ≤ k ∧ k < a + 1 + r.length
      · have h'' : a ≤ k ∧ k < a + (r.length + 1) := by omega
        simp [h', h'', h]
      · rw [if_neg h', if_neg h, if_neg (by omega)]

theorem putBytesFw_append (a : Nat) (d e : List Byte) :
    putBytesFw a (d ++ e) s = putBytesFw (a + d.length) e (putBytesFw a d s) := by
  induction d generalizing a s with
  | nil => simp [putBytesFw]
  | cons b r ih => simp [putBytesFw, ih, Nat.add_assoc, Nat.add_comm 1]

/-- With the same endpoints nothing is given back. -/
theorem racedAfter_same {s t : State} (h : sieOwns t = sieOwns s) (a : Nat) : racedAfter s t a = racedAt s a := by
  unfold racedAfter
  rw [h]
  cases sieOwns s a <;> rfl

theorem SameButBytes.owns {s t : State} (h : SameButBytes s t) : sieOwns t = sieOwns s :=
  funext fun a => sieOwns_congr h.eps h.cfg a

/-- A write leaves every offset outside it as it was. -/
theorem putBytesFw_sameOutside (a : Nat) (d : List Byte) : SameOutside s (putBytesFw a d s) a d.length := by
  intro k hk
  rw [byteAt_putBytesFw, racedAt_putBytesFw, if_neg (by omega), if_neg (by omega),
    racedAfter_same (putBytesFw_sameBut s a d).owns]
  exact ⟨rfl, rfl⟩

theorem putBytes_sameOutside (a : Nat) (d : List Byte) : SameOutside s (putBytes a d s) a d.length := by
  intro k hk
  rw [byteAt_putBytes, racedAt_putBytes, if_neg (by omega), if_neg (by omega),
    racedAfter_same (putBytes_sameBut s a d).owns]
  exact ⟨rfl, rfl⟩

/-- What a write stored is what is stored afterwards. -/
theorem storedBytes_putBytesFw (a : Nat) (d : List Byte) : storedBytes (putBytesFw a d s) a d.length = d := by
  refine List.ext_getElem (by simp [storedBytes]) fun i h₁ h₂ => ?_
  simp only [storedBytes, List.getElem_map, List.getElem_range, byteAt_putBytesFw]
  rw [if_pos (by omega)]
  simp [List.getD_eq_getElem?_getD, h₂]

theorem storedBytes_putBytes (a : Nat) (d : List Byte) : storedBytes (putBytes a d s) a d.length = d := by
  refine List.ext_getElem (by simp [storedBytes]) fun i h₁ h₂ => ?_
  simp only [storedBytes, List.getElem_map, List.getElem_range, byteAt_putBytes]
  rw [if_pos (by omega)]
  simp [List.getD_eq_getElem?_getD, h₂]

/-- Where nothing races, firmware sees the stored bytes. -/
theorem fwBytes_unraced {s : State} {a n : Nat} (h : Unraced s a n) : fwBytes s a n = storedBytes s a n := by
  refine List.map_congr_left fun i hi => ?_
  simp [fwByte, h i (List.mem_range.mp hi)]

theorem fwRacing_unraced {s : State} {a n : Nat} (h : Unraced s a n) : fwRacing s a n = false := by
  simp only [fwRacing, List.any_eq_false, List.mem_range]
  exact fun i hi => by simp [h i hi]

/-- What is freely chosen is one of what there is to choose from. -/
theorem chooseOne_mem {α : Type} (k : Nat) (x : α) (os : List α) : chooseOne k x os ∈ x :: os := by
  unfold chooseOne
  cases os with
  | nil => exact List.mem_singleton.mpr rfl
  | cons o r =>
    have h : k % (r.length + 2) < (x :: o :: r).length := Nat.mod_lt _ (by simp)
    dsimp only
    rw [List.getD_eq_getElem?_getD, List.getElem?_eq_getElem h]
    exact List.getElem_mem h

theorem pickByte_mem (s : State) (a : Nat) (b : Byte) (os : List Byte) : pickByte s a b os ∈ b :: os :=
  chooseOne_mem _ b os

/-- With nothing else to choose from, the stored byte is seen. -/
@[simp] theorem pickByte_nil (s : State) (a : Nat) (b : Byte) : pickByte s a b [] = b := rfl

/-- The count an IN transaction uses is `TXCNT` or an older one (40_register_access.md R138). -/
theorem sentCount_mem (n : Fin 8) (s : State) :
    sentCount n s ∈ (s.hw.eps[n].txcnt :: s.hw.eps[n].txcntOld).map BitVec.toNat :=
  List.mem_map_of_mem (chooseOne_mem _ _ _)

/-- The reset state's memory is in canonical form. -/
theorem wf_reset : Memory.wf State.reset.cfg.layout.sramSize State.reset.hw.sram = true := rfl

/-! ### What races is the SIE's -/

/-- A change that leaves endpoints, layout and older bytes keeps it. -/
theorem RacesOwned.congr {s t : State} (h : RacesOwned s) (he : t.hw.eps = s.hw.eps) (hc : t.cfg = s.cfg)
    (hr : t.hw.raced = s.hw.raced) : RacesOwned t where
  bytes a ha := by
    rw [racedAt_congr hr]
    exact h.bytes a (by rwa [sieOwns_congr he hc] at ha)
  counts n hn := by
    rw [he] at hn ⊢
    exact h.counts n hn

/-- So does a change of an endpoint that leaves its older counts or takes them all. -/
theorem RacesOwned.updateEp {s : State} (h : RacesOwned s) (n : Fin 8) (f : Endpoint → Endpoint)
    (hf : (f s.hw.eps[n]).txcntOld = s.hw.eps[n].txcntOld ∨ (f s.hw.eps[n]).txcntOld = []) :
    RacesOwned (updateEp n f s) where
  bytes a ha := by
    rw [racesEnd_updateEp n f s a, racedAfter, ha]
    cases hs : sieOwns s a
    · exact h.bytes a hs
    · rfl
  counts m hm := by
    have g : (Machine.updateEp n f s).hw.eps[m] = if m = n then countBack s.hw.eps[n] (f s.hw.eps[n]) else s.hw.eps[m] :=
      updateEp_get s n m f
    rw [g] at hm ⊢
    split at hm
    · rename_i e
      subst e
      rw [if_pos rfl]
      exact countBack_counts (h.counts m) hf (by rwa [countBack_csr] at hm)
    · rename_i e
      rw [if_neg e]
      exact h.counts m hm

/-- A firmware write leaves older bytes only in what the SIE owns. -/
theorem RacesOwned.putBytesFw {s : State} (h : RacesOwned s) (a : Nat) (d : List Byte) :
    RacesOwned (putBytesFw a d s) where
  bytes k hk := by
    have e := putBytesFw_sameBut s a d
    rw [e.owns] at hk
    rw [racedAt_putBytesFw, hk, h.bytes k hk]
    simp
  counts n hn := by
    rw [(putBytesFw_sameBut s a d).eps] at hn ⊢
    exact h.counts n hn

/-- A store by the SIE leaves no older byte. -/
theorem RacesOwned.putBytes {s : State} (h : RacesOwned s) (a : Nat) (d : List Byte) :
    RacesOwned (putBytes a d s) where
  bytes k hk := by
    have e := putBytes_sameBut s a d
    rw [e.owns] at hk
    rw [racedAt_putBytes, h.bytes k hk]
    simp
  counts n hn := by
    rw [(putBytes_sameBut s a d).eps] at hn ⊢
    exact h.counts n hn

end Sys2Proof.Machine
end

