-- ==== Sys2Proof/Laws/Outcome.lean ====
section
/-! SUPPORT. `andThen`: what it does on each outcome, and how a next state of it is taken apart. -/

namespace Sys2Proof.Machine

variable {α β : Type}

@[simp] theorem andThen_next (a : α) (f : α → Host.Outcome β Fault Refusal) : andThen (.next a) f = f a := rfl

@[simp] theorem andThen_fault (e : Fault) (f : α → Host.Outcome β Fault Refusal) :
    andThen (.fault e) f = .fault e := rfl

@[simp] theorem andThen_refused (e : Refusal) (f : α → Host.Outcome β Fault Refusal) :
    andThen (.refused e) f = .refused e := rfl

/-- A next state of `andThen` comes from a next state of each part. -/
theorem andThen_eq_next {r : Host.Outcome α Fault Refusal} {f : α → Host.Outcome β Fault Refusal} {b : β} :
    andThen r f = .next b ↔ ∃ a, r = .next a ∧ f a = .next b := by
  cases r <;> simp

@[simp] theorem finish_eq (t : Task) (r : Result) (s : State) : finish t r s = .next (observe (.result t r) s) := rfl

@[simp] theorem raiseError_eq (t : Task) (e : ErrorKind) (s : State) :
    raiseError t e s = .next (observe (.result t (.error e)) s) := rfl

/-- A next state under `orAbort` comes from an endpoint that exists. -/
theorem orAbort_eq_next {n : Option (Fin 8)} {f : Fin 8 → Res} {t : State} :
    orAbort n f = .next t ↔ ∃ m, n = some m ∧ f m = .next t := by
  cases n <;> simp [orAbort, abort]

/-- A next state under `withEndpoint` comes from an endpoint number that exists. -/
theorem withEndpoint_eq_next {s : State} {a : EpAddr} {f : Fin 8 → Res} {t : State} :
    withEndpoint s a f = .next t ↔ ∃ n, epIndex s.cfg.layout a.num = some n ∧ f n = .next t :=
  orAbort_eq_next

/-! ### Endpoint numbers under the values of 00_scope.md R5 -/

/-- A number above 7 names no endpoint. -/
theorem endpointOf_none {k : Nat} (h : 7 < k) : endpointOf Config.Layout.std k = none := by
  unfold endpointOf
  rw [dif_neg (by omega)]

/-- The number of an endpoint names that endpoint. -/
theorem endpointOf_val (n : Fin 8) : endpointOf Config.Layout.std n.val = some n := by
  revert n; decide

/-- The number of an endpoint names that endpoint. -/
@[simp] theorem epIndex_epNumber (n : Fin 8) : epIndex Config.Layout.std (epNumber n) = some n := by
  revert n; decide

/-- An endpoint is named by its number only. -/
theorem endpointOf_eq_some {l : Config.Layout} {k : Nat} {n : Fin 8} (h : endpointOf l k = some n) : k = n.val := by
  unfold endpointOf at h
  split at h
  · split at h
    · cases h; rfl
    · cases h
  · cases h

end Sys2Proof.Machine
end

