-- ==== Sys2Proof/Laws/Points.lean ====
section
/-! SUPPORT. Interleaving points and firmware copies of an operation into which nothing falls. -/

namespace Sys2Proof.Machine

/-- With nothing scheduled an interleaving point changes nothing. -/
theorem point_quiet {s : State} (h : Quiet s) : point s = .next s := by
  unfold point
  rw [show s.sched = [] from h]

/-! ### Quiet states stay quiet under the named updates -/

section
variable {s : State} (h : Quiet s)
include h

theorem quiet_setEp (n : Fin 8) (f : Endpoint → Endpoint) : Quiet (setEp n f s) := by simpa [Quiet] using h
theorem quiet_updateEp (n : Fin 8) (f : Endpoint → Endpoint) : Quiet (updateEp n f s) := by simpa [Quiet] using h
theorem quiet_setPhase (p : Phase) : Quiet (setPhase p s) := by simpa [Quiet] using h
theorem quiet_tasFlag (k : Fin 8) : Quiet (tasFlag k s) := by simpa [Quiet] using h
theorem quiet_consumeWake : Quiet (consumeWake s) := by simpa [Quiet] using h
theorem quiet_writeIer (v : Ier) : Quiet (writeIer v s) := by simpa [Quiet] using h
theorem quiet_writeDevar (a : BitVec 7) : Quiet (writeDevar a s) := by simpa [Quiet] using h
theorem quiet_statusPhase : Quiet (statusPhase s) := by simpa [Quiet] using h

theorem quiet_writeCsr (v : Csr) : Quiet (writeCsr v s) := by
  unfold writeCsr
  split <;> simpa [Quiet] using h

theorem quiet_sameBut {t : State} (e : SameButBytes s t) : Quiet t := by
  rw [e]
  exact h

end

/-! ### Copies -/

/-- The pieces of a copy cover it, in order. -/
theorem flatMap_wordSpans {β : Type} (f : Nat → β) (fuel a n : Nat) (h : n ≤ fuel) :
    (wordSpans fuel a n).flatMap (fun p => (List.range p.2).map fun i => f (p.1 + i)) =
      (List.range n).map fun i => f (a + i) := by
  induction fuel generalizing a n with
  | zero =>
    obtain rfl : n = 0 := by omega
    rfl
  | succ k ih =>
    unfold wordSpans
    split
    · simp_all
    · rename_i hn
      have hk : min n (4 - a % 4) + (n - min n (4 - a % 4)) = n := by omega
      rw [List.flatMap_cons, ih _ _ (by omega)]
      conv_rhs => rw [← hk, List.range_add, List.map_append, List.map_map]
      simp [Function.comp_def, Nat.add_assoc]

/-- Every piece of a copy lies inside it. -/
theorem mem_wordSpans {fuel a n : Nat} {p : Nat × Nat} (h : p ∈ wordSpans fuel a n) :
    a ≤ p.1 ∧ p.1 + p.2 ≤ a + n := by
  induction fuel generalizing a n with
  | zero => simp [wordSpans] at h
  | succ k ih =>
    unfold wordSpans at h
    split at h
    · simp at h
    · rcases List.mem_cons.mp h with rfl | h
      · simp only; omega
      · have := ih h
        omega

/-- A copy that nothing interrupts and where nothing races reads the stored bytes and changes nothing. -/
theorem readSpans_quiet {s : State} (hq : Quiet s) (l : List (Nat × Nat)) (acc : List Byte)
    (hu : ∀ p ∈ l, Unraced s p.1 p.2) :
    readSpans l acc s = .next (acc ++ l.flatMap (fun p => storedBytes s p.1 p.2), s) := by
  induction l generalizing acc with
  | nil => simp [readSpans]
  | cons p r ih =>
    obtain ⟨a, k⟩ := p
    have h := hu (a, k) List.mem_cons_self
    simp only at h
    simp only [readSpans, point_quiet hq, andThen_next, fwRacing_unraced h, fwBytes_unraced h]
    rw [show drawIf false s = s from rfl, ih _ fun p hp => hu p (List.mem_cons_of_mem _ hp)]
    simp

/-- `MemRead` in a quiet state, where nothing races: the stored bytes, no change (20_memory.md R81). -/
theorem memRead_quiet {s : State} {a n : Nat} (hq : Quiet s) (ha : a + n ≤ s.cfg.layout.sramSize)
    (hu : Unraced s a n) : memRead a n s = .next (storedBytes s a n, s) := by
  unfold memRead copySpans
  rw [if_neg (by omega), readSpans_quiet hq]
  · simp only [List.nil_append]
    congr 2
    exact flatMap_wordSpans (fun k => byteAt s k) n a n (Nat.le_refl n)
  · intro p hp i hi
    have := mem_wordSpans hp
    have := hu (p.1 - a + i) (by omega)
    rwa [show a + (p.1 - a + i) = p.1 + i by omega] at this

/-- A write that nothing interrupts is the write of all its bytes. -/
theorem writeSpans_quiet {s : State} (hq : Quiet s) (fuel a : Nat) (d : List Byte) (h : d.length ≤ fuel) :
    writeSpans (wordSpans fuel a d.length) d s = .next (putBytesFw a d s) := by
  induction fuel generalizing a d s with
  | zero =>
    obtain rfl : d = [] := List.length_eq_zero_iff.mp (by omega)
    rfl
  | succ k ih =>
    unfold wordSpans
    split
    · rename_i h0
      obtain rfl : d = [] := List.length_eq_zero_iff.mp h0
      rfl
    · rename_i hn
      generalize hm : min d.length (4 - a % 4) = m
      have hd : (d.drop m).length = d.length - m := by simp
      have ht : (d.take m).length = m := by simp; omega
      simp only [writeSpans, point_quiet hq, andThen_next]
      rw [← hd, ih (quiet_sameBut hq (putBytesFw_sameBut s a (d.take m))) _ _ (by omega)]
      conv_rhs => rw [← List.take_append_drop m d, putBytesFw_append, ht]

/-- `MemWrite` in a quiet state (20_memory.md R81). -/
theorem memWrite_quiet {s : State} {a : Nat} {d : List Byte} (hq : Quiet s)
    (ha : a + d.length ≤ s.cfg.layout.sramSize) : memWrite a d s = .next (putBytesFw a d s) := by
  unfold memWrite copySpans
  rw [if_neg (by omega), writeSpans_quiet hq _ _ _ (Nat.le_refl _)]

end Sys2Proof.Machine
end

