-- ==== Sys2Proof/Laws/Frames.lean ====
section
/-! SUPPORT. What the bus side, the handler and an interleaving point can and cannot do, said once each. -/

namespace Sys2Proof.Machine

/-! ### The bus side (41_bus_side.md R172) -/

/-- What a bus stimulus leaves: configuration, firmware state, schedule, `CSR`, `IER`, every `EPnCFGR`, and of
endpoints 1 to 7 the stall bits and `TXCNT`; status bits are only set; memory keeps its form. -/
structure BusFrame (s t : State) : Prop where
  cfg : t.cfg = s.cfg
  fw : t.fw = s.fw
  tasks : t.tasks = s.tasks
  inbox : t.inbox = s.inbox
  sched : t.sched = s.sched
  csr : t.hw.csr = s.hw.csr
  ier : t.hw.ier = s.hw.ier
  epoch : t.hw.epoch = s.hw.epoch
  isr : t.hw.isr = t.hw.isr.or s.hw.isr
  cfgr : ∀ n : Fin 8, t.hw.eps[n.val].cfgr = s.hw.eps[n.val].cfgr
  txcnt : ∀ n : Fin 8, n ≠ 0 → t.hw.eps[n.val].txcnt = s.hw.eps[n.val].txcnt
  stalls : ∀ n : Fin 8, n ≠ 0 → t.hw.eps[n.val].csr.stltx = s.hw.eps[n.val].csr.stltx ∧
    t.hw.eps[n.val].csr.stlrx = s.hw.eps[n.val].csr.stlrx
  wf : Memory.wf s.cfg.layout.sramSize s.hw.sram = true → Memory.wf t.cfg.layout.sramSize t.hw.sram = true
  races : RacesOwned s → RacesOwned t

theorem Isr.or_self (a : Isr) : a.or a = a := by
  cases a
  simp [Isr.or]

theorem Isr.or_absorb {a b c : Isr} (h₁ : b = b.or a) (h₂ : c = c.or b) : c = c.or a := by
  rw [h₂, h₁]
  simp [Isr.or, Bool.or_assoc]

theorem Isr.or_raise (a v : Isr) : a.or v = (a.or v).or a := by
  cases a
  cases v
  simp only [Isr.or, Isr.mk.injEq]
  refine ⟨?_, ?_, ?_, ?_, ?_, ?_, ?_, ?_⟩ <;> exact (by rw [Bool.or_right_comm, Bool.or_self])

theorem BusFrame.refl (s : State) : BusFrame s s :=
  ⟨rfl, rfl, rfl, rfl, rfl, rfl, rfl, rfl, (Isr.or_self _).symm, fun _ => rfl, fun _ _ => rfl,
    fun _ _ => ⟨rfl, rfl⟩, id, id⟩

theorem BusFrame.trans {s t u : State} (a : BusFrame s t) (b : BusFrame t u) : BusFrame s u where
  cfg := b.cfg.trans a.cfg
  fw := b.fw.trans a.fw
  tasks := b.tasks.trans a.tasks
  inbox := b.inbox.trans a.inbox
  sched := b.sched.trans a.sched
  csr := b.csr.trans a.csr
  ier := b.ier.trans a.ier
  epoch := b.epoch.trans a.epoch
  isr := Isr.or_absorb a.isr b.isr
  cfgr n := (b.cfgr n).trans (a.cfgr n)
  txcnt n h := (b.txcnt n h).trans (a.txcnt n h)
  stalls n h := ⟨(b.stalls n h).1.trans (a.stalls n h).1, (b.stalls n h).2.trans (a.stalls n h).2⟩
  wf h := b.wf (a.wf h)
  races h := b.races (a.races h)

theorem busFrame_answer (a : Answer) (s : State) : BusFrame s (answer a s) := by
  constructor
  case races => exact fun h => h.congr (by simp) (by simp) (by simp)
  all_goals simp [Isr.or_self]

theorem busFrame_raise (v : Isr) (s : State) : BusFrame s (raiseStatus v s) := by
  constructor
  case races => exact fun h => h.congr (by simp) (by simp) (by simp)
  case isr => exact Isr.or_raise _ _
  all_goals simp

theorem busFrame_drawIf (r : Bool) (s : State) : BusFrame s (drawIf r s) := by
  constructor
  case races => exact fun h => h.congr (by simp) (by simp) (by simp)
  all_goals simp [Isr.or_self]

theorem busFrame_afterSend (n : Fin 8) (s : State) : BusFrame s (afterSend n s) := busFrame_drawIf _ s

theorem busFrame_applyAddress (s : State) : BusFrame s (applyAddress s) := by
  constructor
  case races => exact fun h => h.congr (by simp) (by simp) (by simp)
  all_goals simp [Isr.or_self]

theorem busFrame_busReset (s : State) : BusFrame s (busReset s) := by
  constructor
  case races => exact fun h => h.congr rfl rfl rfl
  case isr => exact Isr.or_raise _ _
  all_goals simp [busReset]

theorem busFrame_putBytes (a : Nat) (d : List Byte) (s : State) (h : a + d.length ≤ s.cfg.layout.sramSize) :
    BusFrame s (putBytes a d s) := by
  have e := putBytes_sameBut s a d
  have hw := fun x => @wf_putBytes s a d x h
  constructor
  case wf => rw [e.cfg]; exact hw
  case races => exact fun h => h.putBytes a d
  all_goals (rw [e]; try simp [Isr.or_self])

theorem busFrame_updateEp (n : Fin 8) (f : Endpoint → Endpoint) (s : State)
    (hc : ∀ e, (f e).cfgr = e.cfgr) (ho : ∀ e, (f e).txcntOld = e.txcntOld ∨ (f e).txcntOld = [])
    (ht : n ≠ 0 → ∀ e, (f e).txcnt = e.txcnt ∧ (f e).csr.stltx = e.csr.stltx ∧ (f e).csr.stlrx = e.csr.stlrx) :
    BusFrame s (updateEp n f s) := by
  have back (e e' : Endpoint) : (countBack e e').cfgr = e'.cfgr ∧ (countBack e e').txcnt = e'.txcnt := by
    unfold countBack
    split <;> exact ⟨rfl, rfl⟩
  constructor
  case races => exact fun h => h.updateEp n f (ho _)
  case cfgr =>
    intro m
    rw [updateEp_get]
    split
    · rename_i h; subst h; rw [(back _ _).1]; exact hc _
    · rfl
  case txcnt =>
    intro m hm
    rw [updateEp_get]
    split
    · rename_i h; subst h; rw [(back _ _).2]; exact (ht hm _).1
    · rfl
  case stalls =>
    intro m hm
    rw [updateEp_get]
    split
    · rename_i h; subst h; rw [countBack_csr]; exact (ht hm _).2
    · exact ⟨rfl, rfl⟩
  all_goals simp [Isr.or_self]

/-- The frame of a bus stimulus. -/
theorem applyStim_frame {st : Stim} {s t : State} (h : applyStim st s = .next t) : BusFrame s t := by
  have line : ∀ u, BusFrame s u → BusFrame s (answer .none u) := fun u hu => hu.trans (busFrame_answer _ _)
  cases st with
  | reset => cases h; exact line _ (busFrame_busReset s)
  | suspend => cases h; exact line _ (busFrame_raise _ s)
  | resume => cases h; exact line _ (busFrame_raise _ s)
  | sof =>
    cases h
    refine line _ ?_
    split
    · exact busFrame_raise _ s
    · exact BusFrame.refl s
  | setup addr ep data =>
    simp only [applyStim, stimSetup] at h
    repeat' split at h
    all_goals first | cases h; exact busFrame_answer _ s | skip
    all_goals cases h
    rename_i hl hs
    simp only [ne_eq, Decidable.not_not] at hl
    refine (busFrame_putBytes s.cfg.layout.ep0SetupOff data s (by omega)).trans
      (.trans ?_ ((busFrame_raise _ _).trans (busFrame_answer _ _)))
    exact busFrame_updateEp 0 setupEndpoint _ (fun _ => rfl) (fun _ => .inr rfl) (fun h => absurd rfl h)
  | out addr ep pid data =>
    simp only [applyStim, stimOut] at h
    repeat' split at h
    all_goals first | cases h; exact busFrame_answer _ s | skip
    all_goals cases h
    rename_i n _ _ _ _ _ _ _
    refine (busFrame_putBytes (rxBase s n) data s (by omega)).trans
      (.trans ?_ ((busFrame_raise _ _).trans (busFrame_answer _ _)))
    exact busFrame_updateEp n (outEndpoint data.length) _ (fun _ => rfl) (fun _ => .inl rfl)
      (fun _ _ => ⟨rfl, rfl, rfl⟩)
  | inp addr ep ack =>
    have done (n : Fin 8) : BusFrame s (completeIn n (afterSend n s)) :=
      (busFrame_afterSend n s).trans ((busFrame_updateEp n inEndpoint _ (fun _ => rfl) (fun _ => .inl rfl)
        (fun _ _ => ⟨rfl, rfl, rfl⟩)).trans ((busFrame_raise _ _).trans (busFrame_applyAddress _)))
    simp only [applyStim, stimIn] at h
    split at h
    · cases h; exact busFrame_answer _ s
    · rename_i n _
      generalize inPacket n s = p at h
      have done := done n
      generalize completeIn n (afterSend n s) = u at h done
      repeat' split at h
      all_goals first | cases h; exact busFrame_answer _ s | skip
      all_goals cases h
      · exact done.trans (busFrame_answer _ _)
      · exact (busFrame_afterSend n s).trans (busFrame_answer _ _)

theorem runStims_frame {l : List Stim} {s t : State} (h : runStims l s = .next t) : BusFrame s t := by
  induction l generalizing s with
  | nil => cases h; exact BusFrame.refl _
  | cons st r ih =>
    obtain ⟨u, h₁, h₂⟩ := andThen_eq_next.mp h
    exact (applyStim_frame h₁).trans (ih h₂)

theorem gap_frame {gaps : List (List Stim)} {k : Nat} {s t : State} (h : gap gaps k s = .next t) : BusFrame s t :=
  runStims_frame h

/-! ### The handler and an interleaving point (43_dispatcher.md R220, R231(f); 20_memory.md R79) -/

/-- What neither a bus stimulus nor a handler run changes; event flags are only set. -/
structure Frame (s t : State) : Prop where
  cfg : t.cfg = s.cfg
  tasks : t.tasks = s.tasks
  inbox : t.inbox = s.inbox
  ier : t.hw.ier = s.hw.ier
  fres : t.hw.csr.fres = s.hw.csr.fres
  pdwn : t.hw.csr.pdwn = s.hw.csr.pdwn
  dppuen : t.hw.csr.dppuen = s.hw.csr.dppuen
  cfgr : ∀ n : Fin 8, t.hw.eps[n.val].cfgr = s.hw.eps[n.val].cfgr
  stalls : ∀ n : Fin 8, n ≠ 0 → t.hw.eps[n.val].csr.stltx = s.hw.eps[n.val].csr.stltx ∧
    t.hw.eps[n.val].csr.stlrx = s.hw.eps[n.val].csr.stlrx
  evf : ∀ k : Fin 8, s.fw.evf[k.val] = true → t.fw.evf[k.val] = true
  cfgLatch : t.fw.cfgLatch = s.fw.cfgLatch
  alloc : t.fw.alloc = s.fw.alloc
  epinfo : t.fw.epinfo = s.fw.epinfo
  powerAnnounced : t.fw.powerAnnounced = s.fw.powerAnnounced
  phase : t.fw.phase = s.fw.phase
  ctrlMps : t.fw.ctrlMps = s.fw.ctrlMps
  life : t.fw.life = s.fw.life
  busEnabled : t.fw.busEnabled = s.fw.busEnabled
  wf : Memory.wf s.cfg.layout.sramSize s.hw.sram = true → Memory.wf t.cfg.layout.sramSize t.hw.sram = true
  races : RacesOwned s → RacesOwned t

theorem Frame.refl (s : State) : Frame s s :=
  ⟨rfl, rfl, rfl, rfl, rfl, rfl, rfl, fun _ => rfl, fun _ _ => ⟨rfl, rfl⟩, fun _ h => h, rfl, rfl, rfl, rfl, rfl,
    rfl, rfl, rfl, id, id⟩

theorem Frame.trans {s t u : State} (a : Frame s t) (b : Frame t u) : Frame s u where
  cfg := b.cfg.trans a.cfg
  tasks := b.tasks.trans a.tasks
  inbox := b.inbox.trans a.inbox
  ier := b.ier.trans a.ier
  fres := b.fres.trans a.fres
  pdwn := b.pdwn.trans a.pdwn
  dppuen := b.dppuen.trans a.dppuen
  cfgr n := (b.cfgr n).trans (a.cfgr n)
  stalls n h := ⟨(b.stalls n h).1.trans (a.stalls n h).1, (b.stalls n h).2.trans (a.stalls n h).2⟩
  evf k h := b.evf k (a.evf k h)
  cfgLatch := b.cfgLatch.trans a.cfgLatch
  alloc := b.alloc.trans a.alloc
  epinfo := b.epinfo.trans a.epinfo
  powerAnnounced := b.powerAnnounced.trans a.powerAnnounced
  phase := b.phase.trans a.phase
  ctrlMps := b.ctrlMps.trans a.ctrlMps
  life := b.life.trans a.life
  busEnabled := b.busEnabled.trans a.busEnabled
  wf h := b.wf (a.wf h)
  races h := b.races (a.races h)

theorem BusFrame.frame {s t : State} (h : BusFrame s t) : Frame s t where
  cfg := h.cfg
  tasks := h.tasks
  inbox := h.inbox
  ier := h.ier
  fres := by rw [h.csr]
  pdwn := by rw [h.csr]
  dppuen := by rw [h.csr]
  cfgr := h.cfgr
  stalls := h.stalls
  evf _ e := by rw [h.fw]; exact e
  cfgLatch := by rw [h.fw]
  alloc := by rw [h.fw]
  epinfo := by rw [h.fw]
  powerAnnounced := by rw [h.fw]
  phase := by rw [h.fw]
  ctrlMps := by rw [h.fw]
  life := by rw [h.fw]
  busEnabled := by rw [h.fw]
  wf := h.wf
  races := h.races

theorem wf_resetContent {s : State} (h : Memory.wf s.cfg.layout.sramSize s.hw.sram = true) :
    Memory.wf s.cfg.layout.sramSize (resetContent s).hw.sram = true := by
  unfold resetContent
  split
  · rfl
  · exact h
  · dsimp only
    rw [Memory.wf_zeros]

theorem wf_sramReset {s : State} (h : Memory.wf s.cfg.layout.sramSize s.hw.sram = true) :
    Memory.wf s.cfg.layout.sramSize (sramReset s).hw.sram = true := by
  unfold sramReset
  exact wf_resetContent
    (s := endRaces s { s with hw := { s.hw with eps := Vector.ofFn fun n => bufferReset s.hw.eps[n] } }) h

/-- What the toggle reset leaves of the older bytes is the SIE's: none where the contents are drawn or zeroed, and those
of the buffers it does not give back otherwise (40_register_access.md R132). -/
theorem races_sramReset {s : State} (h : RacesOwned s) : RacesOwned (sramReset s) where
  bytes a ha := by
    unfold sramReset resetContent at ha ⊢
    split at ha
    · simp_all [racedAt]
    · rw [sieOwns_endRaces] at ha
      rw [racedAt_endRaces, givenBack, ha]
      cases hs : sieOwns s a
      · exact h.bytes a hs
      · rfl
    · simp_all [racedAt]
  counts n hn := by
    rw [Fin.getElem_fin, sramReset_get]
    rfl

/-- The reset of buffers and toggles is inside the handler's frame. -/
theorem frame_sramReset (s : State) : Frame s (sramReset s) := by
  have hw := @wf_sramReset s
  constructor
  case wf => rw [sramReset_cfg]; exact hw
  case races => exact races_sramReset
  case cfgr => intro n; rw [sramReset_get]; rfl
  case stalls => intro n _; rw [sramReset_get]; exact ⟨rfl, rfl⟩
  all_goals simp

/-- A write of `CSR` that changes at most `SRAMRSTC` is inside the handler's frame. -/
theorem frame_writeCsr (s : State) (v : Csr) (h₁ : v.fres = s.hw.csr.fres) (h₂ : v.pdwn = s.hw.csr.pdwn)
    (h₃ : v.dppuen = s.hw.csr.dppuen) : Frame s (writeCsr v s) := by
  have hs : Frame s (storeCsr v s) := by
    constructor
    case races => exact fun h => h.congr rfl rfl rfl
    all_goals simp [h₁, h₂, h₃]
  unfold writeCsr
  split
  · have := frame_sramReset (storeCsr v s)
    exact hs.trans this
  · exact hs

/-- The schedule is not touched by a write of `CSR`. -/
@[simp] theorem writeCsr_sched (v : Csr) (s : State) : (writeCsr v s).sched = s.sched := by
  unfold writeCsr
  split <;> simp

@[simp] theorem writeCsr_csr (v : Csr) (s : State) : (writeCsr v s).hw.csr = v := by
  unfold writeCsr
  split <;> simp

@[simp] theorem writeCsr_fw (v : Csr) (s : State) : (writeCsr v s).fw = s.fw := by
  unfold writeCsr
  split <;> simp

@[simp] theorem writeCsr_tasks (v : Csr) (s : State) : (writeCsr v s).tasks = s.tasks := by
  unfold writeCsr
  split <;> simp

@[simp] theorem writeCsr_inbox (v : Csr) (s : State) : (writeCsr v s).inbox = s.inbox := by
  unfold writeCsr
  split <;> simp

@[simp] theorem writeCsr_cfg (v : Csr) (s : State) : (writeCsr v s).cfg = s.cfg := by
  unfold writeCsr
  split <;> simp

theorem frame_handlerRead (s : State) : Frame s (handlerRead s) := by
  constructor
  case races => exact fun h => h.congr (by simp) (by simp) (by simp)
  all_goals simp

theorem frame_handlerFlags (v : Isr) (s : State) : Frame s (handlerFlags v s) := by
  constructor
  case evf => intro k h; simp [setFlags, h]
  case races => exact fun h => h.congr rfl rfl rfl
  all_goals simp

theorem frame_clearStatus (v : Isr) (s : State) : Frame s (clearStatus v s) := by
  constructor
  case races => exact fun h => h.congr (by simp) (by simp) (by simp)
  all_goals simp

theorem frame_handlerReturn (v : Isr) (s : State) : Frame s (handlerReturn v s) := by
  constructor
  case races => exact fun h => h.congr (by simp) (by simp) (by simp)
  all_goals simp

/-- The frame of a handler run; the schedule is not consumed and `HSNAP` is dead afterwards. -/
theorem takeInterrupt_frame {gaps : List (List Stim)} {s t : State} (h : takeInterrupt gaps s = .next t) :
    Frame s t ∧ t.sched = s.sched ∧ t.fw.hsnap = none := by
  unfold takeInterrupt at h
  obtain ⟨a, ha, h⟩ := andThen_eq_next.mp h
  obtain ⟨b, hb, h⟩ := andThen_eq_next.mp h
  obtain ⟨c, hc, h⟩ := andThen_eq_next.mp h
  obtain ⟨d, hd, h⟩ := andThen_eq_next.mp h
  cases h
  have fa := gap_frame ha
  have fb := gap_frame hb
  have fc := gap_frame hc
  have fd : Frame c d ∧ d.sched = c.sched := by
    split at hd
    · obtain ⟨e, he, hd⟩ := andThen_eq_next.mp hd
      obtain ⟨g, hg, hd⟩ := andThen_eq_next.mp hd
      have fe := gap_frame he
      have fg := gap_frame hg
      have fd := gap_frame hd
      have w₁ := frame_writeCsr e { c.hw.csr with sramrstc := true } (by rw [fe.csr]) (by rw [fe.csr]) (by rw [fe.csr])
      have w₂ := frame_writeCsr g { c.hw.csr with sramrstc := false } (by rw [fg.csr]; simp) (by rw [fg.csr]; simp)
        (by rw [fg.csr]; simp)
      refine ⟨fe.frame.trans (w₁.trans (fg.frame.trans (w₂.trans fd.frame))), ?_⟩
      rw [fd.sched, writeCsr_sched, fg.sched, writeCsr_sched, fe.sched]
    · cases hd
      exact ⟨Frame.refl _, rfl⟩
  refine ⟨(frame_handlerRead s).trans (fa.frame.trans ((frame_handlerFlags _ a).trans (fb.frame.trans
    ((frame_clearStatus _ b).trans (fc.frame.trans (fd.1.trans (frame_handlerReturn _ d))))))), ?_, by simp⟩
  rw [handlerReturn_sched, fd.2, fc.sched, clearStatus_sched, fb.sched, handlerFlags_sched, fa.sched,
    handlerRead_sched]

theorem runPreempt_frame {p : Preempt} {s t : State} (h : runPreempt p s = .next t) :
    Frame s t ∧ (s.fw.hsnap = none → t.fw.hsnap = none) := by
  cases p with
  | bus st =>
    have f := applyStim_frame h
    exact ⟨f.frame, fun e => by rw [f.fw, e]⟩
  | irq gaps =>
    have f := takeInterrupt_frame h
    exact ⟨f.1, fun _ => f.2.2⟩

theorem runBatch_frame {l : List Preempt} {s t : State} (h : runBatch l s = .next t) :
    Frame s t ∧ (s.fw.hsnap = none → t.fw.hsnap = none) := by
  induction l generalizing s with
  | nil => cases h; exact ⟨Frame.refl _, id⟩
  | cons p r ih =>
    obtain ⟨u, h₁, h₂⟩ := andThen_eq_next.mp h
    exact ⟨(runPreempt_frame h₁).1.trans (ih h₂).1, fun e => (ih h₂).2 ((runPreempt_frame h₁).2 e)⟩

/-- Whatever falls into an interleaving point, the frame holds. -/
theorem point_frame {s t : State} (h : point s = .next t) :
    Frame s t ∧ (s.fw.hsnap = none → t.fw.hsnap = none) := by
  unfold point at h
  split at h
  · cases h; exact ⟨Frame.refl s, id⟩
  · have f := runBatch_frame h
    refine ⟨Frame.trans ?_ f.1, f.2⟩
    constructor
    case races => exact fun h => h.congr rfl rfl rfl
    all_goals simp

end Sys2Proof.Machine
end

