-- ==== Sys2Proof/Laws/Words.lean ====
section
/-! SUPPORT. The register images bit by bit: writing and reading an image is masking (10_state.md R21 to R28). -/

namespace Sys2Proof.Machine

/-! ### The images a machine with the values of 00_scope.md R5 uses -/

theorem csrImage_std (c : Csr) : csrImage Config.Layout.std.regs c = csrWord c := rfl
theorem csrFields_std (v : Word) : csrFields Config.Layout.std.regs v = csrOfWord v := rfl
theorem ierImage_std (i : Ier) : ierImage Config.Layout.std.regs i = ierWord i := rfl
theorem ierFields_std (v : Word) : ierFields Config.Layout.std.regs v = ierOfWord v := rfl
theorem isrImage_std (i : Isr) : isrImage Config.Layout.std.regs i = isrWord i := rfl
theorem isrFields_std (v : Word) : isrFields Config.Layout.std.regs v = isrOfWord v := rfl
theorem devarImage_std (a : BitVec 7) : devarImage Config.Layout.std.regs a = devarWord a := rfl
theorem devarField_std (v : Word) : devarField Config.Layout.std.regs v = v.extractLsb' 0 7 := rfl
theorem epCsrImage_std (c : EpCsr) : epCsrImage Config.Layout.std.regs c = epCsrWord c := rfl
theorem epCsrFields_std (v : Word) : epCsrFields Config.Layout.std.regs v = epCsrOfWord v := rfl
theorem epTcrImage_std (tx rx : BitVec 7) : epTcrImage Config.Layout.std.regs tx rx = epTcrWord tx rx := rfl
theorem txcntField_std (v : Word) : txcntField Config.Layout.std.regs v = txcntOfWord v := rfl
theorem epCfgrImage_std (c : EpCfgr) : epCfgrImage Config.Layout.std.regs c = epCfgrWord c := rfl
theorem epCfgrFields_std (v : Word) : epCfgrFields Config.Layout.std.regs v = epCfgrOfWord v := rfl

/-! ### Bits -/

/-- The bits of a single-bit word. -/
@[simp] theorem getElem_bitAt (p : Nat) (b : Bool) (i : Nat) (h : i < 32) :
    (bitAt p b)[i] = (decide (p = i) && b) := by
  unfold bitAt
  cases b <;> simp [BitVec.getElem_twoPow, eq_comm]

@[simp] theorem getLsbD_bitAt (p : Nat) (b : Bool) (i : Nat) (h : i < 32) :
    (bitAt p b).getLsbD i = (decide (p = i) && b) := by
  rw [BitVec.getLsbD_eq_getElem h, getElem_bitAt]

@[simp] theorem csrOfWord_csrWord (c : Csr) : csrOfWord (csrWord c) = c := by
  cases c
  simp [csrWord, csrImage, csrOfWord, csrFields, Config.RegMap.std]

@[simp] theorem ierOfWord_ierWord (i : Ier) : ierOfWord (ierWord i) = i := by
  cases i
  simp [ierWord, ierImage, ierOfWord, ierFields, Config.RegMap.std]

@[simp] theorem isrOfWord_isrWord (i : Isr) : isrOfWord (isrWord i) = i := by
  cases i
  simp [isrWord, isrImage, isrOfWord, isrFields, Config.RegMap.std]

@[simp] theorem epCsrOfWord_epCsrWord (c : EpCsr) : epCsrOfWord (epCsrWord c) = c := by
  cases c
  simp [epCsrWord, epCsrImage, epCsrOfWord, epCsrFields, Config.RegMap.std]

/-- The four bits of `CSR` (10_state.md R21). -/
theorem csrWord_csrOfWord (v : Word) : csrWord (csrOfWord v) = v &&& 0x606#32 := by
  apply BitVec.eq_of_getLsbD_eq
  intro i hi
  simp only [csrWord, csrImage, csrOfWord, csrFields, BitVec.getLsbD_or, BitVec.getLsbD_and, getLsbD_bitAt _ _ _ hi, Config.RegMap.std]
  interval_cases i <;> simp

/-- The nine bits of `IER` (10_state.md R22). -/
theorem ierWord_ierOfWord (v : Word) : ierWord (ierOfWord v) = v &&& 0xF1F#32 := by
  apply BitVec.eq_of_getLsbD_eq
  intro i hi
  simp only [ierWord, ierImage, ierOfWord, ierFields, BitVec.getLsbD_or, BitVec.getLsbD_and, getLsbD_bitAt _ _ _ hi, Config.RegMap.std]
  interval_cases i <;> simp

/-- The eight source bits of `ISR` (10_state.md R23). -/
theorem isrWord_isrOfWord (v : Word) : isrWord (isrOfWord v) = v &&& 0xF1E#32 := by
  apply BitVec.eq_of_getLsbD_eq
  intro i hi
  simp only [isrWord, isrImage, isrOfWord, isrFields, BitVec.getLsbD_or, BitVec.getLsbD_and, getLsbD_bitAt _ _ _ hi, Config.RegMap.std]
  interval_cases i <;> simp

/-- The four bits of `EPnCSR` (10_state.md R25). -/
theorem epCsrWord_epCsrOfWord (v : Word) : epCsrWord (epCsrOfWord v) = v &&& 0x36#32 := by
  apply BitVec.eq_of_getLsbD_eq
  intro i hi
  simp only [epCsrWord, epCsrImage, epCsrOfWord, epCsrFields, BitVec.getLsbD_or, BitVec.getLsbD_and, getLsbD_bitAt _ _ _ hi, Config.RegMap.std]
  interval_cases i <;> simp

/-- Setting status bits is the bitwise or of the words. -/
theorem isrWord_or (a b : Isr) : isrWord (a.or b) = isrWord a ||| isrWord b := by
  apply BitVec.eq_of_getLsbD_eq
  intro i hi
  simp only [isrWord, isrImage, Isr.or, BitVec.getLsbD_or, getLsbD_bitAt _ _ _ hi, Config.RegMap.std]
  interval_cases i <;> simp

/-- Clearing status bits clears them in the word. -/
theorem isrWord_clear (a b : Isr) : isrWord (a.clear b) = isrWord a &&& ~~~(isrWord b) := by
  apply BitVec.eq_of_getLsbD_eq
  intro i hi
  simp only [isrWord, isrImage, Isr.clear, BitVec.getLsbD_or, BitVec.getLsbD_and, BitVec.getLsbD_not, getLsbD_bitAt _ _ _ hi, Config.RegMap.std]
  interval_cases i <;> simp

/-- Inverting bits of `EPnCSR` is the exclusive or of the words (40_register_access.md R137). -/
theorem epCsrWord_toggle (c m : EpCsr) : epCsrWord (c.toggle m) = epCsrWord c ^^^ epCsrWord m := by
  apply BitVec.eq_of_getLsbD_eq
  intro i hi
  simp only [epCsrWord, epCsrImage, EpCsr.toggle, BitVec.getLsbD_or, BitVec.getLsbD_xor, getLsbD_bitAt _ _ _ hi, Config.RegMap.std]
  interval_cases i <;> simp

/-- A direction is recovered from its code. -/
@[simp] theorem dir_of_isIn (d : Dir) : (if d.isIn = true then Dir.inp else Dir.out) = d := by cases d <;> rfl

/-- A direction bit is recovered from the direction. -/
@[simp] theorem isIn_of_bit (b : Bool) : (if b = true then Dir.inp else Dir.out).isIn = b := by cases b <;> rfl

/-- A transfer type is recovered from its code (30_encoding.md R103). -/
@[simp] theorem typeOfCode_code (t : EpType) : typeOfCode t.code = t := by cases t <;> rfl

/-- A code is recovered from its transfer type (30_encoding.md R103). -/
@[simp] theorem code_typeOfCode (c : BitVec 2) : (typeOfCode c).code = c := by revert c; decide

/-- The six fields of `EPnCFGR`; bits 23 to 17 are ignored (10_state.md R27). -/
theorem epCfgrWord_epCfgrOfWord (v : Word) : epCfgrWord (epCfgrOfWord v) = v &&& 0xFF01FFFF#32 := by
  apply BitVec.eq_of_getLsbD_eq
  intro i hi
  simp only [epCfgrWord, epCfgrImage, epCfgrOfWord, epCfgrFields, BitVec.getLsbD_or, BitVec.getLsbD_and, getLsbD_bitAt _ _ _ hi, fieldAt, code_typeOfCode, Config.RegMap.std]
  interval_cases i <;> simp

/-- The fields are recovered from the image of `EPnCFGR` (10_state.md R27). -/
@[simp] theorem epCfgrOfWord_epCfgrWord (c : EpCfgr) : epCfgrOfWord (epCfgrWord c) = c := by
  obtain ⟨a, l, n, d, t, e⟩ := c
  have bits {w : Nat} {x y : BitVec w} (h : ∀ i (_ : i < w), x.getLsbD i = y.getLsbD i) : x = y :=
    BitVec.eq_of_getLsbD_eq h
  have ht : (epCfgrWord ⟨a, l, n, d, t, e⟩).extractLsb' 29 2 = t.code := by
    apply bits
    intro i hi
    simp only [epCfgrWord, epCfgrImage, fieldAt, BitVec.getLsbD_or, BitVec.getLsbD_extractLsb', Config.RegMap.std]
    interval_cases i <;> simp
  simp only [epCfgrOfWord, epCfgrFields, EpCfgr.mk.injEq, ht, typeOfCode_code, true_and, Config.RegMap.std]
  refine ⟨bits ?_, bits ?_, bits ?_, ?_, ?_⟩
  · intro i hi
    simp only [epCfgrWord, epCfgrImage, fieldAt, BitVec.getLsbD_or, BitVec.getLsbD_extractLsb', Config.RegMap.std]
    interval_cases i <;> simp
  · intro i hi
    simp only [epCfgrWord, epCfgrImage, fieldAt, BitVec.getLsbD_or, BitVec.getLsbD_extractLsb', Config.RegMap.std]
    interval_cases i <;> simp
  · intro i hi
    simp only [epCfgrWord, epCfgrImage, fieldAt, BitVec.getLsbD_or, BitVec.getLsbD_extractLsb', Config.RegMap.std]
    interval_cases i <;> simp
  · rw [← dir_of_isIn d]
    congr 1
    simp [epCfgrWord, epCfgrImage, fieldAt, Config.RegMap.std]
  · simp [epCfgrWord, epCfgrImage, fieldAt, Config.RegMap.std]

end Sys2Proof.Machine
end

