-- ==== Sys2Proof/Laws/Atoms.lean ====
section
/-! SUPPORT. Everything an operation can do, said once: a next state is reached by atomic changes, each of them one
of the constructors of `Atom`. A statement about every operation is an induction over them. -/

namespace Sys2Proof.Machine

/-- One atomic change made by operation `i` (`none`: by a held task that goes on). With `q = true` nothing falls
into the operation's interleaving points. -/
inductive Atom (i : Option Instr) (q : Bool) : State → State → Prop where
  | point {s t : State} (hq : q = false) (h : point s = .next t) : Atom i q s t
  | bus {s t : State} (st : Stim) (hi : i = some st.instr) (h : applyStim st s = .next t) : Atom i q s t
  | irq {s t : State} (gaps : List (List Stim)) (hi : i = some .irq) (h : takeInterrupt gaps s = .next t) : Atom i q s t
  | clearSched (s : State) : Atom i q s { s with sched := [] }
  | observe (o : Obs) (s : State) : Atom i q s (observe o s)
  | draw (r : Bool) (s : State) : Atom i q s (drawIf r s)
  /-- A write of `CSR`; only `ENABLE` and a raw write set `SRAMRSTC` where nothing falls in between. -/
  | csr (v : Csr) (s : State) (h : q = true → v.sramrstc = true →
      s.hw.csr.sramrstc = true ∨ i = some .enable ∨ ∃ w, i = some (.wr32Csr w)) : Atom i q s (writeCsr v s)
  | ier (v : Ier) (s : State) : Atom i q s (writeIer v s)
  | devar (a : BitVec 7) (s : State) : Atom i q s (writeDevar a s)
  | status (v : Isr) (s : State) : Atom i q s (clearStatus v s)
  | epCsr (n : Fin 8) (f : EpCsr → EpCsr) (s : State) : Atom i q s (updateEp n (fun e => { e with csr := f e.csr }) s)
  | txcnt (n : Fin 8) (c : BitVec 7) (s : State) : Atom i q s (writeTxcnt n c s)
  | cfgr (n : Fin 8) (v : EpCfgr) (s : State) (h : badConfig n v s = false) : Atom i q s (writeCfgr n v s)
  | shutOff (n : Fin 8) (s : State) : Atom i q s (writeCfgr n { s.hw.eps[n].cfgr with epen := false } s)
  | bytes (a : Nat) (d : List Byte) (s : State) (h : a + d.length ≤ s.cfg.layout.sramSize) :
      Atom i q s (putBytesFw a d s)
  | alloc (n : Fin 8) (d : Dir) (ty : EpType) (mps : Nat) (iv : Byte) (s : State) (ht : ty ≠ .isochronous)
      (h : allocFails s n ty = false) : Atom i q s (commitAlloc n d ty mps iv s)
  | new (b₁ b₂ : Bool) (s : State) (hi : i = some (.newDriver b₁ b₂)) :
      Atom i q s (freshDriver s)
  | enabled (s : State) : Atom i q s (markEnabled s)
  | start (cmps : Nat) (s : State) : Atom i q s (startDriver cmps s)
  | flag (k : Fin 8) (s : State) : Atom i q s (tasFlag k s)
  | consume (s : State) : Atom i q s (consumeWake s)
  | power (s : State) : Atom i q s { s with fw := { s.fw with powerAnnounced := true } }
  | phase (p : Phase) (s : State) : Atom i q s (setPhase p s)
  | drop (s : State) : Atom i q s (dropSession s)
  | latch (s : State) (hi : i = some .cpSetup ∨ i = none) :
      Atom i q s { s with fw := { s.fw with cfgLatch := true } }
  | held (k : Tasks) (s : State) : Atom i q s { s with tasks := k }

/-- Any number of atomic changes. -/
abbrev Reach (i : Option Instr) (q : Bool) : State → State → Prop := Relation.ReflTransGen (Atom i q)

variable {i : Option Instr} {q : Bool}

/-- What every atomic change keeps holds at the end. -/
theorem Reach.keeps {P : State → Prop} (hp : ∀ a b, Atom i q a b → P a → P b) {s t : State} (h : Reach i q s t)
    (hs : P s) : P t := by
  induction h with
  | refl => exact hs
  | tail _ hbc ih => exact hp _ _ hbc ih

theorem Atom.quiet {s t : State} (h : Atom i q s t) (hs : q = true → Quiet s) : q = true → Quiet t := by
  intro e
  have hs := hs e
  unfold Quiet at hs ⊢
  cases h with
  | point hq => rw [hq] at e; cases e
  | bus st _ h => rw [(applyStim_frame h).sched, hs]
  | irq gaps _ h => rw [(takeInterrupt_frame h).2.1, hs]
  | bytes a d => exact quiet_sameBut hs (putBytesFw_sameBut s a d)
  | csr v => rw [writeCsr_sched, hs]
  | draw r => unfold drawIf; split <;> exact hs
  | _ => first | rfl | exact hs

theorem Reach.quiet {s t : State} (h : Reach i q s t) (hs : q = true → Quiet s) : q = true → Quiet t :=
  Reach.keeps (P := fun s => q = true → Quiet s) (fun _ _ h => h.quiet) h hs

/-- One more change. -/
theorem Reach.step {s t u : State} (h : Reach i q s t) (a : Atom i q t u) : Reach i q s u := .tail h a

theorem Reach.point {s t u : State} (h : Reach i q s t) (hs : q = true → Quiet s) (hp : point t = .next u) :
    Reach i q s u := by
  cases hq : q with
  | false => subst hq; exact h.step (.point rfl hp)
  | true =>
    have := h.quiet hs hq
    rw [point_quiet this] at hp
    cases hp
    subst hq; exact h

theorem Reach.storeEpCsr {s t : State} (h : Reach i q s t) (n : Fin 8) (c d : EpCsr) :
    Reach i q s (storeEpCsr n c d t) := by
  unfold Machine.storeEpCsr writeEpCsr
  cases hc : t.cfg.epcsrWrite
  · dsimp only
    split
    · exact h
    · exact h.step (.epCsr n (fun e => e.toggle (c.toggle d)) t)
  · exact h.step (.epCsr n (fun _ => d) t)

theorem Reach.changeEpCsr {s t : State} (h : Reach i q s t) (n : Fin 8) (c d : EpCsr) :
    Reach i q s (changeEpCsr n c d t) := by
  unfold Machine.changeEpCsr
  split
  · exact h
  · exact h.storeEpCsr n c d

theorem Reach.readSpans {s t u : State} {l : List (Nat × Nat)} {acc bs : List Byte} (h : Reach i q s t)
    (hs : q = true → Quiet s) (hr : readSpans l acc t = .next (bs, u)) : Reach i q s u := by
  induction l generalizing t acc with
  | nil => cases hr; exact h
  | cons p r ih =>
    obtain ⟨v, hv, hr⟩ := andThen_eq_next.mp hr
    exact ih ((h.point hs hv).step (.draw _ _)) hr

/-- A firmware read (20_memory.md R81). -/
theorem Reach.memRead {s t u : State} {a n : Nat} {bs : List Byte} (h : Reach i q s t) (hs : q = true → Quiet s)
    (hr : memRead a n t = .next (bs, u)) : Reach i q s u := by
  unfold Machine.memRead at hr
  split at hr
  · cases hr
  · exact h.readSpans hs hr

theorem Reach.writeSpans {s t u : State} {l : List (Nat × Nat)} {d : List Byte} (h : Reach i q s t)
    (hs : q = true → Quiet s) (hl : ∀ p ∈ l, p.1 + p.2 ≤ t.cfg.layout.sramSize) (hr : writeSpans l d t = .next u) :
    Reach i q s u := by
  induction l generalizing t d with
  | nil => cases hr; exact h
  | cons p r ih =>
    obtain ⟨a, k⟩ := p
    obtain ⟨v, hv, hr⟩ := andThen_eq_next.mp hr
    have hc := (point_frame hv).1.cfg
    have ha := hl (a, k) List.mem_cons_self
    refine ih ((h.point hs hv).step (.bytes a (d.take k) v ?_))
      (fun p hp => by rw [(putBytesFw_sameBut v a _).cfg, hc]; exact hl p (List.mem_cons_of_mem _ hp)) hr
    rw [hc]
    simp only [List.length_take] at ha ⊢
    omega

/-- A firmware write (20_memory.md R81). -/
theorem Reach.memWrite {s t u : State} {a : Nat} {d : List Byte} (h : Reach i q s t) (hs : q = true → Quiet s)
    (hr : memWrite a d t = .next u) : Reach i q s u := by
  unfold Machine.memWrite at hr
  split at hr
  · cases hr
  · refine h.writeSpans hs (fun p hp => ?_) hr
    have := mem_wordSpans hp
    omega

/-! ### The tasks -/

theorem Reach.finish {s t u : State} {k : Task} {r : Result} (h : Reach i q s t) (hf : finish k r t = .next u) :
    Reach i q s u := by
  cases hf
  exact h.step (.observe _ _)

theorem Reach.controlReturn {s t u : State} {r : Result} (h : Reach i q s t) (hf : controlReturn r t = .next u) :
    Reach i q s u :=
  Reach.finish (h.step (.held _ t)) hf

theorem Reach.pollReturn {s t u : State} {e : Event} (h : Reach i q s t) (hf : pollReturn e t = .next u) :
    Reach i q s u :=
  Reach.finish (h.step (.held _ t)) hf

theorem Reach.waitReturn {s t : State} (h : Reach i q s t) (n : Fin 8) : Reach i q s (waitReturn n t) :=
  (h.step (.held _ t)).step (.observe _ _)

theorem Reach.waitAwait {s t : State} (h : Reach i q s t) (n : Fin 8) : Reach i q s (waitAwait n t) := by
  unfold Machine.waitAwait
  split
  · exact h.waitReturn n
  · exact h.step (.held _ t)

theorem Reach.setLatch {s t : State} (h : Reach i q s t) (hi : i = some .cpSetup ∨ i = none) :
    Reach i q s (setLatch t) := by
  unfold Machine.setLatch
  split
  · exact h
  · exact (h.step (.latch t hi)).step (.held _ _)

/-- The reset slow-path (43_dispatcher.md R223). -/
theorem Reach.resetSlowPath {s t u : State} (h : Reach i q s t) (hs : q = true → Quiet s)
    (hr : resetSlowPath t = .next u) : Reach i q s u := by
  unfold Machine.resetSlowPath at hr
  obtain ⟨a, ha, hr⟩ := andThen_eq_next.mp hr
  obtain ⟨b, hb, hr⟩ := andThen_eq_next.mp hr
  obtain ⟨c, hc, hr⟩ := andThen_eq_next.mp hr
  obtain ⟨d, hd, hr⟩ := andThen_eq_next.mp hr
  cases hr
  have h₁ := ((h.point hs ha).point hs hb).step (.csr (pullUpOnly a.hw.csr) b fun _ e => by simp [pullUpOnly] at e)
  exact (((h₁.point hs hc).step (.ier _ _)).point hs hd).step (.drop d)

theorem Reach.drainEndpoints {s t u : State} {fuel k : Nat} {any r : Bool} (h : Reach i q s t)
    (hs : q = true → Quiet s) (hr : drainEndpoints fuel k any t = .next (r, u)) : Reach i q s u := by
  induction fuel generalizing k any t with
  | zero => cases hr; exact h
  | succ m ih =>
    obtain ⟨a, ha, hr⟩ := andThen_eq_next.mp hr
    exact ih ((h.point hs ha).step (.flag _ a)) hr

/-- One pass of the drain (43_dispatcher.md R222). -/
theorem Reach.pollPass {s t u : State} (h : Reach i q s t) (hs : q = true → Quiet s)
    (hr : pollPass t = .next u) : Reach i q s u := by
  unfold Machine.pollPass at hr
  obtain ⟨a, ha, hr⟩ := andThen_eq_next.mp hr
  have h := (h.point hs ha).step (.flag 0 a)
  split at hr
  · obtain ⟨b, hb, hr⟩ := andThen_eq_next.mp hr
    exact (h.resetSlowPath hs hb).pollReturn hr
  · obtain ⟨b, hb, hr⟩ := andThen_eq_next.mp hr
    have h := (h.point hs hb).step (.flag 2 b)
    split at hr
    · exact h.pollReturn hr
    · obtain ⟨c, hc, hr⟩ := andThen_eq_next.mp hr
      have h := (h.point hs hc).step (.flag 1 c)
      split at hr
      · exact h.pollReturn hr
      · obtain ⟨d, hd, hr⟩ := andThen_eq_next.mp hr
        have h := (h.point hs hd).step (.flag 3 d)
        obtain ⟨⟨any, e⟩, he, hr⟩ := andThen_eq_next.mp hr
        have h := h.drainEndpoints hs he
        unfold pollTail at hr
        split at hr
        · exact h.pollReturn hr
        · split at hr
          · exact (h.step (.power e)).pollReturn hr
          · cases hr
            exact h.step (.held _ e)

theorem Reach.setupCheck {s t u : State} {left : Nat} (h : Reach i q s t) (hs : q = true → Quiet s)
    (hi : i = some .cpSetup ∨ i = none) (hr : setupCheck left t = .next u) : Reach i q s u := by
  unfold Machine.setupCheck at hr
  split at hr
  · obtain ⟨⟨bs, a⟩, ha, hr⟩ := andThen_eq_next.mp hr
    have h := (h.step (.flag 4 t)).memRead hs ha
    unfold setupDecoded at hr
    split at hr
    · obtain ⟨b, hb, hr⟩ := andThen_eq_next.mp hr
      exact (((h.step (.phase _ a)).point hs hb).setLatch hi).controlReturn hr
    · exact (h.step (.phase _ a)).controlReturn hr
  · cases hr
    exact h.step (.held _ t)

theorem Reach.dataOutCheck {s t u : State} {left len : Nat} (h : Reach i q s t) (hs : q = true → Quiet s)
    (hr : dataOutCheck left len t = .next u) : Reach i q s u := by
  unfold Machine.dataOutCheck at hr
  dsimp only at hr
  split at hr
  · obtain ⟨a, ha, hr⟩ := andThen_eq_next.mp hr
    unfold dataOutTake at hr
    obtain ⟨⟨bs, b⟩, hb, hr⟩ := andThen_eq_next.mp hr
    obtain ⟨c, hc, hr⟩ := andThen_eq_next.mp hr
    exact ((((h.point hs ha).memRead hs hb).point hs hc).storeEpCsr 0 _ _).controlReturn hr
  · cases hr
    exact h.step (.held _ t)

theorem Reach.dataInCheck {s t u : State} {left : Nat} {data : List Byte} {last : Bool} (h : Reach i q s t)
    (hs : q = true → Quiet s) (hr : dataInCheck left data last t = .next u) : Reach i q s u := by
  unfold Machine.dataInCheck at hr
  dsimp only at hr
  split at hr
  · unfold dataInPut at hr
    obtain ⟨a, ha, hr⟩ := andThen_eq_next.mp hr
    obtain ⟨b, hb, hr⟩ := andThen_eq_next.mp hr
    obtain ⟨c, hc, hr⟩ := andThen_eq_next.mp hr
    have h := ((((h.memWrite hs ha).point hs hb).step (.txcnt 0 _ b)).point hs hc).storeEpCsr 0
      t.hw.eps[(0 : Fin 8)].csr { t.hw.eps[(0 : Fin 8)].csr with naktx := false }
    exact (h.step (.phase _ _)).controlReturn hr
  · cases hr
    exact h.step (.held _ t)

theorem Reach.acceptSteps {s t u : State} (h : Reach i q s t) (hs : q = true → Quiet s)
    (hr : acceptSteps t = .next u) : Reach i q s u := by
  unfold Machine.acceptSteps at hr
  obtain ⟨a, ha, hr⟩ := andThen_eq_next.mp hr
  have h := h.point hs ha
  split at hr
  · obtain ⟨b, hb, hr⟩ := andThen_eq_next.mp hr
    exact ((((h.step (.txcnt 0 0 a)).point hs hb).changeEpCsr 0 _ _).step (.phase _ _)).controlReturn hr
  · exact ((h.changeEpCsr 0 _ _).step (.phase _ _)).controlReturn hr

theorem Reach.statusPhase {s t : State} (h : Reach i q s t) : Reach i q s (statusPhase t) := by
  unfold Machine.statusPhase
  split
  · exact h.step (.phase _ t)
  · exact h

/-- A held task goes on. -/
theorem resumeTask_reach {k : Task} {s t : State} (hs : q = true → Quiet s) (hr : resumeTask k s = .next t) :
    Reach none q s t := by
  have r : Reach none q s s := .refl
  cases k with
  | stack => cases hr; exact r
  | bus =>
    simp only [resumeTask, resumeBus] at hr
    split at hr
    · exact (r.step (.consume s)).pollPass hs hr
    · cases hr; exact r
  | control =>
    simp only [resumeTask, resumeControl] at hr
    split at hr
    · cases hr; exact r
    · exact r.controlReturn hr
    · exact r.setupCheck hs (.inr rfl) hr
    · exact r.controlReturn hr
    · exact r.dataOutCheck hs hr
    · exact (r.step (.phase _ s)).controlReturn hr
    · exact r.dataInCheck hs hr
  | endpoint n =>
    simp only [resumeTask, resumeEndpoint] at hr
    split at hr
    · cases hr; exact r
    · cases hr; exact r.waitAwait n
    · cases hr; exact r.waitAwait n
    · unfold writeAwait at hr
      split at hr
      · obtain ⟨a, ha, hr⟩ := andThen_eq_next.mp hr
        have h := (r.step (.consume s)).point hs ha
        split at hr
        · exact (h.step (.held _ a)).finish hr
        · cases hr; exact h
      · cases hr; exact r

/-! ### The operations -/

/-- A legal configuration stays legal while other agents step: they write none (41_bus_side.md R172). -/
theorem badConfig_frame {s t : State} (f : Frame s t) (n : Fin 8) (c : EpCfgr) : badConfig n c t = badConfig n c s := by
  unfold badConfig meetsEnabled
  simp only [f.cfg, Fin.getElem_fin, f.cfgr]

/-- An allocation. -/
theorem allocate_reach {d : Dir} {ty : EpType} {opt : Option EpAddr} {mps : Nat} {iv : Byte} {s t : State}
    (h : allocate d ty opt mps iv s = .next t) : Reach i q s t := by
  unfold allocate at h
  split at h
  · cases h
  split at h
  · cases h
  · split at h
    · cases h
    · rename_i ht
      obtain ⟨n, -, h⟩ := withEndpoint_eq_next.mp h
      split at h
      · exact Reach.finish .refl h
      · rename_i hf
        exact Reach.finish (.tail .refl (.alloc n d ty mps iv s ht (by simpa using hf))) h

theorem rawWriteTcr_reach {n : Fin 8} {v : Word} {s t : State} (h : rawWriteTcr n v s = .next t) :
    Reach i q s t := by
  unfold rawWriteTcr at h
  split at h
  · cases h
  · cases h
    exact .single (.txcnt n _ s)

theorem rawWriteCfgr_reach {n : Fin 8} {v : Word} {s t : State} (h : rawWriteCfgr n v s = .next t) :
    Reach i q s t := by
  unfold rawWriteCfgr at h
  split at h
  · cases h
  · rename_i hb
    split at h
    · cases h
    split at h
    · cases h
    · cases h
      exact .single (.cfgr n _ s (by simpa using hb))

theorem rawWriteCsr_reach {n : Fin 8} {v : Word} {s t : State} (h : rawWriteCsr n v s = .next t) :
    Reach i q s t := by
  cases h
  exact .single (.epCsr n (fun e => match s.cfg.epcsrWrite with
    | .toggle => e.toggle (epCsrFields s.cfg.layout.regs v)
    | .plain => epCsrFields s.cfg.layout.regs v) s)

theorem returnWord_reach {v : Word} {s t : State} (h : returnWord v s = .next t) : Reach i q s t := by
  cases h
  exact .single (.observe _ s)

theorem whenControlFree_eq_next {s t : State} {r : Res} :
    whenControlFree s r = .next t ↔ s.tasks.control = none ∧ r = .next t := by
  unfold whenControlFree
  cases s.tasks.control <;> simp

theorem execEnable_reach {s t : State} (hs : q = true → Quiet s) (h : execEnable s = .next t) :
    Reach (some .enable) q s t := by
  unfold execEnable at h
  obtain ⟨a, ha, h⟩ := andThen_eq_next.mp h
  obtain ⟨b, hb, h⟩ := andThen_eq_next.mp h
  obtain ⟨c, hc, h⟩ := andThen_eq_next.mp h
  obtain ⟨d, hd, h⟩ := andThen_eq_next.mp h
  have w (v : Csr) (s : State) : Atom (some .enable) q s (writeCsr v s) := .csr v s fun _ _ => .inr (.inl rfl)
  have r : Reach (some .enable) q s a := Reach.point .refl hs ha
  exact (((((((r.step (w _ a)).point hs hb).step (w _ b)).point hs hc).step (w _ c)).point hs hd |>.step
    (.ier _ d)).step (.enabled _)).finish h

theorem execDisable_reach {s t : State} (hs : q = true → Quiet s) (h : execDisable s = .next t) :
    Reach i q s t := by
  unfold execDisable at h
  obtain ⟨a, ha, h⟩ := andThen_eq_next.mp h
  obtain ⟨b, hb, h⟩ := andThen_eq_next.mp h
  have r : Reach i q s a := Reach.point .refl hs ha
  refine (((r.step (.csr _ a fun e hv => .inl ?_)).point hs hb).step (.ier _ b)).finish h
  rw [point_quiet (hs e)] at ha
  cases ha
  exact hv

theorem execEpSetStalled_reach {a : EpAddr} {b : Bool} {s t : State} (hs : q = true → Quiet s)
    (h : execEpSetStalled a b s = .next t) : Reach i q s t := by
  obtain ⟨n, -, h⟩ := withEndpoint_eq_next.mp h
  obtain ⟨u, hu, h⟩ := andThen_eq_next.mp h
  have r : Reach i q s u := Reach.point .refl hs hu
  exact (r.changeEpCsr n _ _).finish h

theorem execEpSetEnabled_reach {a : EpAddr} {b : Bool} {s t : State} (hs : q = true → Quiet s)
    (h : execEpSetEnabled a b s = .next t) : Reach i q s t := by
  obtain ⟨n, -, h⟩ := withEndpoint_eq_next.mp h
  dsimp only at h
  split at h
  · cases h
  · rename_i hb
    obtain ⟨u, hu, h⟩ := andThen_eq_next.mp h
    have f := (point_frame hu).1
    have r : Reach i q s u := Reach.point .refl hs hu
    refine Reach.finish (r.tail ?_) h
    cases b with
    | true =>
      refine .cfgr n _ u ?_
      rw [badConfig_frame f]
      simp only [Bool.true_and, enableRefused, Bool.or_eq_true, not_or, Bool.not_eq_true] at hb
      exact hb.2
    | false =>
      rw [show s.hw.eps[n].cfgr = u.hw.eps[n].cfgr from (f.cfgr n).symm]
      exact .shutOff n u

theorem execEpRead_reach {a : EpAddr} {len : Nat} {s t : State} (hs : q = true → Quiet s)
    (h : execEpRead a len s = .next t) : Reach i q s t := by
  obtain ⟨n, -, h⟩ := withEndpoint_eq_next.mp h
  have r : Reach i q s s := .refl
  split at h
  · cases h
  · split at h
    · cases h
    · split at h
      · exact r.finish h
      · dsimp only at h
        split at h
        · exact r.finish h
        · obtain ⟨b, hb, h⟩ := andThen_eq_next.mp h
          obtain ⟨⟨bs, c⟩, hc, h⟩ := andThen_eq_next.mp h
          obtain ⟨d, hd, h⟩ := andThen_eq_next.mp h
          exact ((((r.point hs hb).memRead hs hc).point hs hd).storeEpCsr n _ _).finish h

theorem execEpWrite_reach {a : EpAddr} {data : List Byte} {s t : State} (hs : q = true → Quiet s)
    (h : execEpWrite a data s = .next t) : Reach i q s t := by
  obtain ⟨n, -, h⟩ := withEndpoint_eq_next.mp h
  have r : Reach i q s s := .refl
  split at h
  · cases h
  · split at h
    · cases h
    · split at h
      · exact r.finish h
      · obtain ⟨b, hb, h⟩ := andThen_eq_next.mp h
        obtain ⟨c, hc, h⟩ := andThen_eq_next.mp h
        obtain ⟨d, hd, h⟩ := andThen_eq_next.mp h
        obtain ⟨e, he, h⟩ := andThen_eq_next.mp h
        cases h
        exact (((((r.memWrite hs hb).point hs hc).step (.txcnt n _ c)).point hs hd |>.point hs he).storeEpCsr n
          _ _).step (.held _ _)

/-- Whatever an operation does is a sequence of atomic changes. -/
theorem exec_reach {o : Instr} {s t : State} (hs : q = true → Quiet s) (h : exec o s = .next t) :
    Reach (some o) q s t := by
  have r : Reach (some o) q s s := .refl
  cases o with
  | bReset => exact .single (.bus .reset rfl h)
  | bSuspend => exact .single (.bus .suspend rfl h)
  | bResume => exact .single (.bus .resume rfl h)
  | bSof => exact .single (.bus .sof rfl h)
  | bSetup addr ep data => exact .single (.bus (.setup addr ep data) rfl h)
  | bOut addr ep pid data => exact .single (.bus (.out addr ep pid data) rfl h)
  | bIn addr ep ack => exact .single (.bus (.inp addr ep ack) rfl h)
  | newDriver a b =>
    simp only [exec, execNew] at h
    split at h
    · cases h
    · exact (r.step (.new a b s rfl)).finish h
  | allocIn ty opt mps iv => exact allocate_reach h
  | allocOut ty opt mps iv => exact allocate_reach h
  | start cmps =>
    simp only [exec, execStart] at h
    split at h
    · cases h
    · split at h
      · exact (r.step (.start cmps s)).finish h
      split at h
      · cases h
      · rename_i ha _
        refine ((r.step (.alloc 0 .out .control cmps 0 s (by decide) ?_)).step (.start cmps _)).finish h
        simpa [allocFails] using ha
  | bufmap n d =>
    obtain ⟨n, -, h⟩ := orAbort_eq_next.mp h
    exact r.finish h
  | irq => exact (r.step (.clearSched s)).step (.irq _ rfl h)
  | poll =>
    simp only [exec, execPoll, pollAwait] at h
    split at h
    · cases h
    · split at h
      · exact (r.step (.consume s)).pollPass hs h
      · cases h
        exact r.step (.held _ s)
  | epSetStalled a b => exact execEpSetStalled_reach hs h
  | epIsStalled a =>
    obtain ⟨n, -, h⟩ := withEndpoint_eq_next.mp h
    exact r.finish h
  | epSetEnabled a b => exact execEpSetEnabled_reach hs h
  | enable => exact execEnable_reach hs h
  | disable => exact execDisable_reach hs h
  | remoteWakeup => exact r.finish h
  | cpMaxPacketSize => exact r.finish h
  | cpSetup => exact r.setupCheck hs (.inl rfl) (whenControlFree_eq_next.mp h).2
  | cpDataOut len f l => exact (r.step (.phase _ s)).dataOutCheck hs (whenControlFree_eq_next.mp h).2
  | cpDataIn data f l => exact r.dataInCheck hs (whenControlFree_eq_next.mp h).2
  | cpAccept => exact r.statusPhase.acceptSteps hs (whenControlFree_eq_next.mp h).2
  | cpReject =>
    obtain ⟨-, h⟩ := whenControlFree_eq_next.mp h
    obtain ⟨a, ha, h⟩ := andThen_eq_next.mp h
    exact (((r.statusPhase.point hs ha).changeEpCsr 0 _ _).step (.phase _ _)).controlReturn h
  | cpAcceptSetAddress addr =>
    obtain ⟨-, h⟩ := whenControlFree_eq_next.mp h
    obtain ⟨a, ha, h⟩ := andThen_eq_next.mp h
    exact ((r.statusPhase.step (.devar addr _)).point hs ha).acceptSteps hs h
  | epInfo a =>
    obtain ⟨n, -, h⟩ := withEndpoint_eq_next.mp h
    exact r.finish h
  | epWaitEnabled a =>
    obtain ⟨n, -, h⟩ := withEndpoint_eq_next.mp h
    split at h
    · cases h
    · split at h
      · exact r.finish h
      · cases h
        exact r.step (.held _ s)
  | epRead a len => exact execEpRead_reach hs h
  | epWrite a data => exact execEpWrite_reach hs h
  | rd32Csr | rd32Ier | rd32Isr | rd32Devar => exact returnWord_reach h
  | wr32Csr v => cases h; exact .single (.csr _ s fun _ _ => .inr (.inr ⟨v, rfl⟩))
  | wr32Ier v => cases h; exact .single (.ier _ s)
  | wr32Isr v => cases h; exact .single (.status _ s)
  | wr32Devar v => cases h; exact .single (.devar _ s)
  | rd32Ep0csr | rd32Ep1csr | rd32Ep2csr | rd32Ep3csr | rd32Ep4csr | rd32Ep5csr | rd32Ep6csr | rd32Ep7csr
  | rd32Ep0tcr | rd32Ep1tcr | rd32Ep2tcr | rd32Ep3tcr | rd32Ep4tcr | rd32Ep5tcr | rd32Ep6tcr | rd32Ep7tcr
  | rd32Ep0cfgr | rd32Ep1cfgr | rd32Ep2cfgr | rd32Ep3cfgr | rd32Ep4cfgr | rd32Ep5cfgr | rd32Ep6cfgr
  | rd32Ep7cfgr => exact returnWord_reach h
  | wr32Ep0csr v | wr32Ep1csr v | wr32Ep2csr v | wr32Ep3csr v | wr32Ep4csr v | wr32Ep5csr v | wr32Ep6csr v
  | wr32Ep7csr v => exact rawWriteCsr_reach h
  | wr32Ep0tcr v | wr32Ep1tcr v | wr32Ep2tcr v | wr32Ep3tcr v | wr32Ep4tcr v | wr32Ep5tcr v | wr32Ep6tcr v
  | wr32Ep7tcr v => exact rawWriteTcr_reach h
  | wr32Ep0cfgr v | wr32Ep1cfgr v | wr32Ep2cfgr v | wr32Ep3cfgr v | wr32Ep4cfgr v | wr32Ep5cfgr v | wr32Ep6cfgr v
  | wr32Ep7cfgr v => exact rawWriteCfgr_reach h
  | rd32Sram off =>
    simp only [exec, execRd32Sram] at h
    split at h
    · cases h
    · split at h
      · cases h
      · exact (r.step (.draw _ s)).trans (returnWord_reach h)
  | wr32Sram off v =>
    simp only [exec, execWr32Sram] at h
    split at h
    · cases h
    · split at h
      · cases h
      · rename_i h₁ h₂
        cases h
        refine r.step (.bytes _ _ s ?_)
        simp only [wordBytesLe, List.length_cons, List.length_nil]
        omega

end Sys2Proof.Machine
end

