-- ==== Sys2Proof/Laws/Allocator.lean ====
section
/-! SUPPORT. What a successful allocation changes (42_allocator.md R202). -/

namespace Sys2Proof.Machine

variable (n : Fin 8) (d : Dir) (ty : EpType) (mps : Nat) (iv : Byte) (s : State)

@[simp] theorem writeCfgr_fw (v : EpCfgr) : (writeCfgr n v s).fw = s.fw := rfl
@[simp] theorem writeCfgr_cfg (v : EpCfgr) : (writeCfgr n v s).cfg = s.cfg := rfl

/-- A write of the configuration takes no count back. -/
theorem countBack_cfgr (e : Endpoint) (v : EpCfgr) : countBack e { e with cfgr := v } = { e with cfgr := v } :=
  countBack_keep fun h => h

/-- Every endpoint after a write of one's configuration. -/
theorem writeCfgr_eps (v : EpCfgr) : (writeCfgr n v s).hw.eps = s.hw.eps.set n { s.hw.eps[n] with cfgr := v } := by
  rw [writeCfgr, updateEp_hw_eps, countBack_cfgr]

/-- The configuration of every endpoint after a write of one. -/
theorem writeCfgr_get (v : EpCfgr) (m : Fin 8) :
    (writeCfgr n v s).hw.eps[m.val].cfgr = if m = n then v else s.hw.eps[m.val].cfgr := by
  rw [writeCfgr, updateEp_get, countBack_cfgr]
  split <;> rfl

/-- A write of a configuration that moves no buffer ends no race. -/
theorem writeCfgr_epen (b : Bool) :
    writeCfgr n { s.hw.eps[n].cfgr with epen := b } s =
      setEp n (fun e => { e with cfgr := { s.hw.eps[n].cfgr with epen := b } }) s :=
  updateEp_handover rfl rfl rfl (fun h => h) (fun h => h)

@[simp] theorem commitAlloc_cfg : (commitAlloc n d ty mps iv s).cfg = s.cfg := rfl

@[simp] theorem commitAlloc_alloc : (commitAlloc n d ty mps iv s).fw.alloc = s.fw.alloc ||| allocBits n d := rfl

@[simp] theorem commitAlloc_epinfo :
    (commitAlloc n d ty mps iv s).fw.epinfo = s.fw.epinfo.set n (some (newInfo s n d ty mps iv)) := rfl

theorem commitAlloc_epinfo_get (m : Fin 8) : (commitAlloc n d ty mps iv s).fw.epinfo[m.val] =
    if m = n then some (newInfo s n d ty mps iv) else s.fw.epinfo[m.val] := by
  simp [Vector.getElem_set, Fin.ext_iff, eq_comm]

@[simp] theorem commitAlloc_hw :
    (commitAlloc n d ty mps iv s).hw = (writeCfgr n (cfgrValue s.cfg.layout n d ty) s).hw := rfl

/-- The bits an allocation sets are one or both of its own number (42_allocator.md R202, R208(d)). -/
theorem allocBits_get (m : Fin 8) (e : Dir) :
    (allocBits n d).getLsbD (allocIndex m e) = (decide (m = n) && (decide (n = 0) || decide (e = d))) := by
  cases d <;> cases e <;> revert n m <;> decide

/-- After an allocation its endpoint is allocated, and the others are as they were. -/
theorem allocated_commitAlloc (m : Fin 8) :
    allocated (commitAlloc n d ty mps iv s) m = (decide (m = n) || allocated s m) := by
  simp only [allocated, commitAlloc_alloc, BitVec.getLsbD_or, allocBits_get]
  cases d <;> by_cases h : m = n <;> simp [h]

end Sys2Proof.Machine
end

