-- ==== Sys2Proof/Laws/Codec.lean ====
section
/-! SUPPORT. What each reader of the decoder gives on the bytes its encoder writes, whatever follows. -/

namespace Sys2Proof

open Machine (dir_of_isIn)

@[simp] theorem readByte_cons (b : Byte) (r : List Byte) : readByte (b :: r) = .ok (b, r) := rfl

@[simp] theorem readFlag_flagByte (f : Bool) (r : List Byte) : readFlag (flagByte f :: r) = .ok (f, r) := by
  cases f <;> rfl

@[simp] theorem readDir_flagByte (d : Dir) (r : List Byte) : readDir (flagByte d.isIn :: r) = .ok (d, r) := by
  cases d <;> rfl

@[simp] theorem readType_code (t : EpType) (r : List Byte) : readType (t.code.setWidth 8 :: r) = .ok (t, r) := by
  cases t <;> rfl

/-- A number below 65536 is recovered from its two bytes. -/
theorem readNumber_numberBytes {n : Nat} (h : n < 65536) (r : List Byte) :
    readNumber (numberBytes n ++ r) = .ok (n, r) := by
  simp only [numberBytes, List.cons_append, List.nil_append, readNumber, BitVec.toNat_ofNat]
  congr 2
  omega

@[simp] theorem readHalf_halfBytes (h : BitVec 16) (r : List Byte) : readHalf (halfBytes h ++ r) = .ok (h, r) := by
  simp only [halfBytes, List.cons_append, List.nil_append, readHalf]
  congr 2
  apply BitVec.eq_of_getLsbD_eq
  intro i hi
  simp only [BitVec.getLsbD_append, BitVec.getLsbD_extractLsb']
  interval_cases i <;> simp

@[simp] theorem readWord_wordBytesLe (v : Word) (r : List Byte) : readWord (wordBytesLe v ++ r) = .ok (v, r) := by
  simp only [wordBytesLe, List.cons_append, List.nil_append, readWord]
  congr 2
  apply BitVec.eq_of_getLsbD_eq
  intro i hi
  simp only [BitVec.getLsbD_append, BitVec.getLsbD_extractLsb']
  interval_cases i <;> simp

/-- The three fields of an endpoint address byte (30_encoding.md R102). -/
theorem addressByte_fields (b : Bool) (n : BitVec 4) :
    (BitVec.ofBool b ++ 0#3 ++ n).extractLsb' 4 3 = 0#3 ∧ (BitVec.ofBool b ++ 0#3 ++ n).extractLsb' 0 4 = n ∧
      (BitVec.ofBool b ++ 0#3 ++ n).getLsbD 7 = b := by
  revert b n
  decide

@[simp] theorem readAddr_byte (a : EpAddr) (r : List Byte) : readAddr (a.byte :: r) = .ok (a, r) := by
  obtain ⟨h₁, h₂, h₃⟩ := addressByte_fields a.dir.isIn a.num
  unfold readAddr EpAddr.byte
  simp only [h₁, h₂, h₃, if_true, dir_of_isIn]

@[simp] theorem readOptAddr_optAddrBytes (o : Option EpAddr) (r : List Byte) :
    readOptAddr (optAddrBytes o ++ r) = .ok (o, r) := by
  cases o with
  | none => rfl
  | some a =>
    have h : readFlag (1#8 :: a.byte :: r) = .ok (true, a.byte :: r) := rfl
    simp [optAddrBytes, readOptAddr, h]

/-- A byte sequence is recovered from its counted form. -/
theorem readBytes_countedBytes {d : List Byte} (h : d.length < 65536) (r : List Byte) :
    readBytes (countedBytes d ++ r) = .ok (d, r) := by
  unfold readBytes countedBytes
  rw [List.append_assoc, readNumber_numberBytes h]
  simp

/-- The data of a bus packet is recovered from its counted form. -/
theorem readBusData_countedBytes {d : List Byte} (h : d.length ≤ 1023) (r : List Byte) :
    readBusData (countedBytes d ++ r) = .ok (d, r) := by
  unfold readBusData
  rw [readBytes_countedBytes (by omega)]
  simp [h]

/-- The four fields of a bus header (30_encoding.md R100). -/
theorem readBusHeader_busHeaderBytes (addr : BitVec 7) (ep pid : BitVec 4) (ack : Bool) (r : List Byte) :
    readBusHeader (busHeaderBytes addr ep pid ack ++ r) = .ok (⟨addr, ep, pid, ack⟩, r) := by
  simp only [readBusHeader, busHeaderBytes, readHalf_halfBytes]
  congr 2
  simp only [BusHeader.mk.injEq]
  refine ⟨?_, ?_, ?_, ?_⟩
  · apply BitVec.eq_of_getLsbD_eq
    intro i hi
    simp only [BitVec.getLsbD_append, BitVec.getLsbD_extractLsb']
    interval_cases i <;> simp
  · apply BitVec.eq_of_getLsbD_eq
    intro i hi
    simp only [BitVec.getLsbD_append, BitVec.getLsbD_extractLsb']
    interval_cases i <;> simp
  · apply BitVec.eq_of_getLsbD_eq
    intro i hi
    simp only [BitVec.getLsbD_append, BitVec.getLsbD_extractLsb']
    interval_cases i <;> simp
  · simp only [BitVec.getLsbD_append]
    simp

/-- The fields of the 14 bits of format R (30_encoding.md R100). -/
theorem accessHalf_fields (rw space : Bool) (off : BitVec 12) :
    (0#2 ++ BitVec.ofBool rw ++ BitVec.ofBool space ++ off).extractLsb' 14 2 = 0#2 ∧
      (0#2 ++ BitVec.ofBool rw ++ BitVec.ofBool space ++ off).getLsbD 13 = rw ∧
      (0#2 ++ BitVec.ofBool rw ++ BitVec.ofBool space ++ off).getLsbD 12 = space ∧
      (0#2 ++ BitVec.ofBool rw ++ BitVec.ofBool space ++ off).extractLsb' 0 12 = off := by
  refine ⟨?_, ?_, ?_, ?_⟩
  · apply BitVec.eq_of_getLsbD_eq
    intro i hi
    simp only [BitVec.getLsbD_append, BitVec.getLsbD_extractLsb']
    interval_cases i <;> simp
  · simp only [BitVec.getLsbD_append]
    simp
  · simp only [BitVec.getLsbD_append]
    simp
  · apply BitVec.eq_of_getLsbD_eq
    intro i hi
    simp only [BitVec.getLsbD_append, BitVec.getLsbD_extractLsb']
    interval_cases i <;> simp

/-- A record of format R decodes by its fields (30_encoding.md R100, R107). -/
theorem decode_accessRecord (l : Config.Layout) (rw space : Bool) (off : BitVec 12) (r : List Byte) :
    decodeWith l .access (Machine.accessRecord rw space off ++ r) = decodeAccessFields l rw space off r := by
  obtain ⟨h₁, h₂, h₃, h₄⟩ := accessHalf_fields rw space off
  simp only [decodeWith, decodeAccess, Machine.accessRecord, readHalf_halfBytes, h₁, h₂, h₃, h₄, if_true]

/-- The same record after id 0x10 or 0x11, its direction bit 0: the id gives the direction (30_encoding.md R108). -/
theorem decodeIdAccess_accessRecord (l : Config.Layout) (rw space : Bool) (off : BitVec 12) (r : List Byte) :
    decodeIdAccess l rw (Machine.accessRecord false space off ++ r) = decodeAccessFields l rw space off r := by
  obtain ⟨h₁, h₂, h₃, h₄⟩ := accessHalf_fields false space off
  have h₀ : (0#2 ++ BitVec.ofBool false ++ BitVec.ofBool space ++ off : BitVec 16).extractLsb' 13 3 = 0#3 := by
    apply BitVec.eq_of_getLsbD_eq
    intro i hi
    simp only [BitVec.getLsbD_append, BitVec.getLsbD_extractLsb']
    interval_cases i <;> simp
  simp only [decodeIdAccess, Machine.accessRecord, readHalf_halfBytes, h₀, h₃, h₄, if_true]

theorem readAccess_eq (space : Bool) (off : BitVec 12) :
    readAccess space off = (.access, Machine.accessRecord false space off) := by
  cases space <;> rfl

theorem writeAccess_eq (space : Bool) (off : BitVec 12) (v : Word) :
    writeAccess space off v = (.access, Machine.accessRecord true space off ++ wordBytesLe v) := by
  cases space <;> rfl

end Sys2Proof
end

