-- ==== Sys2Proof/Laws/Registers.lean ====
section
/-! SUPPORT. What each register write does, said once (40_register_access.md R131 to R141). -/

namespace Sys2Proof.Machine

/-! ### `CSR` -/

/-- A write of `CSR` that is no 0-to-1 write of `SRAMRSTC` stores its bits only (40_register_access.md R131). -/
theorem writeCsr_no_reset {s : State} {v : Csr} (h : s.hw.csr.sramrstc = true ∨ v.sramrstc = false) :
    writeCsr v s = storeCsr v s := by
  unfold writeCsr
  rcases h with h | h <;> simp [h]

/-- A 0-to-1 write of `SRAMRSTC` performs the SRAM/DATA-toggle reset (40_register_access.md R132). -/
theorem writeCsr_toggleReset {s : State} {v : Csr} (hl : s.cfg.layout = Config.Layout.std)
    (h : s.hw.csr.sramrstc = false) (hv : v.sramrstc = true) : ToggleReset s (writeCsr v s) := by
  have e : writeCsr v s = sramReset (storeCsr v s) := by simp [writeCsr, h, hv]
  rw [e]
  refine ⟨fun n => sramReset_get (storeCsr v s) n, ?_, ?_⟩
  · unfold ContentReset sramReset resetContent
    cases hc : s.cfg.sramRstContent <;> simp only [endRaces_cfg, storeCsr, hc]
    · exact ⟨rfl, fun a => ⟨rfl, rfl⟩⟩
    · refine ⟨rfl, fun a => rfl, fun a => ?_⟩
      rw [racedAt_endRaces, racedAfter, sieOwns_endRaces]
      rfl
    · refine ⟨rfl, fun a ha => ⟨?_, rfl⟩⟩
      rw [hl]
      simp [byteAt, Memory.find_zeros (size := Config.Layout.std.sramSize) ha]
  · unfold sramReset resetContent
    cases hc : s.cfg.sramRstContent <;> simp only [endRaces_cfg, storeCsr, hc] <;> rfl

/-- A write of `CSR` changes the hardware only. -/
theorem writeCsr_hardware (s : State) (v : Csr) : SameButHardware s (writeCsr v s) := by
  unfold SameButHardware writeCsr sramReset resetContent
  split
  · simp only [endRaces_cfg, storeCsr]
    split <;> rfl
  · rfl

/-! ### `EPnCSR` -/

/-- Toggling twice by the difference gives the wanted bits. -/
theorem EpCsr.toggle_toggle (c d : EpCsr) : c.toggle (c.toggle d) = d := by
  cases c
  cases d
  simp [EpCsr.toggle]

/-- The effect-level write of `EPnCSR` with the value just read gives the wanted bits under either write semantics, and
ends no race where it takes no buffer from the SIE (40_register_access.md R141). -/
theorem storeEpCsr_fresh {n : Fin 8} {s : State} {want : EpCsr}
    (ht : s.hw.eps[n].csr.naktx = false → want.naktx = false)
    (hr : s.hw.eps[n].csr.nakrx = false → want.nakrx = false) :
    storeEpCsr n s.hw.eps[n.val].csr want s = setEp n (fun e => { e with csr := want }) s := by
  have upd : updateEp n (fun e => { e with csr := want }) s = setEp n (fun e => { e with csr := want }) s :=
    updateEp_handover rfl rfl rfl ht hr
  unfold storeEpCsr
  cases hc : s.cfg.epcsrWrite
  · dsimp only
    split
    · rename_i h
      rw [← h]
      show s = { s with hw := { s.hw with eps := s.hw.eps.set n s.hw.eps[n.val] } }
      rw [Vector.set_getElem_self]
    · rw [← upd]
      simp [writeEpCsr, hc, updateEp, setEp, EpCsr.toggle_toggle]
  · rw [← upd]
    simp [writeEpCsr, hc]

/-- So does the write that is made only where a bit differs. -/
theorem changeEpCsr_fresh {n : Fin 8} {s : State} {want : EpCsr}
    (ht : s.hw.eps[n].csr.naktx = false → want.naktx = false)
    (hr : s.hw.eps[n].csr.nakrx = false → want.nakrx = false) :
    changeEpCsr n s.hw.eps[n.val].csr want s = setEp n (fun e => { e with csr := want }) s := by
  unfold changeEpCsr
  split
  · rename_i h
    rw [← h]
    show s = { s with hw := { s.hw with eps := s.hw.eps.set n s.hw.eps[n.val] } }
    rw [Vector.set_getElem_self]
  · exact storeEpCsr_fresh ht hr

/-! ### `EPnCFGR` -/

theorem overlaps_eq_false (a la b lb : Nat) : overlaps a la b lb = false ↔ Apart a la b lb := by
  simp only [overlaps, Apart, Bool.and_eq_false_iff, decide_eq_false_iff_not]
  omega

/-- The configurations the spec gives a meaning are those the check lets through (40_register_access.md R139). -/
theorem configLegal_iff {s : State} (hl : s.cfg.layout = Config.Layout.std) (n : Fin 8) (c : EpCfgr) :
    ConfigLegal s n c ↔ badConfig n c s = false := by
  have hz : s.cfg.layout.sramSize = 1024 := by rw [hl]; rfl
  have hw : s.cfg.layout.word = 4 := by rw [hl]; rfl
  simp only [badConfig, hz, hw, meetsEnabled, meetsEp0, Bool.or_eq_false_iff, Bool.and_eq_false_imp, List.any_eq_false,
    List.mem_finRange, true_implies, decide_eq_false_iff_not, decide_eq_true_eq, ne_eq, Decidable.not_not, Nat.not_lt,
    overlaps_eq_false]
  constructor
  · rintro ⟨h₁, ⟨h₂, h₃, h₄⟩, h₅, h₅', h₅'', h₆⟩
    refine ⟨⟨⟨⟨⟨h₁, h₂⟩, h₃⟩, h₄⟩, ⟨⟨h₅, h₅'⟩, h₅''⟩⟩, fun m => ?_⟩
    simp only [Bool.and_eq_true, decide_eq_true_eq, not_and, Bool.not_eq_true, overlaps_eq_false]
    rintro ⟨⟨a, b⟩, d⟩
    exact h₆ m a b d
  · rintro ⟨⟨⟨⟨⟨h₁, h₂⟩, h₃⟩, h₄⟩, ⟨⟨h₅, h₅'⟩, h₅''⟩⟩, h₆⟩
    refine ⟨h₁, ⟨h₂, h₃, h₄⟩, h₅, h₅', h₅'', fun m a b d => ?_⟩
    have := h₆ m
    simp only [Bool.and_eq_true, decide_eq_true_eq, not_and, Bool.not_eq_true, overlaps_eq_false] at this
    exact this ⟨⟨a, b⟩, d⟩

/-- The writes that enable nothing unallocated are those the check lets through (U7). -/
theorem enablesAllocated_iff (s : State) (n : Fin 8) (c : EpCfgr) :
    EnablesAllocated s n c ↔ enablesUnallocated n c s = false := by
  unfold EnablesAllocated enablesUnallocated allocated allocIndex
  simp only [Bool.and_eq_false_iff, Bool.not_eq_false', Bool.or_eq_true, or_assoc]

/-! ### The banks, by endpoint -/

theorem exec_writeCsrInstr (n : Fin 8) (v : Word) (s : State) :
    exec (writeCsrInstr n v) s = .next (writeEpCsr n (epCsrFields s.cfg.layout.regs v) s) := by
  match n with
  | 0 | 1 | 2 | 3 | 4 | 5 | 6 | 7 => rfl

theorem exec_writeTcrInstr (n : Fin 8) (v : Word) (s : State) : exec (writeTcrInstr n v) s = rawWriteTcr n v s := by
  match n with
  | 0 | 1 | 2 | 3 | 4 | 5 | 6 | 7 => rfl

theorem exec_writeCfgrInstr (n : Fin 8) (v : Word) (s : State) :
    exec (writeCfgrInstr n v) s = rawWriteCfgr n v s := by
  match n with
  | 0 | 1 | 2 | 3 | 4 | 5 | 6 | 7 => rfl

/-! ### Endpoint numbers -/

/-- An endpoint given by its 4-bit number is found. -/
theorem withEndpoint_of {s : State} {a : EpAddr} {n : Fin 8} (hl : s.cfg.layout = Config.Layout.std)
    (h : a.num = BitVec.ofNat 4 n.val) (f : Fin 8 → Res) : withEndpoint s a f = f n := by
  unfold withEndpoint
  rw [h, hl, show BitVec.ofNat 4 n.val = epNumber n from rfl, epIndex_epNumber]
  rfl

/-- A number above 7 aborts (60_exceptions.md R315). -/
theorem withEndpoint_abort {s : State} {a : EpAddr} (hl : s.cfg.layout = Config.Layout.std) (h : 7 < a.num.toNat)
    (f : Fin 8 → Res) : withEndpoint s a f = abort := by
  unfold withEndpoint epIndex
  rw [hl, endpointOf_none h]
  rfl

end Sys2Proof.Machine
end

