-- ==== Sys2Proof/Tests/Slice0.lean ====
section
/-! SUPPORT. Tests: expected results are those of spec/95_test_vectors.md (named RA, BS, AL, DI, CP, EP, ER) or are
worked out by hand from the rule named. Then, for each statement with hypotheses, a witness that meets them. -/

namespace Sys2Proof.Tests

open Sys2Proof.Machine

/-! ### Helpers -/

/-- The outcome is a next state with the property. -/
def endsIn (r : Res) (p : State → Bool) : Bool :=
  match r with
  | .next s => p s
  | _ => false

/-- The outcome is that refusal. -/
def refuses (r : Res) (e : Refusal) : Bool :=
  match r with
  | .refused d => decide (d = e)
  | _ => false

/-- The outcome is the abort. -/
def aborts (r : Res) : Bool :=
  match r with
  | .fault .abort => true
  | _ => false

/-- An operation decoded from bytes. -/
def decodesTo (p : Port) (bs : List Byte) (i : Instr) : Bool :=
  match decode p bs with
  | .ok j => decide (j = i)
  | .error _ => false

/-- Bytes that decode to no operation, with the reason. -/
def rejects (p : Port) (bs : List Byte) (e : DecodeError) : Bool :=
  match decode p bs with
  | .ok _ => false
  | .error d => decide (d = e)

/-- Every register access of a list decodes as written. -/
def decodesAll (l : List (List Byte × Instr)) : Bool := l.all fun p => decodesTo .access p.1 p.2

/-- The newest output. -/
def newest (s : State) : Obs := s.log.headD (.answer .none)

def csrOf (n : Fin 8) (s : State) : Word := epCsrWord s.hw.eps[n].csr
def tcrOf (n : Fin 8) (s : State) : Word := epTcrWord s.hw.eps[n].txcnt s.hw.eps[n].rxcnt
def cfgrOf (n : Fin 8) (s : State) : Word := epCfgrWord s.hw.eps[n].cfgr
def isrOf (s : State) : Word := isrWord s.hw.isr
def flagsOf (s : State) : List Bool := s.fw.evf.toList

/-- The state after hardware reset with budgets of 3 and 2 checks (95 uses SETUP_TIMEOUT_POLLS = 3, CTRL_RETRY_MAX = 2). -/
def hwState : State :=
  { State.reset with cfg := { Config.Params.std with setupMoreChecks := 2, ctrlMoreChecks := 1 } }

/-- Endpoint `n` with the three register images. -/
def withBank (n : Fin 8) (csr tcr cfgr : Word) (s : State) : State :=
  setEp n (fun e => { e with
    csr := epCsrOfWord csr
    txcnt := tcr.extractLsb' 0 7
    rxcnt := tcr.extractLsb' 16 7
    cfgr := epCfgrOfWord cfgr }) s

/-- `CSR` by its image. -/
def withCsr (v : Word) (s : State) : State := storeCsr (csrOfWord v) s

/-- `ISR` by its image. -/
def withIsr (v : Word) (s : State) : State := { s with hw := { s.hw with isr := isrOfWord v } }

/-- The event flags with the given indices, and `WAKE`. -/
def withFlags (l : List (Fin 8)) (wake : Bool) (s : State) : State :=
  { s with fw := { s.fw with evf := Vector.ofFn fun k => decide (k ∈ l), wake := wake } }

/-- Endpoint `n` allocated as bulk in direction `d`. -/
def withInfo (n : Fin 8) (d : Dir) (mps : Nat) (s : State) : State :=
  { s with fw := { s.fw with
    alloc := s.fw.alloc ||| allocBits n d
    epinfo := s.fw.epinfo.set n (some ⟨⟨epNumber n, d⟩, .bulk, mps, 0⟩) } }

/-- The bus state of 95: attached, address 5, endpoint 0, endpoint 2 bulk OUT, 3 bulk IN, 4 interrupt OUT enabled. -/
def busState : State :=
  withBank 0 0x02 0 0x80010008 <| withBank 2 0x02 0 0xC201F104 <| withBank 3 0x02 0 0xD301F180 <|
    withBank 4 0x02 0 0xE401F1FC <| withCsr 0x400 { hwState with hw := { hwState.hw with addrActive := 5 } }

/-- The SETUP packet of BS7. -/
def getDescriptor : List Byte := [0x80#8, 0x06#8, 0x00#8, 0x01#8, 0x00#8, 0x00#8, 0x12#8, 0x00#8]

/-- The SETUP packet of Scenario C: SET_CONFIGURATION 1. -/
def setConfiguration : List Byte := [0x00#8, 0x09#8, 0x01#8, 0x00#8, 0x00#8, 0x00#8, 0x00#8, 0x00#8]

/-! ### WellFormed: each check refuses an ill-formed operation -/

theorem test_wf_setup_data : (Instr.bSetup 0 0 (List.replicate 1024 0)).wf = false := by
  show decide ((List.replicate 1024 (0 : Byte)).length ≤ 1023) = false
  rw [List.length_replicate]; decide
theorem test_wf_out_data : (Instr.bOut 0 0 3 (List.replicate 1024 0)).wf = false := by
  show decide ((List.replicate 1024 (0 : Byte)).length ≤ 1023) = false
  rw [List.length_replicate]; decide
theorem test_wf_numbers : (Instr.allocIn .bulk none 65536 0).wf = false ∧ (Instr.allocOut .bulk none 65536 0).wf = false ∧
    (Instr.start 65536).wf = false ∧ (Instr.bufmap 256 .inp).wf = false ∧ (Instr.cpDataOut 65536 true true).wf = false ∧
    (Instr.epRead ⟨2, .out⟩ 65536).wf = false := by decide
theorem test_wf_byte_sequences : (Instr.cpDataIn (List.replicate 65536 0) true true).wf = false ∧
    (Instr.epWrite ⟨3, .inp⟩ (List.replicate 65536 0)).wf = false := by
  show decide ((List.replicate 65536 (0 : Byte)).length < 65536) = false ∧
    decide ((List.replicate 65536 (0 : Byte)).length < 65536) = false
  rw [List.length_replicate]; decide
theorem test_wf_sram_offset : (Instr.rd32Sram 0x002).wf = false ∧ (Instr.wr32Sram 0x400 0).wf = false ∧
    (Instr.rd32Sram 0x3FC).wf = true := by decide

/-! ### Decoding: words written out from the spec's encodings -/

/-- R107: rw = 0, space = 0, off 0x000, 0x004, 0x008, 0x010; two bytes, the low byte first. -/
theorem test_decode_global_reads :
    decodesAll [
      ([0x00#8, 0x00#8], .rd32Csr),
      ([0x04#8, 0x00#8], .rd32Ier),
      ([0x08#8, 0x00#8], .rd32Isr),
      ([0x10#8, 0x00#8], .rd32Devar)] = true := by decide

/-- R100, R107: rw = 1 (bit 13), then the write data. -/
theorem test_decode_global_writes :
    decodesAll [
      ([0x00#8, 0x20#8, 0x78#8, 0x56#8, 0x34#8, 0x12#8], .wr32Csr 0x12345678),
      ([0x04#8, 0x20#8, 0x78#8, 0x56#8, 0x34#8, 0x12#8], .wr32Ier 0x12345678),
      ([0x08#8, 0x20#8, 0x78#8, 0x56#8, 0x34#8, 0x12#8], .wr32Isr 0x12345678),
      ([0x10#8, 0x20#8, 0x78#8, 0x56#8, 0x34#8, 0x12#8], .wr32Devar 0x12345678)] = true := by decide

/-- R107: `EPnCSR` at 0x014 + 0x14*n + 0x00, reads. -/
theorem test_decode_reads_csr :
    decodesAll [
      ([0x14#8, 0x00#8], .rd32Ep0csr),
      ([0x28#8, 0x00#8], .rd32Ep1csr),
      ([0x3C#8, 0x00#8], .rd32Ep2csr),
      ([0x50#8, 0x00#8], .rd32Ep3csr),
      ([0x64#8, 0x00#8], .rd32Ep4csr),
      ([0x78#8, 0x00#8], .rd32Ep5csr),
      ([0x8C#8, 0x00#8], .rd32Ep6csr),
      ([0xA0#8, 0x00#8], .rd32Ep7csr)] = true := by decide

/-- R107: `EPnCSR` at 0x014 + 0x14*n + 0x00, writes. -/
theorem test_decode_writes_csr :
    decodesAll [
      ([0x14#8, 0x20#8, 0x78#8, 0x56#8, 0x34#8, 0x12#8], .wr32Ep0csr 0x12345678),
      ([0x28#8, 0x20#8, 0x78#8, 0x56#8, 0x34#8, 0x12#8], .wr32Ep1csr 0x12345678),
      ([0x3C#8, 0x20#8, 0x78#8, 0x56#8, 0x34#8, 0x12#8], .wr32Ep2csr 0x12345678),
      ([0x50#8, 0x20#8, 0x78#8, 0x56#8, 0x34#8, 0x12#8], .wr32Ep3csr 0x12345678),
      ([0x64#8, 0x20#8, 0x78#8, 0x56#8, 0x34#8, 0x12#8], .wr32Ep4csr 0x12345678),
      ([0x78#8, 0x20#8, 0x78#8, 0x56#8, 0x34#8, 0x12#8], .wr32Ep5csr 0x12345678),
      ([0x8C#8, 0x20#8, 0x78#8, 0x56#8, 0x34#8, 0x12#8], .wr32Ep6csr 0x12345678),
      ([0xA0#8, 0x20#8, 0x78#8, 0x56#8, 0x34#8, 0x12#8], .wr32Ep7csr 0x12345678)] = true := by decide

/-- R107: `EPnTCR` at 0x014 + 0x14*n + 0x0C, reads. -/
theorem test_decode_reads_tcr :
    decodesAll [
      ([0x20#8, 0x00#8], .rd32Ep0tcr),
      ([0x34#8, 0x00#8], .rd32Ep1tcr),
      ([0x48#8, 0x00#8], .rd32Ep2tcr),
      ([0x5C#8, 0x00#8], .rd32Ep3tcr),
      ([0x70#8, 0x00#8], .rd32Ep4tcr),
      ([0x84#8, 0x00#8], .rd32Ep5tcr),
      ([0x98#8, 0x00#8], .rd32Ep6tcr),
      ([0xAC#8, 0x00#8], .rd32Ep7tcr)] = true := by decide

/-- R107: `EPnTCR` at 0x014 + 0x14*n + 0x0C, writes. -/
theorem test_decode_writes_tcr :
    decodesAll [
      ([0x20#8, 0x20#8, 0x78#8, 0x56#8, 0x34#8, 0x12#8], .wr32Ep0tcr 0x12345678),
      ([0x34#8, 0x20#8, 0x78#8, 0x56#8, 0x34#8, 0x12#8], .wr32Ep1tcr 0x12345678),
      ([0x48#8, 0x20#8, 0x78#8, 0x56#8, 0x34#8, 0x12#8], .wr32Ep2tcr 0x12345678),
      ([0x5C#8, 0x20#8, 0x78#8, 0x56#8, 0x34#8, 0x12#8], .wr32Ep3tcr 0x12345678),
      ([0x70#8, 0x20#8, 0x78#8, 0x56#8, 0x34#8, 0x12#8], .wr32Ep4tcr 0x12345678),
      ([0x84#8, 0x20#8, 0x78#8, 0x56#8, 0x34#8, 0x12#8], .wr32Ep5tcr 0x12345678),
      ([0x98#8, 0x20#8, 0x78#8, 0x56#8, 0x34#8, 0x12#8], .wr32Ep6tcr 0x12345678),
      ([0xAC#8, 0x20#8, 0x78#8, 0x56#8, 0x34#8, 0x12#8], .wr32Ep7tcr 0x12345678)] = true := by decide

/-- R107: `EPnCFGR` at 0x014 + 0x14*n + 0x10, reads. -/
theorem test_decode_reads_cfgr :
    decodesAll [
      ([0x24#8, 0x00#8], .rd32Ep0cfgr),
      ([0x38#8, 0x00#8], .rd32Ep1cfgr),
      ([0x4C#8, 0x00#8], .rd32Ep2cfgr),
      ([0x60#8, 0x00#8], .rd32Ep3cfgr),
      ([0x74#8, 0x00#8], .rd32Ep4cfgr),
      ([0x88#8, 0x00#8], .rd32Ep5cfgr),
      ([0x9C#8, 0x00#8], .rd32Ep6cfgr),
      ([0xB0#8, 0x00#8], .rd32Ep7cfgr)] = true := by decide

/-- R107: `EPnCFGR` at 0x014 + 0x14*n + 0x10, writes. -/
theorem test_decode_writes_cfgr :
    decodesAll [
      ([0x24#8, 0x20#8, 0x78#8, 0x56#8, 0x34#8, 0x12#8], .wr32Ep0cfgr 0x12345678),
      ([0x38#8, 0x20#8, 0x78#8, 0x56#8, 0x34#8, 0x12#8], .wr32Ep1cfgr 0x12345678),
      ([0x4C#8, 0x20#8, 0x78#8, 0x56#8, 0x34#8, 0x12#8], .wr32Ep2cfgr 0x12345678),
      ([0x60#8, 0x20#8, 0x78#8, 0x56#8, 0x34#8, 0x12#8], .wr32Ep3cfgr 0x12345678),
      ([0x74#8, 0x20#8, 0x78#8, 0x56#8, 0x34#8, 0x12#8], .wr32Ep4cfgr 0x12345678),
      ([0x88#8, 0x20#8, 0x78#8, 0x56#8, 0x34#8, 0x12#8], .wr32Ep5cfgr 0x12345678),
      ([0x9C#8, 0x20#8, 0x78#8, 0x56#8, 0x34#8, 0x12#8], .wr32Ep6cfgr 0x12345678),
      ([0xB0#8, 0x20#8, 0x78#8, 0x56#8, 0x34#8, 0x12#8], .wr32Ep7cfgr 0x12345678)] = true := by decide

/-- R107: space = 1 (bit 12), offsets 0x000 and 0x3FC. -/
theorem test_decode_sram :
    decodesAll [
      ([0x00#8, 0x10#8], .rd32Sram 0x000),
      ([0xFC#8, 0x13#8], .rd32Sram 0x3FC),
      ([0x88#8, 0x30#8, 0x11#8, 0x22#8, 0x33#8, 0x44#8], .wr32Sram 0x088 0x44332211)] = true := by decide

/-- R108: format B, ids 0x01 to 0x07. Header of B_SETUP(addr 5, ep 0): addr in bits 6 to 0, ep in 10 to 7, pid in 14 to 11, ack in 15. -/
theorem test_decode_bus :
    (decodesTo .op [0x01#8] .bReset && decodesTo .op [0x02#8] .bSuspend && decodesTo .op [0x03#8] .bResume &&
      decodesTo .op [0x04#8] .bSof &&
      decodesTo .op ([0x05#8, 0x05#8, 0x00#8, 0x08#8, 0x00#8] ++ getDescriptor) (.bSetup 5 0 getDescriptor) &&
      decodesTo .op [0x06#8, 0x05#8, 0x19#8, 0x03#8, 0x00#8, 9#8, 8#8, 7#8] (.bOut 5 2 0x3 [9#8, 8#8, 7#8]) &&
      decodesTo .op [0x07#8, 0x85#8, 0x81#8] (.bIn 5 3 true)) = true := by decide

/-- R108: ids 0x20 to 0x24; R103 transfer types; R102 the address byte 0x83 is IN 3. -/
theorem test_decode_arbiter :
    (decodesTo .op [0x20#8, 0#8, 1#8] (.newDriver false true) &&
      decodesTo .op [0x21#8, 2#8, 1#8, 0x83#8, 0x00#8, 0x02#8, 0#8] (.allocIn .bulk (some ⟨3, .inp⟩) 512 0) &&
      decodesTo .op [0x22#8, 3#8, 0#8, 0#8, 8#8, 0#8, 10#8] (.allocOut .interrupt none 8 10) &&
      decodesTo .op [0x23#8, 64#8, 0#8] (.start 64) && decodesTo .op [0x24#8, 7#8, 1#8] (.bufmap 7 .inp) &&
      decodesTo .op [0x60#8, 0x83#8] (.epInfo ⟨3, .inp⟩)) = true := by decide

/-- R108: ids 0x30 and 0x40 to 0x46. -/
theorem test_decode_dispatcher :
    (decodesTo .op [0x30#8] .irq && decodesTo .op [0x40#8] .poll &&
      decodesTo .op [0x41#8, 0x83#8, 1#8] (.epSetStalled ⟨3, .inp⟩ true) &&
      decodesTo .op [0x42#8, 0x03#8] (.epIsStalled ⟨3, .out⟩) &&
      decodesTo .op [0x43#8, 0x03#8, 0#8] (.epSetEnabled ⟨3, .out⟩ false) && decodesTo .op [0x44#8] .enable &&
      decodesTo .op [0x45#8] .disable && decodesTo .op [0x46#8] .remoteWakeup) = true := by decide

/-- R108: ids 0x50 to 0x56. -/
theorem test_decode_control :
    (decodesTo .op [0x50#8] .cpMaxPacketSize && decodesTo .op [0x51#8] .cpSetup &&
      decodesTo .op [0x52#8, 64#8, 0#8, 1#8, 0#8] (.cpDataOut 64 true false) &&
      decodesTo .op [0x53#8, 0#8, 1#8, 2#8, 0#8, 0xAA#8, 0xBB#8] (.cpDataIn [0xAA#8, 0xBB#8] false true) &&
      decodesTo .op [0x54#8] .cpAccept && decodesTo .op [0x55#8] .cpReject &&
      decodesTo .op [0x56#8, 5#8] (.cpAcceptSetAddress 5)) = true := by decide

/-- R108: ids 0x61 to 0x63. -/
theorem test_decode_endpoint_io :
    (decodesTo .op [0x61#8, 0x83#8] (.epWaitEnabled ⟨3, .inp⟩) &&
      decodesTo .op [0x62#8, 0x02#8, 64#8, 0#8] (.epRead ⟨2, .out⟩ 64) &&
      decodesTo .op [0x63#8, 0x83#8, 2#8, 0#8, 1#8, 2#8] (.epWrite ⟨3, .inp⟩ [1#8, 2#8])) = true := by decide

/-- R108: ids 0x10 and 0x11 carry a register access, the id giving `rw`. -/
theorem test_decode_access_ids :
    (decodesTo .op [0x10#8, 0x08#8, 0x00#8] .rd32Isr &&
      decodesTo .op [0x11#8, 0x88#8, 0x10#8, 0x11#8, 0x22#8, 0x33#8, 0x44#8] (.wr32Sram 0x088 0x44332211)) = true := by
  decide

/-- R111(c), R102, R103, R106, R107, R143: what decodes to nothing, by name (RA5, RA26). -/
theorem test_decode_rejects :
    (rejects .op [0x00#8] (.unknownId 0) && rejects .op [0x47#8] (.unknownId 0x47) && rejects .op [] .truncated &&
      rejects .op [0x42#8, 0x13#8] (.reservedAddressBits 0x13) && rejects .op [0x41#8, 0x83#8, 2#8] (.badFlag 2) &&
      rejects .op [0x21#8, 4#8, 0#8, 0#8, 0#8, 0#8, 0#8] (.badTransferType 4) &&
      rejects .access [0x02#8, 0x00#8] (.misaligned 2) && rejects .access [0xB4#8, 0x00#8] (.outsideWindow 0xB4) &&
      rejects .access [0x00#8, 0x14#8] (.outsideWindow 0x400) && rejects .access [0x0C#8, 0x00#8] (.holeRead 0x00C) &&
      rejects .access [0x18#8, 0x20#8, 0#8, 0#8, 0#8, 0#8] (.holeWrite 0x018) &&
      rejects .access [0x00#8, 0x40#8] .reservedAccessBits) = true := by decide

/-- The table's numbering: 8 bits of id, 14 bits of a register access. -/
theorem test_decode_table : decodeTableWord 8 0x40 = some .poll ∧ decodeTableWord 14 0x2060 = some (.wr32Ep3cfgr 0) ∧
    decodeTableWord 14 0x00A0 = some .rd32Ep7csr ∧ decodeTableWord 8 0xFF = none := by decide

/-! ### Register accesses -/

/-- RA1, RA2. -/
theorem test_ra1 : endsIn (exec .rd32Ep0csr hwState) (fun s => newest s = .value 2#32) = true := by decide
theorem test_ra2 : endsIn (exec .rd32Ep7csr hwState) (fun s => newest s = .value 2#32) = true := by decide
/-- RA3: a read clears nothing. -/
theorem test_ra3 : endsIn (exec .rd32Isr (withIsr 0x114 hwState)) (fun s => newest s = .value 0x114#32 && isrOf s = 0x114) = true := by
  decide
/-- RA4: a hole reads a free value and nothing else changes. -/
theorem test_ra4 : step { hwState with inbox := [.issue .access [0x0C#8, 0x00#8] []] } =
    .next { hwState with log := [.value (Config.freeHole 0)], hw := { hwState.hw with draws := 1 } } := rfl
/-- RA6. -/
theorem test_ra6 : endsIn (exec (.wr32Csr 0x600)
    (setEp 0 (fun e => { e with dtgTx := true }) (withBank 3 0 5 0 (withCsr 0x400 hwState)))) (fun s =>
      csrWord s.hw.csr = 0x600 && !s.hw.eps[(0 : Fin 8)].dtgTx && tcrOf 3 s = 0 && csrOf 3 s = 2 && s.hw.epoch = 1) = true := by
  decide
/-- RA7, RA8: no second reset, and none on the falling edge. -/
theorem test_ra7 : endsIn (exec (.wr32Csr 0x600) (withCsr 0x600 hwState)) (fun s => s.hw.epoch = 0) = true := by decide
/-- RA10. -/
theorem test_ra10 : (bufferReset { Endpoint.reset with csr := epCsrOfWord 0x24 }).csr = epCsrOfWord 0x26 := by decide
/-- RA11. -/
theorem test_ra11 : endsIn (exec (.wr32Ier 0xFFFFFFFF) hwState) (fun s => ierWord s.hw.ier = 0xF1F) = true := by decide
/-- RA12, RA14. -/
theorem test_ra12 : endsIn (exec (.wr32Isr 4) (withIsr 0x114 hwState)) (fun s => isrOf s = 0x110) = true := by decide
theorem test_ra14 : endsIn (exec (.wr32Isr 0xFFFFFFFF) (withIsr 0x114 hwState)) (fun s => isrOf s = 0) = true := by decide
/-- RA15. -/
theorem test_ra15 : endsIn (exec (.wr32Devar 0x85) hwState) (fun s =>
    devarWord s.hw.devar = 5 && s.hw.addrPending && s.hw.addrActive = 0) = true := by decide
/-- RA17, RA18. -/
theorem test_ra17 : endsIn (exec (.wr32Ep2csr 0x36) hwState) (fun s => csrOf 2 s = 0x34) = true := by decide
theorem test_ra18 : endsIn (exec (.wr32Ep2csr 0xFFFFFFC9) hwState) (fun s => csrOf 2 s = 0x02) = true := by decide
/-- RA19: plain semantics. -/
theorem test_ra19 : endsIn (exec (.wr32Ep1csr 0x10)
    (withBank 1 0x12 0 0 { hwState with cfg := { hwState.cfg with epcsrWrite := .plain } })) (fun s => csrOf 1 s = 0x10) = true := by
  decide
/-- RA20, RA21. -/
theorem test_ra20 : endsIn (exec (.wr32Ep0tcr 0x00400012) (withBank 0 2 0x70000 0 hwState)) (fun s => tcrOf 0 s = 0x70012) = true := by
  decide
theorem test_ra21 : refuses (exec (.wr32Ep0tcr 0x7F) hwState) .countAboveCapacity = true := by decide
/-- RA22, RA23. -/
theorem test_ra22 : endsIn (exec (.wr32Ep3cfgr 0x5301F180) hwState) (fun s => cfgrOf 3 s = 0x5301F180) = true := by decide
theorem test_ra23 : endsIn (exec (.wr32Ep3cfgr 0x53FEF180) hwState) (fun s => cfgrOf 3 s = 0x5300F180) = true := by decide
/-- R139: `EPADR != n` is refused. -/
theorem test_cfgr_refused : refuses (exec (.wr32Ep4cfgr 0x5301F180) hwState) .badEndpointConfig = true := by decide
/-- R139, R204: over the EP0 SETUP region refused, the EP0 TX buffer stored; U7: enabling an unallocated one refused. -/
theorem test_ep0_cfgr : (refuses (exec (.wr32Ep0cfgr 0x00010000) hwState) .badEndpointConfig &&
    endsIn (exec (.wr32Ep0cfgr 0x00010008) hwState) (fun s => cfgrOf 0 s = 0x00010008) &&
    refuses (exec (.wr32Ep0cfgr 0x80010008) hwState) .badEndpointConfig) = true := by decide
/-- RA24, RA25. -/
theorem test_ra24 : endsIn (exec (.wr32Sram 0x088 0x44332211) hwState) (fun s =>
    storedBytes s 0x088 4 = [0x11#8, 0x22#8, 0x33#8, 0x44#8]) = true := by decide
theorem test_ra25 : endsIn (exec (.rd32Sram 0x000) (putBytes 0 setConfiguration hwState)) (fun s =>
    newest s = .value 0x00010900#32) = true := by decide

/-! ### The bus side -/

/-- BS32. -/
theorem test_bs32 : endsIn (exec .bReset { busState with hw := { busState.hw with devar := 9, addrPending := true } }) (fun s =>
    isrOf s = 4 && s.hw.addrActive = 0 && !s.hw.addrPending && s.hw.devar = 0) = true := by decide
/-- BS2, BS3. -/
theorem test_bs2 : endsIn (exec .bSuspend busState) (fun s => isrOf s = 0x10) = true := by decide
theorem test_bs3 : endsIn (exec .bResume (withIsr 0x10 busState)) (fun s => isrOf s = 0x18) = true := by decide
/-- BS4, BS5. -/
theorem test_bs4 : endsIn (exec .bSof busState) (fun s => isrOf s = 2) = true := by decide
theorem test_bs5 : endsIn (exec .bSof (withCsr 0 busState)) (fun s => isrOf s = 0) = true := by decide
/-- BS7. -/
theorem test_bs7 : endsIn (exec (.bSetup 5 0 getDescriptor) busState) (fun s => newest s = .answer .ack &&
    storedBytes s 0 8 = getDescriptor && csrOf 0 s = 2 && tcrOf 0 s = 0 && s.hw.eps[(0 : Fin 8)].dtgTx &&
    s.hw.eps[(0 : Fin 8)].dtgRx && isrOf s = 0x100) = true := by decide
/-- BS8 and BS9 in one: stalls, armed and unread packets are discarded. -/
theorem test_bs9 : endsIn (exec (.bSetup 5 0 getDescriptor) (withBank 0 0x34 0x30005 0x80010008 busState)) (fun s =>
    csrOf 0 s = 2 && tcrOf 0 s = 0) = true := by decide
/-- BS13. -/
theorem test_bs13 : endsIn (exec (.bOut 5 2 0x3 [9#8, 8#8, 7#8]) busState) (fun s => newest s = .answer .ack &&
    storedBytes s 0x104 3 = [9#8, 8#8, 7#8] && tcrOf 2 s = 0x30000 && csrOf 2 s = 0x12 && s.hw.eps[(2 : Fin 8)].dtgRx &&
    isrOf s = 0x400) = true := by decide
/-- BS15: a toggle mismatch is acknowledged and discarded. -/
theorem test_bs15 : endsIn (exec (.bOut 5 2 0xB [6#8]) busState) (fun s => newest s = .answer .ack && s.hw = busState.hw) = true := by
  decide
/-- BS26. -/
theorem test_bs26 : endsIn (exec (.bIn 5 3 true)
    (putBytes 0x180 [1#8, 2#8, 3#8, 4#8, 5#8] (withBank 3 0 5 0xD301F180 busState))) (fun s =>
      newest s = .answer (.data false [1#8, 2#8, 3#8, 4#8, 5#8]) && csrOf 3 s = 2 && s.hw.eps[(3 : Fin 8)].dtgTx &&
      isrOf s = 0x800 && tcrOf 3 s = 5) = true := by decide
/-- BS31: an IN answered NAK applies no address. -/
theorem test_bs31 : endsIn (exec (.bIn 5 3 true) { busState with hw := { busState.hw with devar := 9, addrPending := true } })
    (fun s => newest s = .answer .nak && s.hw.addrActive = 5 && s.hw.addrPending) = true := by decide

/-! ### The arbiter -/

/-- R200. -/
theorem test_new : endsIn (exec (.newDriver true true) (withFlags [0, 4] true hwState)) (fun s =>
    flagsOf s = List.replicate 8 false && !s.fw.wake && s.fw.ctrlMps = 64 && s.fw.life = .built) = true := by decide
/-- AL1, AL7. -/
theorem test_al1 : endsIn (exec (.allocIn .bulk none 64 0) hwState) (fun s =>
    newest s = .result .stack (.info ⟨⟨3, .inp⟩, .bulk, 64, 0⟩) && cfgrOf 3 s = 0x5301F180 && s.fw.alloc = 0x0080) = true := by
  decide
theorem test_al7 : endsIn (exec (.allocIn .bulk (some ⟨5, .out⟩) 64 0) hwState) (fun s =>
    newest s = .result .stack (.info ⟨⟨5, .inp⟩, .bulk, 64, 0⟩) && cfgrOf 5 s = 0x5501F278 && s.fw.alloc = 0x0800) = true := by
  decide
/-- AL4, AL6. -/
theorem test_al4 : endsIn (exec (.allocOut .interrupt none 8 1) hwState) (fun s =>
    newest s = .result .stack (.info ⟨⟨4, .out⟩, .interrupt, 8, 1⟩) && cfgrOf 4 s = 0x6401F1FC && s.fw.alloc = 0x0100) = true := by
  decide
theorem test_al6 : endsIn (exec (.allocOut .bulk (some ⟨3, .out⟩) 64 0) (withInfo 3 .inp 64 hwState)) (fun s =>
    newest s = .result .stack (.error .allocError) && s.fw.alloc = 0x0080) = true := by decide
/-- AL14, AL16. -/
theorem test_al14 : endsIn (exec (.start 64) hwState) (fun s =>
    cfgrOf 0 s = 0x80010008 && s.fw.alloc = 3 && s.fw.ctrlMps = 64) = true := by decide
theorem test_al16 : endsIn (exec (.start 200) hwState) (fun s => s.fw.ctrlMps = 64) = true := by decide
/-- AL17. -/
theorem test_al17 : endsIn (exec (.bufmap 7 .inp) hwState) (fun s => newest s = .result .stack (.region 0x370 124)) = true := by
  decide
theorem test_al17_abort : aborts (exec (.bufmap 8 .inp) hwState) = true := by decide
/-- AL18. -/
theorem test_al18 : endsIn (exec (.epInfo ⟨3, .inp⟩) (withInfo 3 .inp 64 hwState)) (fun s =>
    newest s = .result (.endpoint 3) (.info ⟨⟨3, .inp⟩, .bulk, 64, 0⟩)) = true := by decide

/-! ### The dispatcher -/

/-- DI1, DI2. -/
theorem test_di1 : endsIn (exec .irq (withIsr 0x114 (withCsr 0x400 hwState))) (fun s =>
    flagsOf s = [true, true, false, false, true, false, false, false] && isrOf s = 0 && s.fw.wake &&
    csrWord s.hw.csr = 0x400 && s.hw.epoch = 1) = true := by decide
theorem test_di2 : endsIn (exec .irq hwState) (fun s => s = hwState) = true := by decide
/-- DI7: the line is masked by `UGIE`. -/
theorem test_di7 : irqLine { withIsr 4 hwState with hw := { (withIsr 4 hwState).hw with ier := ierOfWord 0xF1E } } = false := by
  decide
/-- DI9. -/
theorem test_di9 : endsIn (exec .poll (withFlags [1, 2, 3] true hwState)) (fun s =>
    newest s = .result .bus (.event .resume) && flagsOf s = [false, true, false, true, false, false, false, false]) = true := by
  decide
/-- DI15. -/
theorem test_di15 : endsIn (exec .poll (withFlags [0] true (withCsr 0x404
    { hwState with fw := { hwState.fw with cfgLatch := true, phase := .dataIn } }))) (fun s =>
      newest s = .result .bus (.event .deviceVisible) && csrWord s.hw.csr = 0x400 && ierWord s.hw.ier = 0xF1F &&
      !s.fw.cfgLatch && s.fw.phase = .idle) = true := by decide
/-- DI17 and DI18: setting what is set writes nothing, clearing writes the one bit. -/
theorem test_di17 : endsIn (exec (.epSetStalled ⟨3, .inp⟩ true) (withBank 3 6 0 0 hwState)) (fun s => csrOf 3 s = 6) = true := by
  decide
theorem test_di18 : endsIn (exec (.epSetStalled ⟨3, .inp⟩ false) (withBank 3 6 0 0 hwState)) (fun s => csrOf 3 s = 2) = true := by
  decide
/-- DI20. -/
theorem test_di20 : endsIn (exec (.epIsStalled ⟨3, .inp⟩) (withBank 3 6 0 0 hwState)) (fun s =>
    newest s = .result .bus (.flag true)) = true := by decide
/-- DI22, DI23. -/
theorem test_di22 : endsIn (exec (.epSetEnabled ⟨3, .inp⟩ true) (withBank 3 2 0 0x5301F180 hwState)) (fun s =>
    cfgrOf 3 s = 0xD301F180) = true := by decide
theorem test_di23 : endsIn (exec (.epSetEnabled ⟨3, .out⟩ false) (withBank 3 2 0 0xD301F180 hwState)) (fun s =>
    cfgrOf 3 s = 0x5301F180) = true := by decide
/-- DI24. -/
theorem test_di24 : endsIn (exec .enable hwState) (fun s =>
    csrWord s.hw.csr = 0x400 && ierWord s.hw.ier = 0xF1F && s.hw.epoch = 1) = true := by decide
/-- DI25. -/
theorem test_di25 : endsIn (exec .disable busState) (fun s => csrWord s.hw.csr = 0 && ierWord s.hw.ier = 0) = true := by decide
/-- DI26. -/
theorem test_di26 : endsIn (exec .remoteWakeup hwState) (fun s => newest s = .result .bus (.error .unsupported)) = true := by
  decide

/-! ### The control pipe -/

/-- CP20. -/
theorem test_cp20 : endsIn (exec .cpMaxPacketSize (startDriver 8 hwState)) (fun s => newest s = .result .control (.number 8)) = true := by
  decide
/-- CP1: with a budget of 3 the first check leaves two. -/
theorem test_cp1 : endsIn (exec .cpSetup hwState) (fun s => s.tasks.control = some (.setup 2) && s.log = []) = true := by decide
/-- Scenario C: the latch is set and the waiting endpoint task is released; its call returns when it is scheduled. -/
theorem test_scenario_c : endsIn (andThen (exec .cpSetup (withFlags [4] false
      (setEpHeld 3 .waitEnabled (putBytes 0 setConfiguration hwState)))) (resumeTask (.endpoint 3)))
    (fun s => s.fw.cfgLatch && s.fw.phase = .setupReceived && s.tasks.eps[(3 : Fin 8)] = .idle &&
      s.log = [.result (.endpoint 3) .unit, .result .control (.bytes setConfiguration)]) = true := by decide
/-- CP8: the tail is dropped. -/
theorem test_cp8 : endsIn (exec (.cpDataOut 4 true true)
    (putBytes 0x048 [1#8, 2#8, 3#8, 4#8, 5#8, 6#8, 7#8] (withBank 0 0x12 0x70000 0 hwState))) (fun s =>
      newest s = .result .control (.bytes [1#8, 2#8, 3#8, 4#8]) && csrOf 0 s = 2 && s.fw.phase = .dataOut) = true := by decide
/-- CP10, shortened. -/
theorem test_cp10 : endsIn (exec (.cpDataIn [1#8, 2#8, 3#8] true true) hwState) (fun s =>
    storedBytes s 0x008 3 = [1#8, 2#8, 3#8] && tcrOf 0 s = 3 && csrOf 0 s = 0 && s.fw.phase = .idle) = true := by decide
/-- CP17, CP16. -/
theorem test_cp17 : endsIn (exec .cpAccept (withBank 0 0x26 5 0 hwState)) (fun s => csrOf 0 s = 0 && tcrOf 0 s = 0) = true := by
  decide
theorem test_cp16 : endsIn (exec .cpAccept (withBank 0 2 5 0 { hwState with cfg := { hwState.cfg with acceptArmsStatus := false } }))
    (fun s => csrOf 0 s = 2 && tcrOf 0 s = 5) = true := by decide
/-- CP18. -/
theorem test_cp18 : endsIn (exec .cpReject hwState) (fun s => csrOf 0 s = 0x26) = true := by decide
/-- CP19. -/
theorem test_cp19 : endsIn (exec (.cpAcceptSetAddress 5) hwState) (fun s =>
    devarWord s.hw.devar = 5 && s.hw.addrPending && csrOf 0 s = 0 && s.hw.addrActive = 0) = true := by decide

/-! ### Endpoint I/O -/

/-- EP15, EP16. -/
theorem test_ep15 : endsIn (exec (.epWaitEnabled ⟨3, .inp⟩) hwState) (fun s =>
    s.tasks.eps[(3 : Fin 8)] = .waitEnabled && s.log = []) = true := by decide
theorem test_ep16 : endsIn (exec (.epWaitEnabled ⟨3, .inp⟩) { hwState with fw := { hwState.fw with cfgLatch := true } })
    (fun s => newest s = .result (.endpoint 3) .unit) = true := by decide
/-- EP2, EP7. -/
theorem test_ep2 : endsIn (exec (.epRead ⟨2, .out⟩ 2)
    (putBytes 0x104 [9#8, 8#8, 7#8] (withBank 2 0x12 0x30000 0 (withInfo 2 .out 64 hwState)))) (fun s =>
      newest s = .result (.endpoint 2) (.bytes [9#8, 8#8]) && csrOf 2 s = 2) = true := by decide
theorem test_ep7 : endsIn (exec (.epRead ⟨2, .out⟩ 65) (withInfo 2 .out 64 hwState)) (fun s =>
    newest s = .result (.endpoint 2) (.error .bufferOverflow)) = true := by decide
/-- EP8, EP13. -/
theorem test_ep8 : endsIn (exec (.epWrite ⟨3, .inp⟩ [1#8, 2#8, 3#8, 4#8, 5#8]) (withInfo 3 .inp 64 busState)) (fun s =>
    storedBytes s 0x180 5 = [1#8, 2#8, 3#8, 4#8, 5#8] && tcrOf 3 s = 5 && csrOf 3 s = 0 &&
    s.tasks.eps[(3 : Fin 8)] = .writing && s.log = [] && s.hw.raced = []) = true := by decide
theorem test_ep13 : endsIn (exec (.epWrite ⟨1, .inp⟩ (List.replicate 9 0)) (withInfo 1 .inp 8 hwState)) (fun s =>
    newest s = .result (.endpoint 1) (.error .bufferOverflow)) = true := by decide
/-- EP9: after a wake with the packet fetched the held call returns. -/
theorem test_ep9 : endsIn (resumeTask (.endpoint 3) (withFlags [] true (setEpHeld 3 .writing hwState))) (fun s =>
    newest s = .result (.endpoint 3) .unit && !s.fw.wake && s.tasks.eps[(3 : Fin 8)] = .idle) = true := by decide

/-! ### Races (R363, R78) -/

/-- R363: a SETUP between the two word reads tears the packet. -/
theorem test_torn_setup : endsIn (exec .cpSetup
    { withFlags [4] false (putBytes 0 (List.replicate 8 1) busState) with
      sched := [[], [.bus (.setup 5 0 (List.replicate 8 2))]] }) (fun s =>
        newest s = .result .control (.bytes [1#8, 1#8, 1#8, 1#8, 2#8, 2#8, 2#8, 2#8])) = true := by decide
/-- R78: a firmware store into an armed TX buffer leaves the old byte as a second possible value. -/
theorem test_raced_store : endsIn (exec (.wr32Sram 0x180 0x44332211) (putBytes 0x180 [1#8] (withBank 3 0 5 0xD301F180 busState)))
    (fun s => byteAt s 0x180 = 0x11 && racedAt s 0x180 = [1#8]) = true := by decide

/-! ### Witnesses: states and operands that meet the hypotheses of each statement, for each of its clauses -/

/-- The part of `soundCheck` about one record. -/
def recordCheck (s : State) (n : Fin 8) : Option EpInfo → Bool
  | none => true
  | some i => decide ((i.address.num = epNumber n ∧ i.maxPacketSize ≤ 64 ∧ i.type ≠ .isochronous ∧
      (i.type = .control ↔ n = 0)) ∧
    (n ≠ 0 → s.fw.alloc.getLsbD (allocIndex n .inp) = decide (Dir.inp = i.address.dir) ∧
      s.fw.alloc.getLsbD (allocIndex n .out) = decide (Dir.out = i.address.dir)))

/-- The part of `soundCheck` about one endpoint. -/
def endpointCheck (s : State) (n : Fin 8) : Bool :=
  decide ((s.fw.epinfo[n]).isSome = allocated s n) && recordCheck s n s.fw.epinfo[n] &&
    decide (s.hw.eps[n].cfgr.epbufa.toNat + s.hw.eps[n].cfgr.eplen.toNat ≤ 1024 ∧
      s.hw.eps[n].cfgr.epbufa.toNat % 4 = 0 ∧ s.hw.eps[n].cfgr.eplen.toNat % 4 = 0) &&
    decide (allocated s n = true ∨ s.hw.eps[n].cfgr.epen = true → s.hw.eps[n].cfgr.epadr = epNumber n) &&
    decide (s.hw.eps[n].cfgr.epen = true → meetsEp0 s.cfg.layout n s.hw.eps[n].cfgr = false)

/-- The part of `soundCheck` about two endpoints. -/
def apartCheck (s : State) (n m : Fin 8) : Bool :=
  decide (n ≠ 0 → m ≠ 0 → n ≠ m → s.hw.eps[n].cfgr.epen = true → s.hw.eps[m].cfgr.epen = true →
    overlaps s.hw.eps[n].cfgr.epbufa.toNat s.hw.eps[n].cfgr.eplen.toNat
      s.hw.eps[m].cfgr.epbufa.toNat s.hw.eps[m].cfgr.eplen.toNat = false)

/-- The part of `soundCheck` about races. -/
def racesCheck (s : State) : Bool :=
  (s.hw.raced.all fun c => sieOwns s c.1) &&
    decide (∀ n : Fin 8, s.hw.eps[n].csr.naktx = true → s.hw.eps[n].txcntOld = [])

theorem racesOwned_of_check {s : State} (h : racesCheck s = true) : RacesOwned s := by
  simp only [racesCheck, Bool.and_eq_true, List.all_eq_true, decide_eq_true_eq] at h
  refine ⟨fun a ha => ?_, h.2⟩
  unfold racedAt
  rw [List.map_eq_nil_iff, List.filter_eq_nil_iff]
  intro c hc e
  have := h.1 c hc
  rw [of_decide_eq_true e, ha] at this
  cases this

/-- A check of `Sound` that computes. -/
def soundCheck (s : State) : Bool :=
  decide (s.cfg.layout = Config.Layout.std) && Memory.wf s.cfg.layout.sramSize s.hw.sram && racesCheck s &&
    decide (s.fw.hsnap = none) && decide (s.fw.ctrlMps ≤ 64) && decide (∀ n : Fin 8, endpointCheck s n = true) &&
    decide (∀ n m : Fin 8, apartCheck s n m = true)

theorem sound_of_check {s : State} (h : soundCheck s = true) : Sound s := by
  simp only [soundCheck, endpointCheck, apartCheck, Bool.and_eq_true, decide_eq_true_eq] at h
  obtain ⟨⟨⟨⟨⟨⟨h₁, h₂⟩, hr⟩, h₃⟩, h₄⟩, h₅⟩, h₆⟩ := h
  refine ⟨h₁, h₂, racesOwned_of_check hr, h₃, h₄, fun n => (h₅ n).1.1.1.1, fun n i e => ?_, fun n i hn e d => ?_, fun n => (h₅ n).1.1.2,
    fun n => (h₅ n).1.2, fun n => (h₅ n).2, h₆⟩
  · have h := (h₅ n).1.1.1.2; rw [e] at h; exact (of_decide_eq_true h).1
  · have h := (h₅ n).1.1.1.2; rw [e] at h; replace h := of_decide_eq_true h
    cases d
    · exact (h.2 hn).2
    · exact (h.2 hn).1

/-- `busState` with endpoint `n`'s control and count registers given by their images. -/
def busWith (n : Fin 8) (csr tcr : Word) : State :=
  setEp n (fun e => { e with
    csr := epCsrOfWord csr, txcnt := tcr.extractLsb' 0 7, rxcnt := tcr.extractLsb' 16 7 }) busState

/-- `busState` with one entry in the inbox. -/
def withEntry (e : Entry) : State := { busState with inbox := [e] }

theorem witness_DecodeEncodeRoundTrip : (Instr.rd32Sram 0x3FC).wf = true ∧
    (Instr.epWrite ⟨3, .inp⟩ [1#8]).wf = true ∧ (Instr.bSetup 5 0 getDescriptor).wf = true := by decide

theorem witness_RegisterAccessDecode : (0x3FD#12).toNat % 4 ≠ 0 ∧ (0xFFF#12).toNat % 4 ≠ 0 ∧
    ((0x000#12).toNat % 4 = 0 ∧ (0x000#12).toNat ≤ 0x3FC) ∧
    ((0x3FC#12).toNat % 4 = 0 ∧ (0x3FC#12).toNat ≤ 0x3FC) ∧
    ((0x0B4#12).toNat % 4 = 0 ∧ 0x0B4 ≤ (0x0B4#12).toNat) ∧ ((0x400#12).toNat % 4 = 0 ∧ 0x400 ≤ (0x400#12).toNat) ∧
    ((0xFFC#12).toNat % 4 = 0 ∧ 0x0B4 ≤ (0xFFC#12).toNat ∧ 0x400 ≤ (0xFFC#12).toNat) ∧
    (0x00#8).toNat = 0 ∧ (0x08 ≤ (0x08#8).toNat ∧ (0x0F#8).toNat ≤ 0x0F) ∧
    (0x12 ≤ (0x12#8).toNat ∧ (0x1F#8).toNat ≤ 0x1F) ∧ (0x25 ≤ (0x25#8).toNat ∧ (0x2F#8).toNat ≤ 0x2F) ∧
    (0x31 ≤ (0x31#8).toNat ∧ (0x3F#8).toNat ≤ 0x3F) ∧ (0x47 ≤ (0x47#8).toNat ∧ (0x4F#8).toNat ≤ 0x4F) ∧
    (0x57 ≤ (0x57#8).toNat ∧ (0x5F#8).toNat ≤ 0x5F) ∧ 0x64 ≤ (0x64#8).toNat ∧ 0x64 ≤ (0xFF#8).toNat := by decide

theorem witness_StepRunsTheNextEntry :
    busState.inbox = [] ∧
    ((withEntry (.issue .op [0x40#8] [])).inbox = .issue .op [0x40#8] [] :: [] ∧
      decodeWith busState.cfg.layout .op [0x40#8] = .ok .poll) ∧
    ((withEntry (.issue .access [0x0C#8, 0x00#8] [])).inbox = .issue .access [0x0C#8, 0x00#8] [] :: [] ∧
      decodeWith busState.cfg.layout .access [0x0C#8, 0x00#8] = .error (.holeRead 0x00C)) ∧
    decodeWith busState.cfg.layout .access [0x0C#8, 0x20#8, 0#8, 0#8, 0#8, 0#8] = .error (.holeWrite 0x00C) ∧
    (decodeWith busState.cfg.layout .op [0x47#8] = .error (.unknownId 0x47) ∧
      (∀ off, DecodeError.unknownId 0x47 ≠ .holeRead off) ∧ ∀ off, DecodeError.unknownId 0x47 ≠ .holeWrite off) ∧
    (withEntry (.resume .bus [])).inbox = .resume .bus [] :: [] :=
  ⟨rfl, ⟨rfl, rfl⟩, ⟨rfl, rfl⟩, rfl, ⟨rfl, nofun, nofun⟩, rfl⟩

theorem witness_PresentedWordRunsNext : busState.cfg.layout = Config.Layout.std ∧ decodeTableWord 8 0x40 = some .poll ∧
    decodeTableWord 14 0x2060 = some (.wr32Ep3cfgr 0) := by decide

theorem witness_StepKeepsSound : Sound (withEntry (.issue .op [0x40#8] [])) ∧
    Quiet (withEntry (.issue .op [0x40#8] [])) ∧ ∃ t, step (withEntry (.issue .op [0x40#8] [])) = .next t :=
  ⟨sound_of_check (by decide), rfl, _, rfl⟩

theorem witness_ControlRegisterWritten : busState.cfg.layout = Config.Layout.std ∧
    (busState.hw.csr.sramrstc = false ∧ (0x600#32).getLsbD 9 = true) ∧
    ((withCsr 0x200 busState).hw.csr.sramrstc = true ∨ (0x600#32).getLsbD 9 = false) := by decide

/-- The only hypothesis of the statements about register accesses that take any value. -/
theorem witness_layout : busState.cfg.layout = Config.Layout.std := rfl

theorem witness_RegistersRead : busState.cfg.layout = Config.Layout.std := witness_layout
theorem witness_InterruptEnableWritten : busState.cfg.layout = Config.Layout.std := witness_layout
theorem witness_StatusAndAddressWritten : busState.cfg.layout = Config.Layout.std := witness_layout

theorem witness_EndpointStatusWritten : busState.cfg.layout = Config.Layout.std ∧ busState.cfg.epcsrWrite = .toggle ∧
    ({ busState with cfg := { busState.cfg with epcsrWrite := .plain } } : State).cfg.epcsrWrite = .plain := by decide

theorem witness_TransmitCountWritten : busState.cfg.layout = Config.Layout.std ∧
    64 = (if (0 : Fin 8) = 0 then 64 else busState.hw.eps[(0 : Fin 8)].cfgr.eplen.toNat) ∧
    (64#32).toNat % 128 ≤ 64 ∧ 64 < (65#32).toNat % 128 ∧
    124 = (if (3 : Fin 8) = 0 then 64 else busState.hw.eps[(3 : Fin 8)].cfgr.eplen.toNat) ∧
    (124#32).toNat % 128 ≤ 124 ∧ 124 < (125#32).toNat % 128 := by decide

/-- A legal configuration: of a disabled endpoint, of an enabled one whose buffer firmware owns, and of one whose buffer
the SIE owns with only `EPEN` changed or the buffer moved; then configurations without a meaning. -/
theorem witness_EndpointConfigWritten :
    (ConfigLegal busState 5 (epCfgrOfWord 0x5501F278) ∧ EnablesAllocated busState 5 (epCfgrOfWord 0x5501F278) ∧
      busState.hw.eps[(5 : Fin 8)].cfgr.epen = false) ∧
    (ConfigLegal (withInfo 5 .inp 64 busState) 5 (epCfgrOfWord 0xD501F278) ∧
      EnablesAllocated (withInfo 5 .inp 64 busState) 5 (epCfgrOfWord 0xD501F278)) ∧
    (∀ s : State, EnablesAllocated s 3 (epCfgrOfWord 0x5301F180) ∧ EnablesAllocated s 3 (epCfgrOfWord 0x53010180)) ∧
    (ConfigLegal (busWith 3 0x12 0) 3 (epCfgrOfWord 0x5301F180) ∧ ¬ BufferInUse (busWith 3 0x12 0) 3) ∧
    (ConfigLegal (busWith 3 0 5) 3 (epCfgrOfWord 0x5301F180) ∧ (busWith 3 0 5).hw.eps[(3 : Fin 8)].cfgr.epen = true ∧
      BufferInUse (busWith 3 0 5) 3 ∧
      0x5301F180#32 &&& 0x7F01FFFF#32 = epCfgrWord (busWith 3 0 5).hw.eps[(3 : Fin 8)].cfgr &&& 0x7FFFFFFF#32) ∧
    (ConfigLegal (busWith 3 0 5) 3 (epCfgrOfWord 0x53010180) ∧
      0x53010180#32 &&& 0x7F01FFFF#32 ≠ epCfgrWord (busWith 3 0 5).hw.eps[(3 : Fin 8)].cfgr &&& 0x7FFFFFFF#32) ∧
    ¬ ConfigLegal busState 4 (epCfgrOfWord 0x5301F180) ∧ ¬ ConfigLegal busState 7 (epCfgrOfWord 0x5701F388) ∧
    ¬ ConfigLegal busState 0 (epCfgrOfWord 0x80010000) ∧ ¬ EnablesAllocated busState 5 (epCfgrOfWord 0xD501F278) :=
  ⟨⟨(configLegal_iff rfl _ _).2 (by decide), (enablesAllocated_iff _ _ _).2 (by decide), by decide⟩,
    ⟨(configLegal_iff rfl _ _).2 (by decide), (enablesAllocated_iff _ _ _).2 (by decide)⟩, fun _ => ⟨.inl rfl, .inl rfl⟩,
    ⟨(configLegal_iff rfl _ _).2 (by decide),
      fun h => absurd (show (busWith 3 0x12 0).hw.eps[(3 : Fin 8)].csr.naktx = false from h) (by decide)⟩,
    ⟨(configLegal_iff rfl _ _).2 (by decide), by decide,
      show (busWith 3 0 5).hw.eps[(3 : Fin 8)].csr.naktx = false by decide, by decide⟩,
    ⟨(configLegal_iff rfl _ _).2 (by decide), by decide⟩,
    fun h => absurd ((configLegal_iff rfl _ _).1 h) (by decide), fun h => absurd ((configLegal_iff rfl _ _).1 h) (by decide),
    fun h => absurd ((configLegal_iff rfl _ _).1 h) (by decide),
    fun h => absurd ((enablesAllocated_iff _ _ _).1 h) (by decide)⟩

theorem witness_SramAccesses : busState.cfg.layout = Config.Layout.std ∧
    ((0x3FC#12).toNat % 4 = 0 ∧ (0x3FC#12).toNat < 1024 ∧ Unraced busState (0x3FC#12).toNat 4) ∧
    ((0x000#12).toNat < 1024 ∧ Unraced (busWith 0 0x12 0) (0x048#12).toNat 4) ∧
    (0x3FE#12).toNat % 4 ≠ 0 ∧ ((0x400#12).toNat % 4 = 0 ∧ 1024 ≤ (0x400#12).toNat) := by
  unfold Unraced; decide

theorem witness_TokenMatching : busState.cfg.layout = Config.Layout.std ∧
    (matchToken .out 5 2 busState = some 2 ∧ matchToken .inp 5 3 busState = some 3) ∧
    matchToken .setup 5 3 busState = none ∧ matchToken .out 5 8 busState = none ∧ matchToken .inp 4 3 busState = none ∧
    ((withBank 0 2 0 0xA0010008 busState).hw.eps[(0 : Fin 8)].cfgr.eptype = .isochronous ∧
      matchToken .setup 5 0 (withBank 0 2 0 0xA0010008 busState) = some 0) ∧
    ((withBank 2 2 0 0xA201F104 busState).hw.eps[(2 : Fin 8)].cfgr.eptype = .isochronous ∧
      matchToken .out 5 2 (withBank 2 2 0 0xA201F104 busState) = some 2) ∧
    ((withBank 3 2 0 0xB301F180 busState).hw.eps[(3 : Fin 8)].cfgr.eptype = .isochronous ∧
      matchToken .inp 5 3 (withBank 3 2 0 0xB301F180 busState) = some 3) := by decide

theorem witness_SetupAccepted : busState.cfg.layout = Config.Layout.std ∧ matchToken .setup 5 0 busState = some 0 ∧
    busState.hw.eps[(0 : Fin 8)].cfgr.eptype ≠ .isochronous ∧ getDescriptor.length = 8 ∧
    ([0#8] : List Byte).length ≠ 8 := by decide

/-- The hypotheses shared by all clauses, for endpoint 0 and endpoint 2. -/
theorem witness_OutTransaction :
    (Sound (busWith 0 0x22 0) ∧ matchToken .out 5 0 (busWith 0 0x22 0) = some 0) ∧
    (Sound (busWith 0 0x12 0) ∧ matchToken .out 5 0 (busWith 0 0x12 0) = some 0) ∧
    (Sound (busWith 0 0x02 0) ∧ matchToken .out 5 0 (busWith 0 0x02 0) = some 0) ∧
    (Sound (busWith 2 0x02 0) ∧ matchToken .out 5 2 (busWith 2 0x02 0) = some 2) ∧
    busState.hw.eps[(0 : Fin 8)].cfgr.eptype ≠ .isochronous ∧ busState.hw.eps[(2 : Fin 8)].cfgr.eptype ≠ .isochronous :=
  ⟨⟨sound_of_check (by decide), by decide⟩, ⟨sound_of_check (by decide), by decide⟩,
    ⟨sound_of_check (by decide), by decide⟩, ⟨sound_of_check (by decide), by decide⟩, by decide, by decide⟩

/-- The five clauses: stalled, an unread packet, another toggle, 65 and 64 bytes. -/
theorem witness_OutTransaction_clauses :
    (busWith 0 0x22 0).hw.eps[(0 : Fin 8)].csr.stlrx = true ∧
    ((busWith 0 0x12 0).hw.eps[(0 : Fin 8)].csr.stlrx = false ∧ (busWith 0 0x12 0).hw.eps[(0 : Fin 8)].csr.nakrx = true) ∧
    ((busWith 0 0x02 0).hw.eps[(0 : Fin 8)].csr.stlrx = false ∧ (busWith 0 0x02 0).hw.eps[(0 : Fin 8)].csr.nakrx = false) ∧
    (0xB#4 ≠ (if (busWith 0 0x02 0).hw.eps[(0 : Fin 8)].dtgRx then 0xB#4 else 0x3#4)) ∧
    (0x3#4 = (if (busWith 0 0x02 0).hw.eps[(0 : Fin 8)].dtgRx then 0xB#4 else 0x3#4) ∧
      64 < (List.replicate 65 (0 : Byte)).length ∧ (List.replicate 64 (0 : Byte)).length ≤ 64) := by decide

/-- The hypotheses shared by all clauses, for endpoint 0 and endpoint 3. -/
theorem witness_InTransaction :
    (Sound (busWith 0 0x06 0) ∧ matchToken .inp 5 0 (busWith 0 0x06 0) = some 0) ∧
    (Sound (busWith 0 0x02 0) ∧ matchToken .inp 5 0 (busWith 0 0x02 0) = some 0) ∧
    (Sound (busWith 0 0 0x40) ∧ matchToken .inp 5 0 (busWith 0 0 0x40) = some 0) ∧
    (Sound (busWith 0 0 0x41) ∧ matchToken .inp 5 0 (busWith 0 0 0x41) = some 0) ∧
    (Sound (busWith 3 0 124) ∧ matchToken .inp 5 3 (busWith 3 0 124) = some 3) ∧
    busState.hw.eps[(0 : Fin 8)].cfgr.eptype ≠ .isochronous :=
  ⟨⟨sound_of_check (by decide), by decide⟩, ⟨sound_of_check (by decide), by decide⟩,
    ⟨sound_of_check (by decide), by decide⟩, ⟨sound_of_check (by decide), by decide⟩,
    ⟨sound_of_check (by decide), by decide⟩, by decide⟩

/-- Endpoint 3 with a packet of 5 bytes armed, its first byte and, where `counts` is given, its count racing. -/
def racingState (counts : List (BitVec 7)) : State :=
  setEp 3 (fun e => { e with txcntOld := counts }) { busWith 3 0 5 with hw := { (busWith 3 0 5).hw with raced := [(0x180, 9)] } }

/-- `WR32_EP3CSR`: taking the buffer back ends the race of its bytes and of its count (R75(a)). -/
theorem test_race_ends : endsIn (exec (.wr32Ep3csr 2) (racingState [124])) (fun s =>
    csrOf 3 s = 2 && s.hw.raced.isEmpty && s.hw.eps[(3 : Fin 8)].txcntOld.isEmpty) = true := by decide

/-- `WR32_EP3TCR` with `NAKTX = 0`: the old count may still be used (R138). -/
theorem test_count_races : endsIn (exec (.wr32Ep3tcr 7) (racingState [])) (fun s =>
    tcrOf 3 s = 7 && s.hw.eps[(3 : Fin 8)].txcntOld == [5]) = true := by decide

/-- The clauses: stalled, nothing armed, 65 bytes, 64 bytes of which none races, bytes and count racing. -/
theorem witness_InTransaction_clauses :
    (busWith 0 0x06 0).hw.eps[(0 : Fin 8)].csr.stltx = true ∧
    ((busWith 0 0x02 0).hw.eps[(0 : Fin 8)].csr.stltx = false ∧ (busWith 0 0x02 0).hw.eps[(0 : Fin 8)].csr.naktx = true) ∧
    ((busWith 0 0 0x41).hw.eps[(0 : Fin 8)].csr.stltx = false ∧ (busWith 0 0 0x41).hw.eps[(0 : Fin 8)].csr.naktx = false ∧
      (busWith 0 0 0x41).hw.eps[(0 : Fin 8)].txcntOld = [] ∧ 64 < (busWith 0 0 0x41).hw.eps[(0 : Fin 8)].txcnt.toNat) ∧
    ((∀ c ∈ (busWith 0 0 0x40).hw.eps[(0 : Fin 8)].txcnt :: (busWith 0 0 0x40).hw.eps[(0 : Fin 8)].txcntOld,
        c.toNat ≤ 64) ∧ (busWith 0 0 0x40).hw.eps[(0 : Fin 8)].txcntOld = [] ∧
      ∀ i < (busWith 0 0 0x40).hw.eps[(0 : Fin 8)].txcnt.toNat, racedAt (busWith 0 0 0x40) (0x008 + i) = []) ∧
    (Sound (racingState [124]) ∧ matchToken .inp 5 3 (racingState [124]) = some 3 ∧
      (racingState [124]).hw.eps[(3 : Fin 8)].csr.stltx = false ∧ (racingState [124]).hw.eps[(3 : Fin 8)].csr.naktx = false ∧
      (∀ c ∈ (racingState [124]).hw.eps[(3 : Fin 8)].txcnt :: (racingState [124]).hw.eps[(3 : Fin 8)].txcntOld,
        c.toNat ≤ 124) ∧ racedAt (racingState [124]) 0x180 = [9]) :=
  ⟨by decide, by decide, by decide, by decide, sound_of_check (by decide), by decide⟩

theorem witness_BusSideWritesNoFirmwareState : ∃ t, exec (Stim.instr (.setup 5 0 getDescriptor)) busState = .next t :=
  ⟨_, rfl⟩

theorem witness_ToggleWriters : Quiet busState ∧ ∃ t, exec .cpReject busState = .next t := ⟨rfl, _, rfl⟩

theorem witness_NewCreatesFirmwareState : busState.cfg.layout = Config.Layout.std ∧ busState.fw.life = .unbuilt ∧ (startDriver 64 busState).fw.life ≠ .unbuilt := by
  decide

/-- By the default, and by a given number; endpoint 0 as control. -/
theorem witness_AllocationSucceeds :
    (hwState.cfg.layout = Config.Layout.std ∧ hwState.cfg.defaultAddr = Config.DefaultAddr.std ∧
      hwState.fw.life ≠ .started ∧ hwState.fw.busEnabled = false ∧ EpType.bulk ≠ .isochronous) ∧
    ((3 : BitVec 4) = BitVec.ofNat 4 (3 : Fin 8).val ∧ (EpType.bulk = .control ↔ (3 : Fin 8) = 0) ∧
      hwState.fw.alloc.getLsbD (2 * (3 : Fin 8).val) = false ∧ hwState.fw.alloc.getLsbD (2 * (3 : Fin 8).val + 1) = false) ∧
    ((⟨7, .out⟩ : EpAddr).num = BitVec.ofNat 4 (7 : Fin 8).val ∧ (EpType.interrupt = .control ↔ (7 : Fin 8) = 0) ∧
      hwState.fw.alloc.getLsbD (2 * (7 : Fin 8).val) = false ∧ hwState.fw.alloc.getLsbD (2 * (7 : Fin 8).val + 1) = false) ∧
    ((0 : BitVec 4) = BitVec.ofNat 4 (0 : Fin 8).val ∧ (EpType.control = .control ↔ (0 : Fin 8) = 0)) := by decide

/-- Refused after `START` and after `ENABLE`; failing by the type, and with the number given or the default in use; and a
first default allocation that completes, as the last clause needs. -/
theorem witness_AllocationFails :
    (hwState.cfg.layout = Config.Layout.std ∧ hwState.cfg.defaultAddr = Config.DefaultAddr.std) ∧
    (startDriver 64 hwState).fw.life = .started ∧ hwState.fw.life ≠ .started ∧ hwState.fw.busEnabled = false ∧
    ((markEnabled hwState).fw.life ≠ .started ∧ (markEnabled hwState).fw.busEnabled = true) ∧
    ((⟨7, .inp⟩ : EpAddr).num = BitVec.ofNat 4 (7 : Fin 8).val ∧ EpType.bulk ≠ .isochronous ∧ EpType.control ≠ .isochronous) ∧
    (EpType.control = .control ∧ (7 : Fin 8) ≠ 0) ∧
    (EpType.bulk ≠ .control ∧ (⟨0, .inp⟩ : EpAddr).num = BitVec.ofNat 4 (0 : Fin 8).val) ∧
    (withInfo 7 .out 64 hwState).fw.alloc.getLsbD (2 * (7 : Fin 8).val) = true ∧
    (withInfo 7 .inp 64 hwState).fw.alloc.getLsbD (2 * (7 : Fin 8).val + 1) = true ∧
    ((3 : BitVec 4) = BitVec.ofNat 4 (3 : Fin 8).val ∧
      (withInfo 3 .inp 64 hwState).fw.alloc.getLsbD (2 * (3 : Fin 8).val + 1) = true) ∧
    ∃ t, exec (allocInstr .inp .bulk none 64 0) hwState = .next t := ⟨by decide, by decide, by decide, by decide, by decide,
      by decide, by decide, by decide, by decide, by decide, by decide, _, rfl⟩

theorem witness_StartAllocatesControl : hwState.cfg.layout = Config.Layout.std ∧
    (startDriver 64 hwState).fw.life = .started ∧ hwState.fw.life ≠ .started ∧
    (commitAlloc 0 .out .control 64 0 hwState).fw.life ≠ .started ∧
    (commitAlloc 0 .out .control 64 0 hwState).fw.alloc.getLsbD 0 = true ∧
    hwState.fw.alloc.getLsbD 0 = false ∧ hwState.fw.alloc.getLsbD 1 = false ∧ hwState.fw.busEnabled = false ∧
    ((markEnabled hwState).fw.life ≠ .started ∧ (markEnabled hwState).fw.alloc.getLsbD 0 = false ∧
      (markEnabled hwState).fw.alloc.getLsbD 1 = false ∧ (markEnabled hwState).fw.busEnabled = true) := by decide

theorem witness_BufferMapPartition : hwState.cfg.layout = Config.Layout.std ∧ (1 ≤ 1 ∧ 1 ≤ 7) ∧ (1 ≤ 7 ∧ 7 ≤ 7) ∧
    (7 : Fin 8) ≠ 0 ∧ (0 : Fin 8) ≠ 7 := by decide

theorem witness_EndpointInfoReturned : (withInfo 7 .inp 64 hwState).cfg.layout = Config.Layout.std ∧
    (⟨7, .inp⟩ : EpAddr).num = BitVec.ofNat 4 (7 : Fin 8).val ∧
    (withInfo 7 .inp 64 hwState).fw.epinfo[(7 : Fin 8)] = some ⟨⟨7, .inp⟩, .bulk, 64, 0⟩ := by decide

/-- Endpoint 3 allocated as bulk IN and enabled. -/
def boundState : State := withInfo 3 .inp 64 busState

theorem witness_AllocationNeverUndone : Sound boundState ∧ (∀ b₁ b₂, Instr.epInfo ⟨3, .inp⟩ ≠ .newDriver b₁ b₂) ∧
    (∃ t, exec (.epInfo ⟨3, .inp⟩) boundState = .next t) ∧ boundState.fw.alloc.getLsbD 7 = true ∧
    boundState.fw.epinfo[(3 : Fin 8)] = some ⟨⟨3, .inp⟩, .bulk, 64, 0⟩ :=
  ⟨sound_of_check (by decide), nofun, ⟨_, rfl⟩, by decide, by decide⟩

theorem witness_HandlerTranscribesPending : Quiet (withIsr 0x114 busState) ∧
    (withIsr 0x114 busState).cfg.layout = Config.Layout.std ∧ (withIsr 0x114 busState).hw.isr.urstif = true ∧
    (withIsr 0x114 busState).hw.csr.sramrstc = false ∧ (withCsr 0x600 (withIsr 4 busState)).hw.csr.sramrstc = true ∧
    busState.hw.isr.urstif = false := ⟨rfl, by decide⟩

theorem witness_HandlerFrame : (∃ t, exec .irq (withIsr 0x114 busState) = .next t) ∧
    (withIsr 0x114 busState).hw.isr.urstif = true ∧ busState.hw.isr.urstif = false ∧
    (withFlags [7] false busState).fw.evf[(7 : Fin 8)] = true := ⟨⟨_, rfl⟩, by decide⟩

theorem witness_PollReportsByPriority : Quiet busState ∧ busState.cfg.layout = Config.Layout.std ∧ busState.tasks.pollHeld = false ∧ busState.fw.wake = false ∧
    (∀ l ∈ [[0, 1], [1, 2], [1, 3], [4], [7], [3]], (withFlags l true busState).fw.wake = true) ∧
    (withFlags [0, 1] true busState).fw.evf[(0 : Fin 8)] = true ∧
    ((withFlags [1, 2] true busState).fw.evf[(0 : Fin 8)] = false ∧ (withFlags [1, 2] true busState).fw.evf[(2 : Fin 8)] = true) ∧
    ((withFlags [1, 3] true busState).fw.evf[(0 : Fin 8)] = false ∧ (withFlags [1, 3] true busState).fw.evf[(2 : Fin 8)] = false ∧
      (withFlags [1, 3] true busState).fw.evf[(1 : Fin 8)] = true) := ⟨rfl, by decide⟩

/-- With none of the first three flags: endpoint flag 4 or 7, power not announced, announced. -/
theorem witness_PollReportsByPriority_tail :
    (∃ k : Fin 8, 4 ≤ k.val ∧ (withFlags [4] true busState).fw.evf[k] = true) ∧
    (∃ k : Fin 8, 4 ≤ k.val ∧ (withFlags [7] true busState).fw.evf[k] = true) ∧
    ((∀ k : Fin 8, 4 ≤ k.val → (withFlags [3] true busState).fw.evf[k] = false) ∧
      (withFlags [3] true busState).fw.powerAnnounced = false) ∧
    ({ busState with fw := { busState.fw with powerAnnounced := true } } : State).fw.powerAnnounced = true ∧
    (∀ l ∈ [[4], [7], [3]], (withFlags l true busState).fw.evf[(0 : Fin 8)] = false ∧
      (withFlags l true busState).fw.evf[(2 : Fin 8)] = false ∧ (withFlags l true busState).fw.evf[(1 : Fin 8)] = false) := by
  decide

/-- Nothing falling in between; and a bit that is set already, with a start-of-frame in between. -/
theorem witness_StallBitWritten : Quiet busState ∧ busState.cfg.layout = Config.Layout.std ∧
    ((⟨7, .out⟩ : EpAddr).num = BitVec.ofNat 4 (7 : Fin 8).val ∧
      0x20#32 = (if (⟨7, .out⟩ : EpAddr).dir = .inp then 0x04#32 else 0x20#32)) ∧
    ((⟨3, .inp⟩ : EpAddr).num = BitVec.ofNat 4 (3 : Fin 8).val ∧
      0x04#32 = (if (⟨3, .inp⟩ : EpAddr).dir = .inp then 0x04#32 else 0x20#32)) ∧
    decide (epCsrWord (busWith 3 6 0).hw.eps[(3 : Fin 8)].csr &&& 0x04#32 ≠ 0#32) = true ∧
    ∃ u, point { busWith 3 6 0 with sched := [[.bus .sof]] } = .next u :=
  ⟨rfl, rfl, by decide, by decide, by decide, _, rfl⟩

theorem witness_StallBitRead : busState.cfg.layout = Config.Layout.std ∧
    (⟨7, .inp⟩ : EpAddr).num = BitVec.ofNat 4 (7 : Fin 8).val ∧
    7 < (⟨8, .inp⟩ : EpAddr).num.toNat ∧ 7 < (⟨15, .out⟩ : EpAddr).num.toNat := by decide

theorem witness_EnableBitWritten : Quiet busState ∧ busState.cfg.layout = Config.Layout.std ∧ (⟨3, .inp⟩ : EpAddr).num = BitVec.ofNat 4 (3 : Fin 8).val ∧
    (ConfigLegal busState 3 busState.hw.eps[(3 : Fin 8)].cfgr ∧
      epCfgrWord busState.hw.eps[(3 : Fin 8)].cfgr &&& 0x7FFFFFFF#32 ≠ 0#32) ∧
    epCfgrWord busState.hw.eps[(7 : Fin 8)].cfgr &&& 0x7FFFFFFF#32 = 0#32 :=
  ⟨rfl, rfl, by decide, ⟨(configLegal_iff rfl _ _).2 (by decide), by decide⟩, by decide⟩

theorem witness_EnableAttaches : Quiet hwState ∧ hwState.cfg.layout = Config.Layout.std ∧ hwState.hw.csr.sramrstc = false ∧
    Quiet (withCsr 0x200 hwState) ∧ (withCsr 0x200 hwState).hw.csr.sramrstc = true := ⟨rfl, by decide, by decide, rfl, by decide⟩

theorem witness_DisableDetaches : Quiet busState ∧ attached busState = true := ⟨rfl, by decide⟩

theorem witness_NumberAboveSevenAborts : hwState.cfg.layout = Config.Layout.std ∧ 7 < (⟨8, .inp⟩ : EpAddr).num.toNat ∧ 7 < (⟨15, .out⟩ : EpAddr).num.toNat ∧
    7 < 8 ∧ hwState.fw.life ≠ .started ∧ hwState.fw.busEnabled = false ∧ EpType.bulk ≠ .isochronous := by decide

theorem witness_OnlyHandlerSetsFlags : Quiet busState ∧ Instr.enable ≠ .irq ∧ ∃ t, exec .enable busState = .next t :=
  ⟨rfl, nofun, _, rfl⟩

theorem witness_LatchSetOnlyBySetup :
    (∃ t, exec .cpSetup (withFlags [4] false (putBytes 0 setConfiguration busState)) = .next t ∧ t.fw.cfgLatch = true) ∧
    ∃ t, exec .cpAccept { busState with fw := { busState.fw with cfgLatch := true } } = .next t ∧ t.fw.cfgLatch = true :=
  ⟨⟨_, rfl, rfl⟩, _, rfl, rfl⟩

theorem witness_SetupReturnsPacket : Quiet (withFlags [4] false busState) ∧
    busState.cfg.layout = Config.Layout.std ∧ (withFlags [4] false busState).tasks.control = none ∧
    (withFlags [4] false busState).fw.evf[(4 : Fin 8)] = true ∧ Unraced (withFlags [4] false busState) 0 8 := by
  unfold Quiet Unraced; decide

/-- Control tasks held at their last check and with two checks left, and none held. -/
theorem witness_BoundedPollsTimeOut : Quiet busState ∧ busState.cfg.layout = Config.Layout.std ∧
    busState.fw.evf[(4 : Fin 8)] = false ∧ busState.tasks.control = none ∧
    (∀ k ∈ [0, 2], (setControlHeld (some (.setup k)) busState).tasks.control = some (.setup k)) ∧
    busState.hw.eps[(0 : Fin 8)].csr.nakrx = false ∧ (busWith 0 0x32 0).hw.eps[(0 : Fin 8)].csr.stlrx = true ∧
    (∀ k ∈ [0, 2], (setControlHeld (some (.dataOut k 64)) busState).tasks.control = some (.dataOut k 64)) ∧
    (busWith 0 0 0).hw.eps[(0 : Fin 8)].csr.naktx = false ∧ (busWith 0 6 0).hw.eps[(0 : Fin 8)].csr.stltx = true ∧
    (∀ k ∈ [0, 2], (setControlHeld (some (.dataIn k [1#8] true)) busState).tasks.control = some (.dataIn k [1#8] true)) ∧
    (0 ≤ 0 ∧ 0 ≤ 2 ∧ 2 ≤ 2) := ⟨rfl, by decide⟩

theorem witness_HeldCallGoesOnAsFresh : Quiet busState ∧ busState.cfg.layout = Config.Layout.std ∧
    ((setPollHeld true (withFlags [1] true busState)).tasks.pollHeld = true ∧
      (setPollHeld true (withFlags [1] true busState)).fw.wake = true) ∧
    ((setControlHeld (some (.setup 1)) (withFlags [4] true busState)).tasks.control = some (.setup (0 + 1)) ∧
      (setControlHeld (some (.setup 1)) (withFlags [4] true busState)).fw.evf[(4 : Fin 8)] = true) ∧
    ((setControlHeld (some (.dataOut 1 64)) (setPhase .dataOut (busWith 0 0x12 0))).tasks.control = some (.dataOut (0 + 1) 64) ∧
      (setPhase .dataOut (busWith 0 0x12 0)).fw.phase = .dataOut ∧
      (busWith 0 0x12 0).hw.eps[(0 : Fin 8)].csr.nakrx = true ∧ (busWith 0 0x12 0).hw.eps[(0 : Fin 8)].csr.stlrx = false) ∧
    ((setControlHeld (some (.dataIn 1 [1#8] true)) busState).tasks.control = some (.dataIn (0 + 1) [1#8] true) ∧
      busState.hw.eps[(0 : Fin 8)].csr.naktx = true ∧ busState.hw.eps[(0 : Fin 8)].csr.stltx = false) := ⟨rfl, by decide⟩

theorem witness_DataOutTakesPacket : Quiet (busWith 0 0x12 0x70000) ∧
    (busWith 0 0x12 0x70000).cfg.layout = Config.Layout.std ∧ (busWith 0 0x12 0x70000).tasks.control = none ∧
    (busWith 0 0x12 0x70000).hw.eps[(0 : Fin 8)].csr.nakrx = true ∧
    (busWith 0 0x12 0x70000).hw.eps[(0 : Fin 8)].csr.stlrx = false ∧
    4 = min (min 4 (busWith 0 0x12 0x70000).hw.eps[(0 : Fin 8)].rxcnt.toNat) 64 ∧
    Unraced (busWith 0 0x12 0x70000) 0x048 4 := by
  unfold Quiet Unraced; decide

theorem witness_DataInArmsPacket : Quiet busState ∧ busState.cfg.layout = Config.Layout.std ∧ busState.tasks.control = none ∧
    busState.hw.eps[(0 : Fin 8)].csr.naktx = true ∧ busState.hw.eps[(0 : Fin 8)].csr.stltx = false ∧
    List.replicate 64 (1 : Byte) = (List.replicate 65 (1 : Byte)).take 64 := ⟨rfl, by decide⟩

theorem witness_AcceptArmsStatus : Quiet busState ∧ busState.tasks.control = none ∧ busState.cfg.acceptArmsStatus = true ∧
    ({ busState with cfg := { busState.cfg with acceptArmsStatus := false } } : State).cfg.acceptArmsStatus = false :=
  ⟨rfl, by decide⟩

theorem witness_RejectStallsControl : Quiet busState ∧ busState.tasks.control = none := ⟨rfl, by decide⟩

theorem witness_EndpointWaits : busState.cfg.layout = Config.Layout.std ∧ (⟨7, .inp⟩ : EpAddr).num = BitVec.ofNat 4 (7 : Fin 8).val ∧
    busState.tasks.eps[(7 : Fin 8)] = .idle ∧ busState.fw.cfgLatch = false ∧
    ({ busState with fw := { busState.fw with cfgLatch := true } } : State).fw.cfgLatch = true ∧
    (setEpHeld 7 .waitEnabled busState).tasks.eps[(7 : Fin 8)] = .waitEnabled ∧
    (setEpHeld 7 .waitEnabled busState).fw.cfgLatch = false ∧
    (setEpHeld 7 .released busState).tasks.eps[(7 : Fin 8)] = .released ∧ (setEpHeld 7 .released busState).fw.cfgLatch = false ∧
    ({ setEpHeld 7 .released busState with fw := { busState.fw with cfgLatch := true } } : State).tasks.eps[(7 : Fin 8)] =
      .released ∧
    (Quiet (setEpHeld 7 .writing busState) ∧ (setEpHeld 7 .writing busState).tasks.eps[(7 : Fin 8)] = .writing ∧
      (setEpHeld 7 .writing busState).fw.wake = false ∧ (withFlags [] true busState).fw.wake = true ∧
      (busWith 7 0 0).hw.eps[(7 : Fin 8)].csr.naktx = false ∧ (busWith 7 2 0).hw.eps[(7 : Fin 8)].csr.naktx = true) := by
  unfold Quiet; decide

/-- Endpoint 2 allocated as bulk OUT, a packet of 64 bytes waiting. -/
def readable : State := withInfo 2 .out 64 (busWith 2 0x12 0x400000)

theorem witness_ReadTakesPacket : Quiet readable ∧ readable.cfg.layout = Config.Layout.std ∧ (2 : Fin 8) ≠ 0 ∧
    readable.fw.epinfo[(2 : Fin 8)] = some ⟨⟨2, .out⟩, .bulk, 64, 0⟩ ∧ readable.tasks.eps[(2 : Fin 8)] = .idle ∧ 64 ≤ 64 ∧
    readable.hw.eps[(2 : Fin 8)].csr.nakrx = true ∧ readable.hw.eps[(2 : Fin 8)].csr.stlrx = false ∧
    64 = min 64 readable.hw.eps[(2 : Fin 8)].rxcnt.toNat ∧ Unraced readable (0x088 + 124 * ((2 : Fin 8).val - 1)) 64 ∧
    (withInfo 2 .out 64 busState).hw.eps[(2 : Fin 8)].csr.nakrx = false := by
  unfold Quiet Unraced; decide

theorem witness_TransferChecksComeFirst : readable.cfg.layout = Config.Layout.std ∧
    ((2 : Fin 8) ≠ 0 ∧ readable.fw.epinfo[(2 : Fin 8)] = some ⟨⟨2, .out⟩, .bulk, 64, 0⟩ ∧
      readable.tasks.eps[(2 : Fin 8)] = .idle ∧ 64 < 65) ∧
    ((3 : Fin 8) ≠ 0 ∧ boundState.fw.epinfo[(3 : Fin 8)] = some ⟨⟨3, .inp⟩, .bulk, 64, 0⟩ ∧
      boundState.tasks.eps[(3 : Fin 8)] = .idle ∧ 64 < (List.replicate 65 (0 : Byte)).length) ∧
    busState.fw.epinfo[(7 : Fin 8)] = none ∧
    (⟨⟨2, .out⟩, .bulk, 64, 0⟩ : EpInfo).address.dir = .out ∧ (⟨⟨3, .inp⟩, .bulk, 64, 0⟩ : EpInfo).address.dir = .inp := by
  decide

theorem witness_WriteArmsPacket : Quiet boundState ∧ Sound boundState ∧ (3 : Fin 8) ≠ 0 ∧
    boundState.fw.epinfo[(3 : Fin 8)] = some ⟨⟨3, .inp⟩, .bulk, 64, 0⟩ ∧ boundState.tasks.eps[(3 : Fin 8)] = .idle ∧
    (List.replicate 64 (0 : Byte)).length ≤ 64 := ⟨rfl, sound_of_check (by decide), by decide⟩

/-- `busState` with the EP0 flag set and a schedule. -/
def interrupted (l : List (List Preempt)) : State := { withFlags [4] false busState with sched := l }

theorem witness_SetupReadCanTear :
    (interrupted [[], [.bus (.setup 5 0 getDescriptor)]]).cfg.layout = Config.Layout.std ∧
    (interrupted [[], [.bus (.setup 5 0 getDescriptor)]]).tasks.control = none ∧
    (interrupted [[], [.bus (.setup 5 0 getDescriptor)]]).fw.evf[(4 : Fin 8)] = true ∧
    Unraced (interrupted [[], [.bus (.setup 5 0 getDescriptor)]]) 0 8 ∧
    matchToken .setup 5 0 (interrupted [[], [.bus (.setup 5 0 getDescriptor)]]) = some 0 ∧
    (interrupted [[], [.bus (.setup 5 0 getDescriptor)]]).hw.eps[(0 : Fin 8)].cfgr.eptype ≠ .isochronous ∧
    getDescriptor.length = 8 := by
  unfold Unraced; decide

theorem witness_LatePulseWipesSetup :
    matchToken .setup 5 0 (withIsr 4 (interrupted [[], [], [.bus (.setup 5 0 getDescriptor)]])) = some 0 ∧
    (withIsr 4 (interrupted [[], [], [.bus (.setup 5 0 getDescriptor)]])).cfg.layout = Config.Layout.std ∧
    (withIsr 4 (interrupted [[], [], [.bus (.setup 5 0 getDescriptor)]])).hw.eps[(0 : Fin 8)].cfgr.eptype ≠ .isochronous ∧
    (withIsr 4 (interrupted [[], [], [.bus (.setup 5 0 getDescriptor)]])).hw.isr.urstif = true ∧
    (withIsr 4 (interrupted [[], [], [.bus (.setup 5 0 getDescriptor)]])).sched =
      [[], [], [.bus (.setup 5 0 getDescriptor)]] ∧ getDescriptor.length = 8 := by decide

theorem witness_RejectCanStallNewSetup :
    (interrupted [[.bus (.setup 5 0 getDescriptor)]]).cfg.layout = Config.Layout.std ∧
    (interrupted [[.bus (.setup 5 0 getDescriptor)]]).tasks.control = none ∧
    matchToken .setup 5 0 (interrupted [[.bus (.setup 5 0 getDescriptor)]]) = some 0 ∧
    (interrupted [[.bus (.setup 5 0 getDescriptor)]]).hw.eps[(0 : Fin 8)].cfgr.eptype ≠ .isochronous ∧
    getDescriptor.length = 8 ∧ (interrupted [[.bus (.setup 5 0 getDescriptor)]]).hw.eps[(0 : Fin 8)].csr.stltx = false ∧
    (interrupted [[.bus (.setup 5 0 getDescriptor)]]).hw.eps[(0 : Fin 8)].csr.stlrx = false := by decide

/-- A packet whose first byte races is sent. -/
theorem witness_RacedPacketMixesBytes : Sound (racingState []) ∧ matchToken .inp 5 3 (racingState []) = some 3 ∧
    (racingState []).hw.eps[(3 : Fin 8)].csr.stltx = false ∧ (racingState []).hw.eps[(3 : Fin 8)].csr.naktx = false ∧
    0x180 = (if (3 : Fin 8) = 0 then 0x008 else (racingState []).hw.eps[(3 : Fin 8)].cfgr.epbufa.toNat) ∧
    racedAt (racingState []) 0x180 = [9] ∧ ∃ t, exec (.bIn 5 3 true) (racingState []) = .next t :=
  ⟨sound_of_check (by decide), by decide, by decide, by decide, by decide, by decide, _, rfl⟩

theorem witness_BusyTasksRefuse : busState.cfg.layout = Config.Layout.std ∧
    (setPollHeld true busState).tasks.pollHeld = true ∧
    (setControlHeld (some (.setup 0)) busState).tasks.control ≠ none ∧
    ((setEpHeld 2 .waitEnabled readable).tasks.eps[(2 : Fin 8)] ≠ .idle ∧ (2 : Fin 8) ≠ 0 ∧
      (setEpHeld 2 .waitEnabled readable).fw.epinfo[(2 : Fin 8)] = some ⟨⟨2, .out⟩, .bulk, 64, 0⟩) ∧
    ((setEpHeld 3 .writing boundState).tasks.eps[(3 : Fin 8)] ≠ .idle ∧
      (setEpHeld 3 .writing boundState).fw.epinfo[(3 : Fin 8)] = some ⟨⟨3, .inp⟩, .bulk, 64, 0⟩) := by decide

end Sys2Proof.Tests
end

section
/-! PROOFS. The scope family: what one step does, entry by entry of the input list (00_scope.md R10, 10_state.md R28,
20_memory.md R79, 30_encoding.md R111), and the word that `withFetchWord` presents. -/

namespace Sys2Proof.Machine

/-! ### The pieces of a step -/

@[simp] theorem takeEntry_cfg (rest : List Entry) (during : List (List Preempt)) (s : State) :
    (takeEntry rest during s).cfg = s.cfg := rfl

@[simp] theorem settle_next (t : State) : settle (.next t) = .next { t with sched := [] } := rfl
@[simp] theorem settle_fault (e : Fault) : settle (.fault e) = .fault e := rfl
@[simp] theorem settle_refused (e : Refusal) : settle (.refused e) = .refused e := rfl

/-- `settle` in the form the statements about `step` write out. -/
theorem settle_eq_match (r : Res) :
    settle r = match r with
      | .next t => .next { t with sched := [] }
      | .fault e => .fault e
      | .refused e => .refused e := by
  cases r <;> rfl

section Issue

variable {p : Port} {bytes : List Byte} {s : State}

theorem issue_of_decode {i : Instr} (h : decodeWith s.cfg.layout p bytes = .ok i) : issue p bytes s = exec i s := by
  simp only [issue, h]

theorem issue_of_holeRead {off : Nat} (h : decodeWith s.cfg.layout p bytes = .error (.holeRead off)) :
    issue p bytes s = holeRead s := by
  simp only [issue, h]

theorem issue_of_holeWrite {off : Nat} (h : decodeWith s.cfg.layout p bytes = .error (.holeWrite off)) :
    issue p bytes s = .next s := by
  simp only [issue, h, holeWrite]

/-- A decode error that is no access to a hole of the register window is a refusal (30_encoding.md R111(c)). -/
theorem issue_of_error {e : DecodeError} (h : decodeWith s.cfg.layout p bytes = .error e)
    (hr : ∀ off, e ≠ .holeRead off) (hw : ∀ off, e ≠ .holeWrite off) :
    issue p bytes s = .refused (.undecodable e) := by
  cases e with
  | holeRead off => exact absurd rfl (hr off)
  | holeWrite off => exact absurd rfl (hw off)
  | _ => simp only [issue, h]

end Issue

/-! ### A step, by the head of the input list -/

section Step

variable {s : State} {during : List (List Preempt)} {rest : List Entry}

theorem step_of_nil (h : s.inbox = []) : step s = .next s := by
  simp only [step, h]

theorem step_of_issue {p : Port} {bytes : List Byte} (h : s.inbox = .issue p bytes during :: rest) :
    step s = settle (issue p bytes (takeEntry rest during s)) := by
  simp only [step, h, runEntry]

theorem step_of_resume {task : Task} (h : s.inbox = .resume task during :: rest) :
    step s = settle (resumeTask task (takeEntry rest during s)) := by
  simp only [step, h, runEntry]

/-- An operation that decodes is run on the state whose schedule has lost its head. -/
theorem step_of_decode {p : Port} {bytes : List Byte} {i : Instr} (h : s.inbox = .issue p bytes during :: rest)
    (hd : decodeWith s.cfg.layout p bytes = .ok i) : step s = settle (exec i (takeEntry rest during s)) := by
  rw [step_of_issue h, issue_of_decode (s := takeEntry rest during s) hd]

end Step

/-! ### The word presented by `withFetchWord` -/

@[simp] theorem withFetchWord_cfg (s : State) (nbits w : Nat) : (s.withFetchWord nbits w).cfg = s.cfg := rfl

@[simp] theorem withFetchWord_inbox (s : State) (nbits w : Nat) :
    (s.withFetchWord nbits w).inbox = .issue (tablePort nbits) (tableBytes nbits w) [] :: s.inbox := rfl

/-- Taking the presented word off the list again leaves the state it was put into. -/
theorem takeEntry_withFetchWord (s : State) (nbits w : Nat) (during : List (List Preempt)) :
    takeEntry s.inbox during (s.withFetchWord nbits w) = { s with sched := during } := rfl

theorem decodeTableWord_eq_some {nbits w : Nat} {i : Instr} :
    decodeTableWord nbits w = some i ↔ decode (tablePort nbits) (tableBytes nbits w) = .ok i := by
  unfold decodeTableWord
  cases decode (tablePort nbits) (tableBytes nbits w) <;> simp

/-! ### The obligations -/

/-- Settles O4: one clause for each kind of head entry, and for an operation one for each answer of the decoder. -/
theorem stepRunsTheNextEntry : Obligations.StepRunsTheNextEntry := by
  intro s
  refine ⟨step_of_nil, fun p bytes during rest h => ⟨?decoded, ?holeRead, ?holeWrite, ?undecodable⟩, ?resumed⟩
  case decoded =>
    intro i hd
    exact (step_of_decode h hd).trans (settle_eq_match _)
  case holeRead =>
    intro off hd
    rw [step_of_issue h, issue_of_holeRead (s := takeEntry rest during s) hd]
    rfl
  case holeWrite =>
    intro off hd
    rw [step_of_issue h, issue_of_holeWrite (s := takeEntry rest during s) hd]
    rfl
  case undecodable =>
    intro e hd hr hw
    rw [step_of_issue h, issue_of_error (s := takeEntry rest during s) hd hr hw, settle_refused]
  case resumed =>
    intro task during rest h
    exact (step_of_resume h).trans (settle_eq_match _)

/-- Settles O5: the word stands at the head of the list, and the standard layout is the one `decodeTableWord` reads
it under. -/
theorem presentedWordRunsNext : Obligations.PresentedWordRunsNext := by
  intro s nbits w i hl hw
  have hd : decodeWith (s.withFetchWord nbits w).cfg.layout (tablePort nbits) (tableBytes nbits w) = .ok i := by
    rw [withFetchWord_cfg, hl]
    exact decodeTableWord_eq_some.mp hw
  rw [step_of_decode (withFetchWord_inbox s nbits w) hd, takeEntry_withFetchWord]
  exact settle_eq_match _

end Sys2Proof.Machine
end

section
/-! PROOFS. The state family: the invariant of every step (10_state.md R31, R36, R39; 20_memory.md R75), and the registers,
the buffer map and the firmware state of 10_state.md. -/

namespace Sys2Proof.Machine

/-! ### The invariant is kept by every atomic change -/

/-- The configuration registers and the allocator's bitmap and records are the same. -/
structure SameAllocation (s t : State) : Prop where
  cfg : t.cfg = s.cfg
  cfgr : ∀ n : Fin 8, t.hw.eps[n].cfgr = s.hw.eps[n].cfgr
  alloc : t.fw.alloc = s.fw.alloc
  epinfo : t.fw.epinfo = s.fw.epinfo

theorem Frame.sameAllocation {s t : State} (f : Frame s t) : SameAllocation s t :=
  ⟨f.cfg, f.cfgr, f.alloc, f.epinfo⟩

theorem SameAllocation.allocated {s t : State} (e : SameAllocation s t) (n : Fin 8) :
    allocated t n = allocated s n := by
  simp only [Machine.allocated, e.alloc]

/-- Ranges that meet, meet in either order. -/
theorem overlaps_comm (a la b lb : Nat) : overlaps a la b lb = overlaps b lb a la := by
  simp only [overlaps, Bool.and_comm, Bool.and_left_comm]

theorem meetsEp0_eq_false {l : Config.Layout} {n : Fin 8} {c : EpCfgr} :
    meetsEp0 l n c = false ↔ Apart c.epbufa.toNat c.eplen.toNat l.ep0SetupOff l.ep0SetupLen ∧
      (n ≠ 0 → Apart c.epbufa.toNat c.eplen.toNat l.ep0TxOff l.ep0TxLen) ∧
      Apart c.epbufa.toNat c.eplen.toNat l.ep0RxOff l.ep0RxLen := by
  simp only [meetsEp0, Bool.or_eq_false_iff, Bool.and_eq_false_imp, decide_eq_true_eq, overlaps_eq_false, and_assoc]

/-- Who owns a byte depends on the status and configuration of the endpoints only. -/
theorem sieOwns_of_same {s t : State} (hc : t.cfg = s.cfg) (hs : ∀ n : Fin 8, t.hw.eps[n].csr = s.hw.eps[n].csr)
    (hg : ∀ n : Fin 8, t.hw.eps[n].cfgr = s.hw.eps[n].cfgr) (a : Nat) : sieOwns t a = sieOwns s a := by
  simp only [sieOwns, ownsTx, ownsRx, sends, receives, txBase, txCap, rxBase, rxCap, hc, hs, hg]

/-- An allocation that goes through: the type fits the number, and neither bit of the number is set. -/
theorem allocFails_eq_false {s : State} {n : Fin 8} {ty : EpType} :
    allocFails s n ty = false ↔ (ty = .control ↔ n = 0) ∧ allocated s n = false := by
  simp only [allocFails, Bool.or_eq_false_iff, bne_eq_false_iff_eq, decide_eq_decide]

theorem not_allocated_bit {s : State} {n : Fin 8} (h : allocated s n = false) (d : Dir) :
    s.fw.alloc.getLsbD (allocIndex n d) = false := by
  obtain ⟨ho, hi⟩ := Bool.or_eq_false_iff.mp h
  cases d
  · exact ho
  · exact hi

/-! ### The configuration that an allocation writes (42_allocator.md R204) -/

section CfgrValue

variable (n : Fin 8) (d : Dir) (ty : EpType)

theorem cfgrValue_number : (cfgrValue Config.Layout.std n d ty).epadr = epNumber n := by
  unfold cfgrValue
  split
  · rename_i e; subst e; rfl
  · rfl

/-- Only endpoint 0 is enabled by its allocation. -/
theorem cfgrValue_epen : (cfgrValue Config.Layout.std n d ty).epen = true ↔ n = 0 := by
  unfold cfgrValue
  split <;> simp [*]

/-- The region of every endpoint lies in EP_SRAM, word-aligned (42_allocator.md R208(c)). -/
theorem cfgrValue_fits : bufferFits (cfgrValue Config.Layout.std n d ty) := by
  have len : (BitVec.ofNat 7 (roundDown 4 124)).toNat % 4 = 0 := by decide
  have region : ∀ k : Fin 8, k ≠ 0 → (BitVec.ofNat 10 (0x088 + (k.val - 1) * 124)).toNat + 124 ≤ 1024 ∧
      (BitVec.ofNat 10 (0x088 + (k.val - 1) * 124)).toNat % 4 = 0 := by decide
  unfold cfgrValue
  split
  · exact ⟨by decide, by decide, by decide⟩
  · rename_i e
    simp only [bufmap, if_neg e]
    exact ⟨(region n e).1, (region n e).2, len⟩

end CfgrValue

section Keep

variable {s t : State} (h : Sound s)
include h

/-- With the allocation and the configurations as they were, what remains of the invariant is the memory, what races,
the snapshot and the control packet size. -/
theorem Sound.of_sameAllocation (e : SameAllocation s t)
    (hm : Memory.wf t.cfg.layout.sramSize t.hw.sram = true) (hr : RacesOwned t) (hs : t.fw.hsnap = none)
    (hc : t.fw.ctrlMps ≤ 64) : Sound t where
  layout := e.cfg ▸ h.layout
  memory := hm
  races := hr
  snapshot := hs
  controlSize := hc
  recorded n := by rw [e.epinfo, e.allocated]; exact h.recorded n
  info := e.epinfo ▸ h.info
  direction := by rw [e.epinfo, e.alloc]; exact h.direction
  buffers n := e.cfgr n ▸ h.buffers n
  numbered n := by rw [e.allocated, e.cfgr]; exact h.numbered n
  apartFromEp0 n := by rw [e.cfgr, e.cfg]; exact h.apartFromEp0 n
  apart n m := by rw [e.cfgr, e.cfgr]; exact h.apart n m

/-- A change inside the frame of the other agents keeps the invariant. -/
theorem Sound.of_frame (f : Frame s t) (hs : t.fw.hsnap = none) : Sound t :=
  h.of_sameAllocation f.sameAllocation (f.wf h.memory) (f.races h.races) hs (f.ctrlMps ▸ h.controlSize)

/-- A change that leaves endpoints, memory and allocation keeps the invariant. -/
theorem Sound.of_sameMemory (hc : t.cfg = s.cfg) (he : t.hw.eps = s.hw.eps) (hm : t.hw.sram = s.hw.sram)
    (hr : t.hw.raced = s.hw.raced) (ha : t.fw.alloc = s.fw.alloc) (hi : t.fw.epinfo = s.fw.epinfo)
    (hs : t.fw.hsnap = s.fw.hsnap) (hk : t.fw.ctrlMps ≤ 64) : Sound t :=
  h.of_sameAllocation ⟨hc, fun n => by rw [he], ha, hi⟩ (by rw [hc, hm]; exact h.memory)
    (h.races.congr he hc hr) (hs.trans h.snapshot) hk

/-- A change of the firmware state's other fields, the tasks, the schedule or the log keeps the invariant. -/
theorem Sound.of_sameHardware (hc : t.cfg = s.cfg) (hh : t.hw = s.hw) (ha : t.fw.alloc = s.fw.alloc)
    (hi : t.fw.epinfo = s.fw.epinfo) (hs : t.fw.hsnap = s.fw.hsnap) (hk : t.fw.ctrlMps = s.fw.ctrlMps) : Sound t :=
  h.of_sameMemory hc (by rw [hh]) (by rw [hh]) (by rw [hh]) ha hi hs (hk ▸ h.controlSize)

/-- A write of `CSR`, with the reset it may perform, touches no configuration and no allocation. -/
theorem Sound.writeCsr (v : Csr) : Sound (writeCsr v s) := by
  have hs : Sound (storeCsr v s) := h.of_sameMemory rfl rfl rfl rfl rfl rfl rfl h.controlSize
  unfold Machine.writeCsr
  split
  · exact hs.of_frame (frame_sramReset _) (by simpa using h.snapshot)
  · exact hs

/-- A write of `EPnCSR` moves no buffer and takes no older count but with the TX buffer. -/
theorem Sound.updateEpCsr (n : Fin 8) (f : EpCsr → EpCsr) :
    Sound (updateEp n (fun e => { e with csr := f e.csr }) s) := by
  refine h.of_sameAllocation ⟨rfl, fun m => ?_, rfl, rfl⟩ h.memory (h.races.updateEp n _ (.inl rfl)) h.snapshot
    h.controlSize
  rw [Fin.getElem_fin, updateEp_get]
  split
  · rename_i e
    subst e
    unfold countBack
    split <;> rfl
  · rfl

/-- A write of `TXCNT` keeps every buffer and its owner; older counts are left only where the SIE owns the TX buffer. -/
theorem Sound.writeTxcnt (n : Fin 8) (c : BitVec 7) : Sound (writeTxcnt n c s) := by
  have same (m : Fin 8) : (Machine.writeTxcnt n c s).hw.eps[m].csr = s.hw.eps[m].csr ∧
      (Machine.writeTxcnt n c s).hw.eps[m].cfgr = s.hw.eps[m].cfgr := by
    rw [Fin.getElem_fin, Machine.writeTxcnt, setEp_get]
    split
    · rename_i e; subst e; exact ⟨rfl, rfl⟩
    · exact ⟨rfl, rfl⟩
  have alloc : SameAllocation s (Machine.writeTxcnt n c s) := ⟨rfl, fun m => (same m).2, rfl, rfl⟩
  refine h.of_sameAllocation alloc h.memory ⟨fun a ha => ?_, fun m hm => ?_⟩ h.snapshot h.controlSize
  · have owns := sieOwns_of_same alloc.cfg (fun m => (same m).1) alloc.cfgr a
    exact h.races.bytes a (owns ▸ ha)
  · rw [(same m).1] at hm
    rw [Fin.getElem_fin, Machine.writeTxcnt, setEp_get]
    split
    · rename_i e
      subst e
      exact if_pos hm
    · exact h.races.counts m hm

/-- A firmware write inside EP_SRAM keeps the canonical form, and leaves older bytes in the SIE's buffers only. -/
theorem Sound.putBytesFw {a : Nat} {d : List Byte} (ha : a + d.length ≤ s.cfg.layout.sramSize) :
    Sound (putBytesFw a d s) := by
  have e := putBytesFw_sameBut s a d
  exact h.of_sameAllocation ⟨e.cfg, fun n => by rw [e.eps], by rw [e], by rw [e]⟩
    (by rw [e.cfg]; exact wf_putBytesFw h.memory ha) (h.races.putBytesFw a d) (by rw [e]; exact h.snapshot)
    (by rw [e]; exact h.controlSize)

/-- A configuration that is legal where it enables, fits EP_SRAM and keeps the number of an allocated endpoint keeps the
invariant. -/
theorem Sound.writeCfgr {n : Fin 8} {c : EpCfgr} (hf : bufferFits c)
    (hn : allocated s n = true → c.epadr = epNumber n) (hl : c.epen = true → ConfigLegal s n c) :
    Sound (writeCfgr n c s) where
  layout := h.layout
  memory := h.memory
  races := h.races.updateEp n _ (.inl rfl)
  snapshot := h.snapshot
  controlSize := h.controlSize
  recorded := h.recorded
  info := h.info
  direction := h.direction
  buffers m := by
    rw [Fin.getElem_fin, writeCfgr_get]
    split
    · exact hf
    · exact h.buffers m
  numbered m hm := by
    rw [Fin.getElem_fin, writeCfgr_get] at hm ⊢
    split at hm
    · rename_i e
      subst e
      rw [if_pos rfl]
      exact hm.elim hn fun he => (hl he).number
    · rename_i e
      rw [if_neg e]
      exact h.numbered m hm
  apartFromEp0 m hm := by
    rw [Fin.getElem_fin, writeCfgr_get] at hm ⊢
    split at hm
    · rename_i e
      subst e
      rw [if_pos rfl]
      exact meetsEp0_eq_false.mpr ⟨(hl hm).ep0Setup, (hl hm).ep0Tx, (hl hm).ep0Rx⟩
    · rename_i e
      rw [if_neg e]
      exact h.apartFromEp0 m hm
  apart m k hm0 hk0 hmk hm hk := by
    rw [Fin.getElem_fin, writeCfgr_get] at hm hk
    simp only [Fin.getElem_fin, writeCfgr_get]
    by_cases em : m = n
    · have ek : k ≠ n := fun e => hmk (em.trans e.symm)
      rw [if_pos em] at hm ⊢
      rw [if_neg ek] at hk ⊢
      exact (overlaps_eq_false ..).mpr ((hl hm).others k ek hk0 hk)
    · rw [if_neg em] at hm ⊢
      by_cases ek : k = n
      · rw [if_pos ek] at hk ⊢
        rw [overlaps_comm]
        exact (overlaps_eq_false ..).mpr ((hl hk).others m em hm0 hm)
      · rw [if_neg ek] at hk ⊢
        exact h.apart m k hm0 hk0 hmk hm hk

/-- The buffer of an enabled endpoint but 0 lies apart from the EP0 TX buffer. -/
theorem Sound.apart_ep0Tx {m : Fin 8} (hm0 : m ≠ 0) (hm : s.hw.eps[m].cfgr.epen = true) :
    Apart 0x008 64 s.hw.eps[m].cfgr.epbufa.toNat s.hw.eps[m].cfgr.eplen.toNat := by
  obtain ⟨-, tx, -⟩ := meetsEp0_eq_false.mp (h.apartFromEp0 m hm)
  have a := tx hm0
  rw [h.layout] at a
  rwa [← overlaps_eq_false, overlaps_comm, overlaps_eq_false]

/-- The configuration that endpoint 0's allocation writes is legal: it stands between the SETUP and the RX buffer
(10_state.md R30). -/
theorem Sound.configLegal_zero (d : Dir) (ty : EpType) : ConfigLegal s 0 (cfgrValue Config.Layout.std 0 d ty) where
  number := rfl
  fits := cfgrValue_fits 0 d ty
  ep0Setup := by rw [h.layout]; exact .inr (.inr (.inr (Nat.le_refl _)))
  ep0Tx e := absurd rfl e
  ep0Rx := by rw [h.layout]; exact .inr (.inr (.inl (Nat.le_refl _)))
  others _ _ hm0 hm := h.apart_ep0Tx hm0 hm

/-- The record that an allocation writes fits its endpoint (42_allocator.md R202). -/
theorem Sound.infoFits_newInfo {n : Fin 8} {ty : EpType} (d : Dir) (mps : Nat) (iv : Byte) (ht : ty ≠ .isochronous)
    (hn : ty = .control ↔ n = 0) : infoFits n (newInfo s n d ty mps iv) :=
  ⟨rfl, by rw [newInfo, negotiated, h.layout]; exact Nat.min_le_right _ _, ht, hn⟩

/-- An allocation of an endpoint that is not allocated yet keeps the invariant (42_allocator.md R202, R204, R208). -/
theorem Sound.commitAlloc {n : Fin 8} {d : Dir} {ty : EpType} {mps : Nat} {iv : Byte} (ht : ty ≠ .isochronous)
    (hf : allocFails s n ty = false) : Sound (commitAlloc n d ty mps iv s) := by
  obtain ⟨htn, hn⟩ := allocFails_eq_false.mp hf
  have hw : Sound (Machine.writeCfgr n (cfgrValue s.cfg.layout n d ty) s) := by
    rw [h.layout]
    refine h.writeCfgr (cfgrValue_fits n d ty) (fun _ => cfgrValue_number n d ty) fun he => ?_
    obtain rfl := (cfgrValue_epen n d ty).mp he
    exact h.configLegal_zero d ty
  exact {
    layout := h.layout
    memory := hw.memory
    races := hw.races.congr rfl rfl rfl
    snapshot := h.snapshot
    controlSize := h.controlSize
    recorded := fun m => by
      rw [Fin.getElem_fin, commitAlloc_epinfo_get, allocated_commitAlloc]
      by_cases e : m = n
      · simp [e]
      · simpa [e] using h.recorded m
    info := fun m i hi => by
      rw [Fin.getElem_fin, commitAlloc_epinfo_get] at hi
      split at hi
      · rename_i e
        subst e
        cases hi
        exact h.infoFits_newInfo d mps iv ht htn
      · exact h.info m i hi
    direction := fun m i hm0 hi e => by
      rw [Fin.getElem_fin, commitAlloc_epinfo_get] at hi
      rw [commitAlloc_alloc, BitVec.getLsbD_or, allocBits_get]
      split at hi
      · rename_i em
        subst em
        cases hi
        simp only [not_allocated_bit hn, hm0, decide_true, decide_false, Bool.false_or, Bool.true_and]
        exact decide_eq_decide.mpr Iff.rfl
      · rename_i em
        simpa [em] using h.direction m i hm0 hi e
    buffers := hw.buffers
    numbered := fun m hm => by
      by_cases e : m = n
      · subst e
        rw [commitAlloc_hw, h.layout, Fin.getElem_fin, writeCfgr_get, if_pos rfl]
        exact cfgrValue_number m d ty
      · rw [allocated_commitAlloc, decide_eq_false e, Bool.false_or] at hm
        exact hw.numbered m hm
    apartFromEp0 := hw.apartFromEp0
    apart := hw.apart }

/-- `NEW` leaves nothing allocated; the registers stay (42_allocator.md R200). -/
theorem Sound.freshDriver : Sound (freshDriver s) where
  layout := h.layout
  memory := h.memory
  races := h.races.congr rfl rfl rfl
  snapshot := h.snapshot
  controlSize := by rw [freshDriver_fw_ctrlMps, h.layout]; exact Nat.le_refl _
  recorded n := by simp [allocated]
  info n i hi := by simp at hi
  direction n i _ hi := by simp at hi
  buffers := h.buffers
  numbered n hn := h.numbered n (.inr (by simpa [allocated] using hn))
  apartFromEp0 := h.apartFromEp0
  apart := h.apart

end Keep

/-- Every atomic change of an operation keeps the invariant. -/
theorem Atom.sound {i : Option Instr} {q : Bool} {s t : State} (a : Atom i q s t) (h : Sound s) : Sound t := by
  cases a with
  | point _ hp => exact h.of_frame (point_frame hp).1 ((point_frame hp).2 h.snapshot)
  | bus st _ hb => exact h.of_frame (applyStim_frame hb).frame ((applyStim_frame hb).fw ▸ h.snapshot)
  | irq gaps _ hi => exact h.of_frame (takeInterrupt_frame hi).1 (takeInterrupt_frame hi).2.2
  | draw r => exact h.of_frame (busFrame_drawIf r s).frame (by rw [drawIf_fw]; exact h.snapshot)
  | csr v => exact h.writeCsr v
  | epCsr n f => exact h.updateEpCsr n f
  | txcnt n c => exact h.writeTxcnt n c
  | cfgr n v _ hb =>
    have hl := (configLegal_iff h.layout n v).mpr hb
    exact h.writeCfgr hl.fits (fun _ => hl.number) fun _ => hl
  | shutOff n => exact h.writeCfgr (h.buffers n) (fun e => h.numbered n (.inl e)) fun e => nomatch e
  | bytes a d _ hb => exact h.putBytesFw hb
  | alloc n d ty mps iv _ ht hf => exact h.commitAlloc ht hf
  | new => exact h.freshDriver
  | ier | devar | status => exact h.of_sameMemory rfl rfl rfl rfl rfl rfl rfl h.controlSize
  | start m =>
    refine h.of_sameMemory rfl rfl rfl rfl rfl rfl rfl ?_
    rw [startDriver_fw_ctrlMps, negotiated, h.layout]
    exact Nat.min_le_right _ _
  | clearSched | observe | enabled | flag | consume | power | phase | drop | latch | held =>
    exact h.of_sameHardware rfl rfl rfl rfl rfl rfl

/-! ### The invariant is kept by every step -/

theorem Reach.sound {i : Option Instr} {q : Bool} {s t : State} (r : Reach i q s t) (h : Sound s) : Sound t :=
  r.keeps (fun _ _ a => a.sound) h

theorem exec_sound {i : Instr} {s t : State} (h : Sound s) (e : exec i s = .next t) : Sound t :=
  (exec_reach (q := false) (fun q => nomatch q) e).sound h

theorem resumeTask_sound {k : Task} {s t : State} (h : Sound s) (e : resumeTask k s = .next t) : Sound t :=
  (resumeTask_reach (q := false) (fun q => nomatch q) e).sound h

/-- A presented operation keeps the invariant; so does an access to a hole of the register window. -/
theorem issue_sound {p : Port} {bytes : List Byte} {s t : State} (h : Sound s) (e : issue p bytes s = .next t) :
    Sound t := by
  unfold issue at e
  split at e
  · exact exec_sound h e
  · cases e
    exact h.of_sameMemory rfl rfl rfl rfl rfl rfl rfl h.controlSize
  · cases e
    exact h
  · cases e

/-- An operation that is settled has run; no interleaving point is left over. -/
theorem settle_eq_next {r : Res} {t : State} : settle r = .next t ↔ ∃ u, r = .next u ∧ { u with sched := [] } = t := by
  cases r <;> simp

/-- What an entry does in a sound state, it leaves sound; the schedule of its points is used up. -/
theorem settle_sound {r : Res} {t : State} (hr : ∀ u, r = .next u → Sound u) (e : settle r = .next t) :
    Sound t ∧ Quiet t := by
  obtain ⟨u, hu, rfl⟩ := settle_eq_next.mp e
  exact ⟨(hr u hu).of_sameHardware rfl rfl rfl rfl rfl rfl, rfl⟩

theorem Sound.takeEntry {s : State} (h : Sound s) (rest : List Entry) (during : List (List Preempt)) :
    Sound (takeEntry rest during s) :=
  h.of_sameHardware rfl rfl rfl rfl rfl rfl

/-- Settles O6: an operation is a sequence of atomic changes, each of which keeps the invariant. -/
theorem stepKeepsSound : Obligations.StepKeepsSound := by
  intro s t h hq e
  unfold step at e
  split at e
  · cases e
    exact ⟨h, hq⟩
  · rename_i entry rest _
    cases entry with
    | issue p bytes during => exact settle_sound (fun u => issue_sound (h.takeEntry rest during)) e
    | resume k during => exact settle_sound (fun u => resumeTask_sound (h.takeEntry rest during)) e

/-! ### What an operation does to the firmware state -/

@[simp] theorem putBytesFw_fw (a : Nat) (d : List Byte) (s : State) : (putBytesFw a d s).fw = s.fw := by
  rw [putBytesFw_sameBut s a d]

/-- Allocated bits stay set and records stay as they are (10_state.md R35, R36). -/
structure AllocationGrows (s t : State) : Prop where
  bits : ∀ k, s.fw.alloc.getLsbD k = true → t.fw.alloc.getLsbD k = true
  records : ∀ (n : Fin 8) (r : EpInfo), s.fw.epinfo[n] = some r → t.fw.epinfo[n] = some r

theorem AllocationGrows.of_eq {s t : State} (ha : t.fw.alloc = s.fw.alloc) (hi : t.fw.epinfo = s.fw.epinfo) :
    AllocationGrows s t :=
  ⟨fun _ h => ha ▸ h, fun _ _ h => hi ▸ h⟩

theorem AllocationGrows.trans {s t u : State} (a : AllocationGrows s t) (b : AllocationGrows t u) :
    AllocationGrows s u :=
  ⟨fun k h => b.bits k (a.bits k h), fun n r h => b.records n r (a.records n r h)⟩

/-- An endpoint that is not allocated has no record to lose. -/
theorem Sound.no_record {s : State} (h : Sound s) {n : Fin 8} (hn : allocated s n = false) :
    s.fw.epinfo[n] = none := by
  rw [← Option.isNone_iff_eq_none, ← Option.not_isSome, h.recorded, hn, Bool.not_false]

/-- An allocation that goes through sets bits, and writes a record where there was none. -/
theorem allocationGrows_commitAlloc {n : Fin 8} {d : Dir} {ty : EpType} {mps : Nat} {iv : Byte} {s : State}
    (h : Sound s) (hf : allocFails s n ty = false) : AllocationGrows s (commitAlloc n d ty mps iv s) where
  bits k hk := by rw [commitAlloc_alloc, BitVec.getLsbD_or, hk, Bool.true_or]
  records m r hr := by
    have e : m ≠ n := by
      rintro rfl
      rw [h.no_record (allocFails_eq_false.mp hf).2] at hr
      cases hr
    rw [Fin.getElem_fin, commitAlloc_epinfo_get, if_neg e]
    exact hr

/-- No atomic change but `NEW` undoes an allocation. -/
theorem Atom.allocationGrows {i : Option Instr} {q : Bool} {s t : State} (a : Atom i q s t) (h : Sound s)
    (hi : ∀ b₁ b₂, i ≠ some (.newDriver b₁ b₂)) : AllocationGrows s t := by
  cases a with
  | alloc n d ty mps iv _ _ hf => exact allocationGrows_commitAlloc h hf
  | new b₁ b₂ _ e => exact absurd e (hi b₁ b₂)
  | point _ hp => exact .of_eq (point_frame hp).1.alloc (point_frame hp).1.epinfo
  | bus st _ hb => exact .of_eq (applyStim_frame hb).frame.alloc (applyStim_frame hb).frame.epinfo
  | irq gaps _ hi => exact .of_eq (takeInterrupt_frame hi).1.alloc (takeInterrupt_frame hi).1.epinfo
  | bytes a d => exact .of_eq (by rw [putBytesFw_fw]) (by rw [putBytesFw_fw])
  | csr v => exact .of_eq (by rw [writeCsr_fw]) (by rw [writeCsr_fw])
  | draw r => exact .of_eq (by rw [drawIf_fw]) (by rw [drawIf_fw])
  | _ => exact .of_eq rfl rfl

/-- Settles O31: the bits and records only grow along the atomic changes, the records because a sound state has one only
where the number is allocated. -/
theorem allocationNeverUndone : Obligations.AllocationNeverUndone := by
  intro i s t h hi e
  have hi' (b₁ b₂ : Bool) : some i ≠ some (Instr.newDriver b₁ b₂) := fun e => hi b₁ b₂ (Option.some.inj e)
  have r := exec_reach (q := false) (fun q => nomatch q) e
  obtain ⟨-, g⟩ := r.keeps (P := fun u => Sound u ∧ AllocationGrows s u)
    (fun _ _ a p => ⟨a.sound p.1, p.2.trans (a.allocationGrows p.1 hi')⟩) ⟨h, .of_eq rfl rfl⟩
  exact ⟨g.bits, g.records⟩

/-- The latch set after an atomic change was set before it, or the change is made by `CP_SETUP` or a held task. -/
theorem Atom.latch_set {i : Option Instr} {q : Bool} {s t : State} (a : Atom i q s t) (h : t.fw.cfgLatch = true) :
    s.fw.cfgLatch = true ∨ i = some .cpSetup ∨ i = none := by
  cases a with
  | latch _ hi => exact .inr hi
  | new => cases h
  | drop => cases h
  | point _ hp => exact .inl ((point_frame hp).1.cfgLatch ▸ h)
  | bus st _ hb => exact .inl ((applyStim_frame hb).frame.cfgLatch ▸ h)
  | irq gaps _ hi => exact .inl ((takeInterrupt_frame hi).1.cfgLatch ▸ h)
  | bytes a d => rw [putBytesFw_fw] at h; exact .inl h
  | csr v => rw [writeCsr_fw] at h; exact .inl h
  | draw r => rw [drawIf_fw] at h; exact .inl h
  | _ => exact .inl h

/-- Settles O43: of the atomic changes only that of `CP_SETUP` sets the latch. -/
theorem latchSetOnlyBySetup : Obligations.LatchSetOnlyBySetup := by
  intro i s t e
  have r := exec_reach (q := false) (fun q => nomatch q) e
  refine r.keeps (P := fun u => u.fw.cfgLatch = true → s.fw.cfgLatch = true ∨ i = .cpSetup)
    (fun a b hab ih hb => ?_) .inl
  rcases hab.latch_set hb with ha | hi | hi
  · exact ih ha
  · exact .inr (Option.some.inj hi)
  · cases hi

/-- Event flags and `WAKE` are at most cleared. -/
structure FlagsCleared (s t : State) : Prop where
  evf : ∀ k : Fin 8, t.fw.evf[k] = true → s.fw.evf[k] = true
  wake : t.fw.wake = true → s.fw.wake = true

theorem FlagsCleared.of_eq {s t : State} (he : t.fw.evf = s.fw.evf) (hw : t.fw.wake = s.fw.wake) : FlagsCleared s t :=
  ⟨fun _ h => he ▸ h, fun h => hw ▸ h⟩

theorem FlagsCleared.trans {s t u : State} (a : FlagsCleared s t) (b : FlagsCleared t u) : FlagsCleared s u :=
  ⟨fun k h => a.evf k (b.evf k h), fun h => a.wake (b.wake h)⟩

/-- An atomic change outside the handler, where nothing falls in between, sets no flag and fires no wake. -/
theorem Atom.flagsCleared {i : Option Instr} {s t : State} (a : Atom i true s t) (hi : i ≠ some .irq) :
    FlagsCleared s t := by
  cases a with
  | point q => cases q
  | irq _ e => exact absurd e hi
  | flag k =>
    refine ⟨fun j hj => ?_, id⟩
    rw [Fin.getElem_fin, tasFlag_get] at hj
    split at hj
    · cases hj
    · exact hj
  | consume => exact ⟨fun _ => id, fun h => by cases h⟩
  | new => exact ⟨fun k h => by simp at h, fun h => by cases h⟩
  | bus st _ hb => exact .of_eq (by rw [(applyStim_frame hb).fw]) (by rw [(applyStim_frame hb).fw])
  | bytes a d => exact .of_eq (by rw [putBytesFw_fw]) (by rw [putBytesFw_fw])
  | csr v => exact .of_eq (by rw [writeCsr_fw]) (by rw [writeCsr_fw])
  | draw r => exact .of_eq (by rw [drawIf_fw]) (by rw [drawIf_fw])
  | _ => exact .of_eq rfl rfl

/-- Settles O42: no atomic change of an undisturbed operation but the handler's sets a flag. -/
theorem onlyHandlerSetsFlags : Obligations.OnlyHandlerSetsFlags := by
  intro i s t hq hi e
  have r := exec_reach (q := true) (fun _ => hq) e
  have g := r.keeps (P := FlagsCleared s)
    (fun _ _ a p => p.trans (a.flagsCleared fun e => hi (Option.some.inj e))) (.of_eq rfl rfl)
  exact ⟨g.evf, g.wake⟩

/-! ### Register accesses as they are decoded (30_encoding.md R107, R108) -/

section Access

variable (rw space : Bool) (off : BitVec 12) (v : Word) (r : List Byte)

/-- A record at the access port, under the values of 00_scope.md R5. -/
theorem decode_access : decode .access (accessRecord rw space off ++ r) =
    decodeAccessFields Config.Layout.std rw space off r :=
  decode_accessRecord Config.Layout.std rw space off r

theorem decode_access_misaligned (h : off.toNat % 4 ≠ 0) :
    decode .access (accessRecord rw space off ++ r) = .error (.misaligned off.toNat) := by
  rw [decode_access]
  exact if_pos h

section Aligned

variable (ha : off.toNat % 4 = 0)
include ha

/-- Above the register window there is nothing (40_register_access.md R143). -/
theorem decode_access_outsideWindow (h : 0x0B4 ≤ off.toNat) :
    decode .access (accessRecord rw false off ++ r) = .error (.outsideWindow off.toNat) := by
  have h' : Config.Layout.std.regs.windowEnd ≤ off.toNat := h
  simp [decode_access, decodeAccessFields, ha, h']

/-- Above EP_SRAM there is nothing (40_register_access.md R143). -/
theorem decode_access_outsideSram (h : 0x400 ≤ off.toNat) :
    decode .access (accessRecord rw true off ++ r) = .error (.outsideWindow off.toNat) := by
  have h' : Config.Layout.std.sramSize < off.toNat + 4 := by
    show 0x400 < off.toNat + 4
    omega
  simp [decode_access, decodeAccessFields, ha, h']

/-- A read inside the register window is of the register its offset selects. -/
theorem decode_access_read (h : off.toNat < 0x0B4) :
    decode .access (accessRecord false false off ++ r) = regReadInstr Config.Layout.std off.toNat := by
  have h' : ¬ Config.Layout.std.regs.windowEnd ≤ off.toNat := Nat.not_le.mpr h
  simp [decode_access, decodeAccessFields, ha, h']

/-- A write inside the register window is of the register its offset selects. -/
theorem decode_access_write (h : off.toNat < 0x0B4) :
    decode .access (accessRecord true false off ++ (wordBytesLe v ++ r)) =
      regWriteInstr Config.Layout.std off.toNat v := by
  have h' : ¬ Config.Layout.std.regs.windowEnd ≤ off.toNat := Nat.not_le.mpr h
  simp [decode_access, decodeAccessFields, ha, h']

/-- The words of EP_SRAM. -/
theorem decode_access_sram (h : off.toNat ≤ 0x3FC) :
    decode .access (accessRecord false true off ++ r) = .ok (.rd32Sram off) ∧
      decode .access (accessRecord true true off ++ (wordBytesLe v ++ r)) = .ok (.wr32Sram off v) := by
  have h' : ¬ Config.Layout.std.sramSize < off.toNat + 4 := by
    show ¬ 0x400 < off.toNat + 4
    omega
  simp [decode_access, decodeAccessFields, ha, h']

end Aligned

/-- An access that follows id 0x10 or 0x11 is the one its record presents, the id giving the direction (R108). -/
theorem decode_idAccess :
    decode .op (0x10#8 :: (accessRecord false space off ++ r)) = decode .access (accessRecord false space off ++ r) ∧
      decode .op (0x11#8 :: (accessRecord false space off ++ r)) = decode .access (accessRecord true space off ++ r) := by
  rw [decode_access, decode_access]
  exact ⟨decodeIdAccess_accessRecord Config.Layout.std false space off r,
    decodeIdAccess_accessRecord Config.Layout.std true space off r⟩

end Access

section Bank

variable (n : Fin 8) (v : Word) (r : List Byte)

/-- What each offset of endpoint `n`'s bank selects (10_state.md R20). -/
theorem regSelect_bank :
    regSelect Config.Layout.std (0x014 + 0x14 * n.val) = .bank n .csr ∧
      regSelect Config.Layout.std (0x014 + 0x14 * n.val + 0x0C) = .bank n .tcr ∧
      regSelect Config.Layout.std (0x014 + 0x14 * n.val + 0x10) = .bank n .cfgr ∧
      ∀ k, k = 0x04 ∨ k = 0x08 → regSelect Config.Layout.std (0x014 + 0x14 * n.val + k) = .hole := by
  have holes : regSelect Config.Layout.std (0x014 + 0x14 * n.val + 0x04) = .hole ∧
      regSelect Config.Layout.std (0x014 + 0x14 * n.val + 0x08) = .hole := by
    revert n; decide
  refine ⟨?_, ?_, ?_, fun k hk => ?_⟩
  · revert n; decide
  · revert n; decide
  · revert n; decide
  · rcases hk with rfl | rfl
    · exact holes.1
    · exact holes.2

variable {k : Nat} (hk : k ≤ 0x10) (h4 : k % 4 = 0)
include hk h4

/-- A read or a write in a bank is of what the offset selects. -/
theorem decode_access_bank :
    decode .access (accessRecord false false (BitVec.ofNat 12 (0x014 + 0x14 * n.val + k)) ++ r) =
        regReadInstr Config.Layout.std (0x014 + 0x14 * n.val + k) ∧
      decode .access (accessRecord true false (BitVec.ofNat 12 (0x014 + 0x14 * n.val + k)) ++ (wordBytesLe v ++ r)) =
        regWriteInstr Config.Layout.std (0x014 + 0x14 * n.val + k) v := by
  have e : (BitVec.ofNat 12 (0x014 + 0x14 * n.val + k)).toNat = 0x014 + 0x14 * n.val + k := by
    rw [BitVec.toNat_ofNat]
    exact Nat.mod_eq_of_lt (by omega)
  rw [decode_access_read _ r (by omega) (by omega), decode_access_write _ v r (by omega) (by omega), e]
  exact ⟨rfl, rfl⟩

end Bank

/-- An id that R108 does not list names no operation. -/
theorem decode_unlistedId {id : Byte} (r : List Byte)
    (h : id.toNat = 0 ∨ (0x08 ≤ id.toNat ∧ id.toNat ≤ 0x0F) ∨ (0x12 ≤ id.toNat ∧ id.toNat ≤ 0x1F) ∨
      (0x25 ≤ id.toNat ∧ id.toNat ≤ 0x2F) ∨ (0x31 ≤ id.toNat ∧ id.toNat ≤ 0x3F) ∨
      (0x47 ≤ id.toNat ∧ id.toNat ≤ 0x4F) ∨ (0x57 ≤ id.toNat ∧ id.toNat ≤ 0x5F) ∨ 0x64 ≤ id.toNat) :
    decode .op (id :: r) = .error (.unknownId id) := by
  show decodeOperands Config.Layout.std id r = _
  unfold decodeOperands
  split
  case h_34 => rfl
  all_goals omega

/-- Settles O3: each offset by the register it selects; the holes, and the offsets outside either window. -/
theorem registerAccessDecode : Obligations.RegisterAccessDecode := by
  intro v r
  refine ⟨⟨?_, ?_, ?_, ?_, ?_, ?_, ?_, ?_⟩, fun n => ?banks, fun n k hk => ?holes, ?gap,
    fun rw space off h => decode_access_misaligned rw space off r h, fun off ha h => decode_access_sram off v r ha h,
    fun rw off ha => ⟨decode_access_outsideWindow rw off r ha, decode_access_outsideSram rw off r ha⟩,
    fun space off => decode_idAccess space off r, fun id h => decode_unlistedId r h⟩
  case banks =>
    obtain ⟨hc, ht, hg, -⟩ := regSelect_bank n
    obtain ⟨rc, wc⟩ := decode_access_bank n v r (k := 0) (by decide) rfl
    obtain ⟨rt, wt⟩ := decode_access_bank n v r (k := 0x0C) (by decide) rfl
    obtain ⟨rg, wg⟩ := decode_access_bank n v r (k := 0x10) (by decide) rfl
    rw [Nat.add_zero] at rc wc
    rw [rc, wc, rt, wt, rg, wg]
    simp only [regReadInstr, regWriteInstr, hc, ht, hg, and_self]
  case holes =>
    obtain ⟨-, -, -, hole⟩ := regSelect_bank n
    obtain ⟨rd, wr⟩ := decode_access_bank n v r (k := k) (by omega) (by omega)
    rw [rd, wr]
    simp only [regReadInstr, regWriteInstr, hole k hk, and_self]
  case gap =>
    exact ⟨decode_access_read 0x00C r rfl (by decide), decode_access_write 0x00C v r rfl (by decide)⟩
  · exact decode_access_read 0x000 r rfl (by decide)
  · exact decode_access_read 0x004 r rfl (by decide)
  · exact decode_access_read 0x008 r rfl (by decide)
  · exact decode_access_read 0x010 r rfl (by decide)
  · exact decode_access_write 0x000 v r rfl (by decide)
  · exact decode_access_write 0x004 v r rfl (by decide)
  · exact decode_access_write 0x008 v r rfl (by decide)
  · exact decode_access_write 0x010 v r rfl (by decide)

/-! ### The register images, field by field (10_state.md R21 to R27) -/

theorem csrWord_fields (c : Csr) :
    (csrWord c).getLsbD 1 = c.fres ∧ (csrWord c).getLsbD 2 = c.pdwn ∧ (csrWord c).getLsbD 9 = c.sramrstc ∧
      (csrWord c).getLsbD 10 = c.dppuen := by
  simp [csrWord, csrImage, Config.RegMap.std]

theorem ierWord_fields (i : Ier) :
    (ierWord i).getLsbD 0 = i.ugie ∧ (ierWord i).getLsbD 1 = i.sofie ∧ (ierWord i).getLsbD 2 = i.urstie ∧
      (ierWord i).getLsbD 3 = i.rsmie ∧ (ierWord i).getLsbD 4 = i.suspie ∧ (ierWord i).getLsbD 8 = i.ep0ie ∧
      (ierWord i).getLsbD 9 = i.ep1ie ∧ (ierWord i).getLsbD 10 = i.ep2ie ∧ (ierWord i).getLsbD 11 = i.ep3ie := by
  simp [ierWord, ierImage, Config.RegMap.std]

theorem isrWord_fields (i : Isr) :
    (isrWord i).getLsbD 1 = i.sofif ∧ (isrWord i).getLsbD 2 = i.urstif ∧ (isrWord i).getLsbD 3 = i.rsmif ∧
      (isrWord i).getLsbD 4 = i.suspif ∧ (isrWord i).getLsbD 8 = i.ep0if ∧ (isrWord i).getLsbD 9 = i.ep1if ∧
      (isrWord i).getLsbD 10 = i.ep2if ∧ (isrWord i).getLsbD 11 = i.ep3if := by
  simp [isrWord, isrImage, Config.RegMap.std]

theorem epCsrWord_fields (c : EpCsr) :
    (epCsrWord c).getLsbD 1 = c.naktx ∧ (epCsrWord c).getLsbD 2 = c.stltx ∧ (epCsrWord c).getLsbD 4 = c.nakrx ∧
      (epCsrWord c).getLsbD 5 = c.stlrx := by
  simp [epCsrWord, epCsrImage, Config.RegMap.std]

theorem devarWord_eq_setWidth (a : BitVec 7) : devarWord a = a.setWidth 32 :=
  BitVec.shiftLeft_zero _

theorem devarWord_devarOfWord (v : Word) : devarWord (devarOfWord v) = v &&& 0x7F#32 := by
  rw [devarWord_eq_setWidth]
  apply BitVec.eq_of_getLsbD_eq
  intro i hi
  simp only [devarOfWord, devarField, Config.RegMap.std]
  interval_cases i <;> simp

theorem devarOfWord_devarWord (a : BitVec 7) : devarOfWord (devarWord a) = a := by
  rw [devarWord_eq_setWidth]
  apply BitVec.eq_of_getLsbD_eq
  intro i hi
  simp only [devarOfWord, devarField, Config.RegMap.std]
  interval_cases i <;> simp

/-- Bits 6 to 0 of `EPnTCR` are `TXCNT`, bits 22 to 16 `RXCNT`, and the others 0 (10_state.md R26). -/
theorem getLsbD_epTcrWord (tx rx : BitVec 7) {i : Nat} (hi : i < 32) :
    (epTcrWord tx rx).getLsbD i = (tx.getLsbD i || decide (16 ≤ i) && rx.getLsbD (i - 16)) := by
  simp only [epTcrWord, epTcrImage, fieldAt, Config.RegMap.std, BitVec.getLsbD_or]
  interval_cases i <;> simp

theorem epTcrWord_fields (tx rx : BitVec 7) :
    (epTcrWord tx rx).extractLsb' 0 7 = tx ∧ (epTcrWord tx rx).extractLsb' 16 7 = rx ∧
      epTcrWord tx rx &&& 0x007F007F#32 = epTcrWord tx rx := by
  refine ⟨BitVec.eq_of_getLsbD_eq fun i hi => ?_, BitVec.eq_of_getLsbD_eq fun i hi => ?_,
    BitVec.eq_of_getLsbD_eq fun i hi => ?_⟩
  · rw [BitVec.getLsbD_extractLsb', getLsbD_epTcrWord tx rx (by omega)]
    interval_cases i <;> simp
  · rw [BitVec.getLsbD_extractLsb', getLsbD_epTcrWord tx rx (by omega)]
    interval_cases i <;> simp
  · rw [BitVec.getLsbD_and, getLsbD_epTcrWord tx rx hi]
    interval_cases i <;> simp

/-- The fields of the image of `EPnCFGR`, read off through the fields recovered from it. -/
theorem epCfgrWord_fields (c : EpCfgr) :
    (epCfgrWord c).extractLsb' 0 10 = c.epbufa ∧ (epCfgrWord c).extractLsb' 10 7 = c.eplen ∧
      (epCfgrWord c).extractLsb' 24 4 = c.epadr ∧ (epCfgrWord c).getLsbD 28 = c.epdir.isIn ∧
      (epCfgrWord c).extractLsb' 29 2 = c.eptype.code ∧ (epCfgrWord c).getLsbD 31 = c.epen := by
  have e := epCfgrOfWord_epCfgrWord c
  have code : (epCfgrOfWord (epCfgrWord c)).eptype.code = (epCfgrWord c).extractLsb' 29 2 := code_typeOfCode _
  have dir : (epCfgrOfWord (epCfgrWord c)).epdir.isIn = (epCfgrWord c).getLsbD 28 := isIn_of_bit _
  rw [e] at code dir
  exact ⟨congrArg EpCfgr.epbufa e, congrArg EpCfgr.eplen e, congrArg EpCfgr.epadr e, dir.symm, code.symm,
    congrArg EpCfgr.epen e⟩

theorem isIn_eq_decide (d : Dir) : d.isIn = decide (d = .inp) := by cases d <;> rfl

/-- Settles O9: the fields of each image, and that reading back a written word masks it. -/
theorem registerImages : Obligations.RegisterImages := by
  refine ⟨csrWord_fields, csrWord_csrOfWord, csrOfWord_csrWord, ierWord_fields, ierWord_ierOfWord, ierOfWord_ierWord,
    isrWord_fields, isrWord_isrOfWord, isrOfWord_isrWord, devarWord_eq_setWidth, devarWord_devarOfWord,
    devarOfWord_devarWord, epCsrWord_fields, epCsrWord_epCsrOfWord, epCsrOfWord_epCsrWord, epTcrWord_fields,
    fun _ => rfl, fun c => ?_, epCfgrWord_epCfgrOfWord, epCfgrOfWord_epCfgrWord⟩
  obtain ⟨hb, hl, ha, hd, ht, he⟩ := epCfgrWord_fields c
  refine ⟨hb, hl, ha, hd.trans (isIn_eq_decide _), ht.trans ?_, he⟩
  cases c.eptype <;> rfl

/-! ### A write of `EPnCFGR` (40_register_access.md R139) -/

/-- The SIE owns a buffer of an endpoint exactly where the check says so. -/
theorem bufferInUse_iff (s : State) (n : Fin 8) : BufferInUse s n ↔ ownsBuffer n s = true := by
  unfold BufferInUse ownsBuffer
  by_cases h : n = 0
  · rw [if_pos h, if_pos h, Bool.or_eq_true, Bool.not_eq_true', Bool.not_eq_true']
  · rw [if_neg h, if_neg h]
    cases s.hw.eps[n].cfgr.epdir with
    | out => exact (iff_of_eq (Bool.not_eq_true' _)).symm
    | inp => exact (iff_of_eq (Bool.not_eq_true' _)).symm

/-- `EPEN` is bit 31 of the image and stands in no other. -/
theorem epCfgrWord_enabled (c : EpCfgr) :
    epCfgrWord { c with epen := true } = epCfgrWord c &&& 0x7FFFFFFF#32 ||| 0x80000000#32 := by
  apply BitVec.eq_of_getLsbD_eq
  intro i hi
  simp only [epCfgrWord, epCfgrImage, fieldAt, Config.RegMap.std, BitVec.getLsbD_or, BitVec.getLsbD_and,
    getLsbD_bitAt _ _ _ hi]
  interval_cases i <;> simp

/-- Two configurations that are equal once enabled have the same image below `EPEN`. -/
theorem enabled_eq_iff (c d : EpCfgr) :
    ({ c with epen := true } : EpCfgr) = { d with epen := true } ↔
      epCfgrWord c &&& 0x7FFFFFFF#32 = epCfgrWord d &&& 0x7FFFFFFF#32 := by
  constructor
  · intro h
    have low (e : EpCfgr) :
        epCfgrWord { e with epen := true } &&& 0x7FFFFFFF#32 = epCfgrWord e &&& 0x7FFFFFFF#32 := by
      have off : 0x80000000#32 &&& 0x7FFFFFFF#32 = 0#32 := by decide
      rw [epCfgrWord_enabled, BitVec.and_or_distrib_right, BitVec.and_assoc, BitVec.and_self, off, BitVec.or_zero]
    rw [← low c, h, low d]
  · intro h
    rw [← epCfgrOfWord_epCfgrWord { c with epen := true }, epCfgrWord_enabled, h, ← epCfgrWord_enabled,
      epCfgrOfWord_epCfgrWord]

/-- The check of a write to an endpoint in use: enabled, its buffer the SIE's, and another bit than `EPEN` changed. -/
theorem reconfiguresInUse_iff (s : State) (n : Fin 8) (v : Word) :
    reconfiguresInUse n (epCfgrOfWord v) s = true ↔
      s.hw.eps[n].cfgr.epen = true ∧ BufferInUse s n ∧
        v &&& 0x7F01FFFF#32 ≠ epCfgrWord s.hw.eps[n].cfgr &&& 0x7FFFFFFF#32 := by
  have low : epCfgrWord (epCfgrOfWord v) &&& 0x7FFFFFFF#32 = v &&& 0x7F01FFFF#32 := by
    rw [epCfgrWord_epCfgrOfWord, BitVec.and_assoc]
    rfl
  rw [reconfiguresInUse, Bool.and_eq_true, Bool.and_eq_true, ← bufferInUse_iff, decide_eq_true_eq, and_assoc, ← low,
    Ne, Ne, ← enabled_eq_iff]
  refine and_congr_right fun he => ?_
  have same : ({ s.hw.eps[n].cfgr with epen := true } : EpCfgr) = s.hw.eps[n].cfgr := by rw [← he]
  rw [same]

/-- What a stored configuration leaves: the races that end, and the endpoint. -/
theorem writeCfgr_eq (n : Fin 8) (c : EpCfgr) (s : State) :
    (writeCfgr n c s).hw.eps[n].cfgr = c ∧ RacesEnd s (writeCfgr n c s) ∧
      writeCfgr n c s = { s with hw := { s.hw with
        raced := (writeCfgr n c s).hw.raced
        eps := s.hw.eps.set n { s.hw.eps[n] with cfgr := (writeCfgr n c s).hw.eps[n].cfgr } } } := by
  have e : (writeCfgr n c s).hw.eps[n].cfgr = c := (writeCfgr_get n s c n).trans (if_pos rfl)
  refine ⟨e, racesEnd_updateEp n _ s, ?_⟩
  rw [e, ← writeCfgr_eps]
  rfl

/-- Settles O16: the three checks of the write are the conditions of the statement. -/
theorem endpointConfigWritten : Obligations.EndpointConfigWritten := by
  intro s n v hl
  simp only [exec_writeCfgrInstr, rawWriteCfgr, hl, epCfgrFields_std]
  refine ⟨fun legal alloc => ?_, fun bad => ?_⟩
  · rw [configLegal_iff hl] at legal
    rw [enablesAllocated_iff] at alloc
    simp only [legal, alloc, Bool.false_eq_true, if_false]
    refine ⟨fun free => ?_, fun he hu hv => ?_⟩
    · rw [if_neg]
      · obtain ⟨hc, hr, ht⟩ := writeCfgr_eq n (epCfgrOfWord v) s
        exact ⟨_, rfl, by rw [hc, epCfgrWord_epCfgrOfWord], hr, ht⟩
      · rw [reconfiguresInUse_iff]
        rintro ⟨he, hu, hv⟩
        rcases free with h | h | h
        · rw [he] at h; cases h
        · exact h hu
        · exact hv h
    · exact if_pos ((reconfiguresInUse_iff s n v).mpr ⟨he, hu, hv⟩)
  · rw [configLegal_iff hl, enablesAllocated_iff, Bool.not_eq_false, Bool.not_eq_false] at bad
    by_cases hb : badConfig n (epCfgrOfWord v) s = true
    · exact if_pos hb
    · rw [if_neg hb, if_pos (bad.resolve_left hb)]

/-! ### The buffer map (42_allocator.md R201, 10_state.md R30) -/

/-- The region of an endpoint but 0, in either direction. -/
theorem bufmap_std {n : Fin 8} (h : n ≠ 0) (d : Dir) :
    bufmap Config.Layout.std n d = (0x088 + 124 * (n.val - 1), 124) := by
  rw [bufmap.eq_def, if_neg h, Nat.mul_comm]
  rfl

/-- The two buffers of endpoint 0 end where the other regions begin. -/
theorem bufmap_zero_end (d : Dir) :
    (bufmap Config.Layout.std 0 d).1 + (bufmap Config.Layout.std 0 d).2 ≤ 0x088 := by
  cases d <;> decide

/-- `BUFMAP` answers with the region and changes nothing. -/
theorem exec_bufmap {s : State} (hl : s.cfg.layout = Config.Layout.std) (n : Fin 8) (d : Dir) :
    exec (.bufmap n.val d) s = .next { s with
      log := .result .stack (.region (bufmap Config.Layout.std n d).1 (bufmap Config.Layout.std n d).2) :: s.log } := by
  show execBufmap n.val d s = _
  rw [execBufmap, hl, endpointOf_val]
  rfl

/-- Settles O29: the regions from endpoint 1 on follow each other, behind endpoint 0's. -/
theorem bufferMapPartition : Obligations.BufferMapPartition := by
  refine ⟨fun s d hl => ⟨exec_bufmap hl 0 .inp, exec_bufmap hl 0 .out, fun n h₁ h₇ => ?_⟩, fun n m d e hn => ?_⟩
  · have h := exec_bufmap hl ⟨n, by omega⟩ d
    rwa [bufmap_std (Fin.ne_of_val_ne (by simp only [Fin.val_zero]; omega))] at h
  · have n0 : n.val ≠ 0 := fun h => hn (Fin.ext h)
    rw [bufmap_std hn]
    refine ⟨by dsimp only; omega, by dsimp only; omega, fun hmn => ?_⟩
    by_cases hm : m = 0
    · subst hm
      have := bufmap_zero_end e
      exact .inr (.inr (.inr (by dsimp only; omega)))
    · have m0 : m.val ≠ 0 := fun h => hm (Fin.ext h)
      have ne : m.val ≠ n.val := fun h => hmn (Fin.ext h)
      rw [bufmap_std hm]
      exact .inr (.inr (by dsimp only; omega))

/-! ### Hardware reset and construction (10_state.md R45, 42_allocator.md R200) -/

/-- Every endpoint is at its reset value. -/
theorem reset_endpoint (n : Fin 8) : State.reset.hw.eps[n] = Endpoint.reset :=
  Vector.getElem_replicate _

/-- No endpoint has a record. -/
theorem reset_record (n : Fin 8) : State.reset.fw.epinfo[n] = none :=
  Vector.getElem_replicate _

/-- No endpoint is allocated. -/
theorem reset_not_allocated (n : Fin 8) : allocated State.reset n = false := by
  revert n; decide

/-- Settles O7: nothing is allocated, enabled or raced, and no byte is listed. -/
theorem resetIsSound : Obligations.ResetIsSound := by
  refine ⟨{
    layout := rfl
    memory := wf_reset
    races := ⟨fun _ _ => rfl, fun n _ => by rw [reset_endpoint]; rfl⟩
    snapshot := rfl
    controlSize := Nat.le_refl _
    recorded := fun n => by rw [reset_record, reset_not_allocated]; rfl
    info := fun n i h => by rw [reset_record] at h; cases h
    direction := fun n i _ h => by rw [reset_record] at h; cases h
    buffers := fun n => by rw [reset_endpoint]; exact ⟨by decide, by decide, by decide⟩
    numbered := fun n h => by rw [reset_not_allocated, reset_endpoint] at h; rcases h with h | h <;> cases h
    apartFromEp0 := fun n h => by rw [reset_endpoint] at h; cases h
    apart := fun n m _ _ _ h => by rw [reset_endpoint] at h; cases h }, rfl⟩

/-- Settles O8: the images of the reset fields; detached, so that no token is matched. -/
theorem hardwareResetValues : Obligations.HardwareResetValues := by
  refine ⟨by decide, by decide, by decide, by decide, fun n => ?_, rfl, rfl, fun _ => rfl, rfl, rfl, fun _ _ _ => rfl⟩
  rw [reset_endpoint]
  exact ⟨by decide, by decide, by decide, rfl, rfl⟩

/-- Settles O25: the first `NEW` makes the fresh driver's state, a second one is refused. -/
theorem newCreatesFirmwareState : Obligations.NewCreatesFirmwareState := by
  intro s b₁ b₂ hl
  refine ⟨fun hu => ?_, fun hb => if_pos hb⟩
  have e : exec (.newDriver b₁ b₂) s = finish .stack .driver (freshDriver s) := if_neg (not_not_intro hu)
  refine ⟨observe (.result .stack .driver) (freshDriver s), e, fun k => ?_, rfl, rfl, rfl, fun n => ?_, rfl, rfl, ?_,
    rfl, rfl⟩
  · exact Vector.getElem_replicate _
  · exact Vector.getElem_replicate _
  · rw [observe_fw, freshDriver_fw_ctrlMps, hl]
    rfl

end Sys2Proof.Machine
end

section
/-! PROOFS. The memory family: the register and memory accesses of 20_memory.md with the races they leave (R70 to R82),
the transactions that move packets (41_bus_side.md R166 to R171) and the control-pipe copies (44_control_pipe.md). -/

namespace Sys2Proof.Machine

/-! ### Races between two states -/

/-- Two states in which the same bytes are the SIE's and the same older bytes may be seen. -/
structure SameRaces (s t : State) : Prop where
  owner : sieOwns t = sieOwns s
  older : racedAt t = racedAt s

theorem SameRaces.of_eq {s t : State} (he : t.hw.eps = s.hw.eps) (hc : t.cfg = s.cfg) (hr : t.hw.raced = s.hw.raced) :
    SameRaces s t :=
  ⟨funext (sieOwns_congr he hc), funext (racedAt_congr hr)⟩

theorem SameRaces.refl (s : State) : SameRaces s s := ⟨rfl, rfl⟩

theorem RacesEnd.congr {s s' t t' : State} (h : RacesEnd s t) (hs : SameRaces s s') (ht : SameRaces t t') :
    RacesEnd s' t' := by
  intro a
  rw [ht.older, h a]
  simp only [racedAfter, hs.owner, hs.older, ht.owner]

theorem RacesEnd.refl (s : State) : RacesEnd s s := fun a => (racedAfter_same rfl a).symm

/-- A store that leaves the owners, then a change that leaves the bytes and ends the races it must: outside the store
the bytes are as before (20_memory.md R75(a)). -/
theorem SameOutside.racesEnd {s u t : State} {a n : Nat} (h : SameOutside s u a n) (ho : sieOwns u = sieOwns s)
    (hb : ∀ k, byteAt t k = byteAt u k) (hr : RacesEnd u t) : SameOutside s t a n := by
  intro k hk
  obtain ⟨hbk, hrk⟩ := h k hk
  refine ⟨(hb k).trans hbk, ?_⟩
  rw [hr k, racedAfter, racedAfter, ho, hrk, racedAfter_same ho]

theorem storedBytes_congr {s t : State} (h : ∀ k, byteAt t k = byteAt s k) (a n : Nat) :
    storedBytes t a n = storedBytes s a n := by
  simp only [storedBytes, h]

/-- A choice that is or is not made changes the number of choices only. -/
theorem drawIf_eq (r : Bool) (s : State) :
    drawIf r s = { s with hw := { s.hw with draws := (drawIf r s).hw.draws } } := by
  cases r <;> rfl

/-! ### Writes of `EPnCSR` (40_register_access.md R137) -/

/-- New status bits: the older counts go where the TX buffer is taken back from the SIE. -/
theorem countBack_status (e : Endpoint) (c : EpCsr) :
    countBack e { e with csr := c } = { e with
      csr := c
      txcntOld := if e.csr.naktx = false ∧ c.naktx = true then [] else e.txcntOld } := by
  unfold countBack
  cases hx : e.csr.naktx <;> cases c.naktx <;> simp

/-- The bits that a write of `EPnCSR` leaves where it finds `c` (40_register_access.md R137). -/
def statusAfter (w : Config.EpCsrWrite) (c v : EpCsr) : EpCsr :=
  match w with
  | .toggle => c.toggle v
  | .plain => v

theorem writeEpCsr_csr (n : Fin 8) (v : EpCsr) (s : State) :
    (writeEpCsr n v s).hw.eps[n].csr = statusAfter s.cfg.epcsrWrite s.hw.eps[n].csr v := by
  have h := updateEp_get s n n fun e => { e with csr := statusAfter s.cfg.epcsrWrite e.csr v }
  rw [if_pos rfl] at h
  exact (congrArg Endpoint.csr h).trans (countBack_csr _ _)

theorem writeEpCsr_eq (n : Fin 8) (v : EpCsr) (s : State) :
    writeEpCsr n v s = { s with hw := { s.hw with
      raced := (writeEpCsr n v s).hw.raced
      eps := s.hw.eps.set n { s.hw.eps[n] with
        csr := (writeEpCsr n v s).hw.eps[n].csr
        txcntOld := if s.hw.eps[n].csr.naktx = false ∧ (writeEpCsr n v s).hw.eps[n].csr.naktx = true then []
          else s.hw.eps[n].txcntOld } } } := by
  rw [writeEpCsr_csr, ← countBack_status]
  rfl

/-- Settles O14: both write semantics, bit by bit on the image. -/
theorem endpointStatusWritten : Obligations.EndpointStatusWritten := by
  intro s n v hl
  rw [exec_writeCsrInstr, hl, epCsrFields_std]
  refine ⟨_, rfl, fun hw => ?_, fun hw => ?_, racesEnd_updateEp n _ s, writeEpCsr_eq n _ s⟩
  · rw [writeEpCsr_csr, hw, statusAfter, epCsrWord_toggle, epCsrWord_epCsrOfWord]
  · rw [writeEpCsr_csr, hw, statusAfter, epCsrWord_epCsrOfWord]

/-- The effect-level write ends the races of the write it makes, if it makes one. -/
theorem racesEnd_storeEpCsr (n : Fin 8) (t want : EpCsr) (s : State) : RacesEnd s (storeEpCsr n t want s) := by
  unfold storeEpCsr
  split
  · split
    · exact RacesEnd.refl s
    · exact racesEnd_updateEp n _ s
  · exact racesEnd_updateEp n _ s

/-! ### Writes of `EPnTCR` (40_register_access.md R138) -/

/-- The endpoint that a write of its `TXCNT` leaves: while the SIE owns the buffer the old count stays beside it. -/
theorem writeTxcnt_self (n : Fin 8) (c : BitVec 7) (s : State) :
    (writeTxcnt n c s).hw.eps[n] = { s.hw.eps[n] with
      txcnt := c
      txcntOld := if s.hw.eps[n].csr.naktx then [] else s.hw.eps[n].txcnt :: s.hw.eps[n].txcntOld } :=
  (setEp_get s n n _).trans (if_pos rfl)

/-- A write of `TXCNT` moves no buffer and changes no owner. -/
theorem sameRaces_writeTxcnt (n : Fin 8) (c : BitVec 7) (s : State) : SameRaces s (writeTxcnt n c s) := by
  have same (m : Fin 8) : (writeTxcnt n c s).hw.eps[m].csr = s.hw.eps[m].csr ∧
      (writeTxcnt n c s).hw.eps[m].cfgr = s.hw.eps[m].cfgr := by
    by_cases h : m = n
    · subst h
      rw [writeTxcnt_self]
      exact ⟨rfl, rfl⟩
    · rw [show (writeTxcnt n c s).hw.eps[m] = s.hw.eps[m] from (setEp_get s n m _).trans (if_neg h)]
      exact ⟨rfl, rfl⟩
  exact ⟨funext (sieOwns_of_same rfl (fun m => (same m).1) fun m => (same m).2), funext (racedAt_congr rfl)⟩

theorem txcntOfWord_toNat (v : Word) : (txcntOfWord v).toNat = v.toNat % 128 :=
  (BitVec.extractLsb'_toNat 0 7 v).trans (by rw [Nat.shiftRight_zero])

/-- With a new `TXCNT` the image keeps `RXCNT` and takes the low bits of the written word (10_state.md R26). -/
theorem epTcrWord_txcntOfWord (tx rx : BitVec 7) (v : Word) :
    epTcrWord (txcntOfWord v) rx = (epTcrWord tx rx &&& 0x007F0000#32) ||| (v &&& 0x7F#32) := by
  apply BitVec.eq_of_getLsbD_eq
  intro i hi
  rw [getLsbD_epTcrWord _ _ hi, BitVec.getLsbD_or, BitVec.getLsbD_and, BitVec.getLsbD_and, getLsbD_epTcrWord _ _ hi]
  simp only [txcntOfWord, txcntField, Config.RegMap.std, BitVec.getLsbD_extractLsb']
  interval_cases i <;> simp

section Buffers

variable {s : State} (hl : s.cfg.layout = Config.Layout.std) (n : Fin 8)
include hl

theorem txBase_std : txBase s n = if n = 0 then 0x008 else s.hw.eps[n].cfgr.epbufa.toNat := by
  rw [txBase, hl]
  rfl

theorem rxBase_std : rxBase s n = if n = 0 then 0x048 else s.hw.eps[n].cfgr.epbufa.toNat := by
  rw [rxBase, hl]
  rfl

theorem txCap_std : txCap s n = if n = 0 then 64 else s.hw.eps[n].cfgr.eplen.toNat := by
  rw [txCap, hl]
  rfl

theorem rxCap_std : rxCap s n = if n = 0 then 64 else s.hw.eps[n].cfgr.eplen.toNat := by
  rw [rxCap, hl]
  rfl

end Buffers

/-- Settles O15: the count is the low seven bits of the word, and the capacity decides. -/
theorem transmitCountWritten : Obligations.TransmitCountWritten := by
  intro s n v cap hl hcap
  rw [← txCap_std hl] at hcap
  rw [exec_writeTcrInstr, rawWriteTcr, hl, txcntField_std, txcntOfWord_toNat, ← hcap]
  refine ⟨fun fits => ?_, fun above => if_pos above⟩
  rw [if_neg (Nat.not_lt.mpr fits)]
  refine ⟨_, rfl, ?_, ?_⟩
  · rw [writeTxcnt_self]
    exact epTcrWord_txcntOfWord _ _ v
  · rw [writeTxcnt_self]
    rfl

/-! ### Accesses to EP_SRAM (40_register_access.md R140, R143) -/

theorem storedByFirmware_putBytesFw (a : Nat) (d : List Byte) (s : State) :
    StoredByFirmware a d s (putBytesFw a d s) where
  stored := storedBytes_putBytesFw s a d
  outside := putBytesFw_sameOutside s a d
  raced k h₁ h₂ := by rw [racedAt_putBytesFw, if_pos ⟨h₁, h₂⟩]
  rest := putBytesFw_sameBut s a d

/-- Where nothing races, a word read is the four stored bytes, the lowest offset least significant. -/
theorem sramWord_unraced {s : State} {a : Nat} (h : Unraced s a 4) :
    sramWord a s = byteAt s (a + 3) ++ byteAt s (a + 2) ++ byteAt s (a + 1) ++ byteAt s a := by
  have see (i : Nat) (hi : i < 4) : fwByte s (a + i) = byteAt s (a + i) := by
    rw [fwByte, h i hi]
    exact if_neg Bool.false_ne_true
  have see0 : fwByte s a = byteAt s a := see 0 (by decide)
  rw [sramWord, see0, see 1 (by decide), see 2 (by decide), see 3 (by decide)]
  rfl

section Sram

variable {s : State} {off : BitVec 12}

theorem exec_sram_misaligned (v : Word) (h : off.toNat % 4 ≠ 0) :
    exec (.rd32Sram off) s = .refused .misaligned ∧ exec (.wr32Sram off v) s = .refused .misaligned :=
  ⟨if_pos h, if_pos h⟩

variable (hl : s.cfg.layout = Config.Layout.std) (ha : off.toNat % 4 = 0)
include hl ha

theorem exec_sram_outside (v : Word) (h : 1024 ≤ off.toNat) :
    exec (.rd32Sram off) s = .refused .outsideSram ∧ exec (.wr32Sram off v) s = .refused .outsideSram := by
  have out : s.cfg.layout.sramSize < off.toNat + 4 := by
    rw [hl]
    show 1024 < off.toNat + 4
    omega
  exact ⟨(if_neg (not_not_intro ha)).trans (if_pos out), (if_neg (not_not_intro ha)).trans (if_pos out)⟩

theorem exec_sram_inside (v : Word) (h : off.toNat < 1024) :
    exec (.rd32Sram off) s = returnWord (sramWord off.toNat s) (drawIf (fwRacing s off.toNat 4) s) ∧
      exec (.wr32Sram off v) s = .next (putBytesFw off.toNat (wordBytesLe v) s) := by
  have fits : ¬ s.cfg.layout.sramSize < off.toNat + 4 := by
    rw [hl]
    show ¬ 1024 < off.toNat + 4
    omega
  exact ⟨(if_neg (not_not_intro ha)).trans (if_neg fits), (if_neg (not_not_intro ha)).trans (if_neg fits)⟩

end Sram

/-- Settles O17: a read makes at most a free choice and changes nothing else; a write is firmware's store. -/
theorem sramAccesses : Obligations.SramAccesses := by
  intro s off v hl
  refine ⟨fun ha hi => ?_, exec_sram_misaligned v, fun ha ho => exec_sram_outside hl ha v ho⟩
  obtain ⟨read, write⟩ := exec_sram_inside hl ha v hi
  rw [read, write]
  refine ⟨⟨sramWord off.toNat s, _, rfl, ?_, ?_⟩, fun hu => ?_, _, rfl,
    storedByFirmware_putBytesFw _ (wordBytesLe v) s⟩
  · rw [observe_log, drawIf_log]
  · rw [drawIf_eq]
    rfl
  · rw [fwRacing_unraced hu, sramWord_unraced hu]
    rfl

/-! ### A packet taken in: SETUP and OUT (41_bus_side.md R166, R167) -/

/-- The status bit of an endpoint, if it has one, at its position in `ISR` (60_exceptions.md R316). -/
theorem isrWord_epStatus (n : Fin 8) : isrWord (epStatus Config.Layout.std n) = endpointBit n := by
  revert n; decide

/-- What an accepted SETUP and an accepted OUT packet have in common: the bytes stored by the SIE, the endpoint changed,
its status bit, the acknowledgement. -/
def acceptPacket (n : Fin 8) (f : Endpoint → Endpoint) (a : Nat) (d : List Byte) (s : State) : State :=
  answer .ack (raiseStatus (epStatus s.cfg.layout n) (updateEp n f (putBytes a d s)))

theorem acceptSetup_eq (d : List Byte) (s : State) :
    acceptSetup d s = acceptPacket 0 setupEndpoint s.cfg.layout.ep0SetupOff d s := rfl

theorem acceptOut_eq (n : Fin 8) (d : List Byte) (s : State) :
    acceptOut n d s = acceptPacket n (outEndpoint d.length) (rxBase s n) d s := rfl

section AcceptPacket

variable (n : Fin 8) (f : Endpoint → Endpoint) (a : Nat) (d : List Byte) (s : State)

/-- Memory and older bytes aside, the endpoint, the status bit and the answer are all that changes. -/
theorem acceptPacket_eq : acceptPacket n f a d s = { s with
    hw := { s.hw with
      sram := (acceptPacket n f a d s).hw.sram
      raced := (acceptPacket n f a d s).hw.raced
      isr := s.hw.isr.or (epStatus s.cfg.layout n)
      eps := s.hw.eps.set n (countBack s.hw.eps[n] (f s.hw.eps[n])) }
    log := .answer .ack :: s.log } := by
  unfold acceptPacket
  rw [putBytes_sameBut s a d]
  rfl

theorem byteAt_acceptPacket (k : Nat) : byteAt (acceptPacket n f a d s) k = byteAt (putBytes a d s) k := rfl

theorem storedBytes_acceptPacket : storedBytes (acceptPacket n f a d s) a d.length = d :=
  (storedBytes_congr (byteAt_acceptPacket n f a d s) a d.length).trans (storedBytes_putBytes s a d)

/-- The races that end beyond the store are those of the buffer the transaction gives back. -/
theorem racesEnd_acceptPacket : RacesEnd (putBytes a d s) (acceptPacket n f a d s) :=
  (racesEnd_updateEp n f _).congr (.refl _) (.of_eq rfl rfl rfl)

theorem acceptPacket_sameOutside : SameOutside s (acceptPacket n f a d s) a d.length :=
  (putBytes_sameOutside s a d).racesEnd (putBytes_sameBut s a d).owns (byteAt_acceptPacket n f a d s)
    (racesEnd_acceptPacket n f a d s)

/-- No older byte is left where the packet was stored. -/
theorem racedAt_acceptPacket {k : Nat} (h₁ : a ≤ k) (h₂ : k < a + d.length) :
    racedAt (acceptPacket n f a d s) k = [] := by
  have e : racedAt (putBytes a d s) k = [] := (racedAt_putBytes s a d k).trans (if_pos ⟨h₁, h₂⟩)
  rw [racesEnd_acceptPacket n f a d s k, racedAfter, e, ite_self]

theorem acceptPacket_isr (hl : s.cfg.layout = Config.Layout.std) :
    isrWord (acceptPacket n f a d s).hw.isr = isrWord s.hw.isr ||| endpointBit n := by
  rw [acceptPacket_eq, ← isrWord_epStatus, ← isrWord_or, ← hl]

end AcceptPacket

section Setup

variable {s : State} {addr : BitVec 7} {ep : BitVec 4} {data : List Byte} (hl : s.cfg.layout = Config.Layout.std)
  (hm : matchToken .setup addr ep s = some 0) (ht : s.hw.eps[(0 : Fin 8)].cfgr.eptype ≠ .isochronous)
include hl hm ht

/-- A matched SETUP of eight bytes is accepted whatever the state of endpoint 0 (41_bus_side.md R166). -/
theorem stimSetup_accepted (hd : data.length = 8) :
    stimSetup addr ep data s = .next (acceptPacket 0 setupEndpoint 0 data s) := by
  simp only [stimSetup, hm, if_neg ht, acceptSetup_eq, hl]
  exact (if_neg (not_not_intro hd)).trans (if_neg (by decide))

theorem stimSetup_badLength (hd : data.length ≠ 8) : stimSetup addr ep data s = .next (answer .none s) := by
  simp only [stimSetup, hm, if_neg ht, hl]
  exact if_pos hd

end Setup

/-- A SETUP leaves no older count, so that there is none to give back. -/
theorem countBack_setupEndpoint (e : Endpoint) : countBack e (setupEndpoint e) = setupEndpoint e := by
  unfold countBack
  split <;> rfl

/-- Settles O20: the packet is stored at offset 0 and endpoint 0 is as `setupEndpoint` says. -/
theorem setupAccepted : Obligations.SetupAccepted := by
  intro s addr ep data hl hm ht
  refine ⟨fun hd => ?_, stimSetup_badLength hl hm ht⟩
  refine ⟨_, stimSetup_accepted hl hm ht hd, ?_, ?_, fun k hk => ?_, acceptPacket_isr 0 _ 0 data s hl, ?_⟩
  · have h := storedBytes_acceptPacket 0 setupEndpoint 0 data s
    rwa [hd] at h
  · have h := acceptPacket_sameOutside 0 setupEndpoint 0 data s
    rwa [hd] at h
  · exact racedAt_acceptPacket 0 _ 0 data s (Nat.zero_le k) (by omega)
  · rw [acceptPacket_eq, countBack_setupEndpoint]
    rfl

/-! ### OUT transactions (41_bus_side.md R167) -/

/-- The buffers of a sound state lie in EP_SRAM, and a count can name each of their lengths. -/
theorem Sound.buffers_fit {s : State} (h : Sound s) (n : Fin 8) :
    (rxBase s n + rxCap s n ≤ 1024 ∧ rxCap s n < 128) ∧ txBase s n + txCap s n ≤ 1024 := by
  obtain ⟨inside, -, -⟩ := h.buffers n
  have := s.hw.eps[n].cfgr.eplen.isLt
  rw [rxBase_std h.layout, rxCap_std h.layout, txBase_std h.layout, txCap_std h.layout]
  by_cases hn : n = 0 <;> simp only [hn, if_true, if_false] at * <;> omega

/-- An OUT transaction on a matched endpoint, by the cases of R167. -/
theorem stimOut_matched {s : State} {addr : BitVec 7} {ep pid : BitVec 4} {data : List Byte} {n : Fin 8}
    (hm : matchToken .out addr ep s = some n) (ht : s.hw.eps[n].cfgr.eptype ≠ .isochronous) :
    stimOut addr ep pid data s =
      if s.hw.eps[n].csr.stlrx then .next (answer .stall s)
      else if s.hw.eps[n].csr.nakrx then .next (answer .nak s)
      else if pid ≠ dataPid s.hw.eps[n].dtgRx then .next (answer .ack s)
      else if rxCap s n < data.length then .next (answer .none s)
      else if s.cfg.layout.sramSize < rxBase s n + data.length then .refused .outsideSram
      else .next (acceptOut n data s) := by
  simp only [stimOut, hm]
  exact if_neg ht

/-- An OUT packet touches no NAK bit of the TX buffer, so no count is given back. -/
theorem countBack_outEndpoint (len : Nat) (e : Endpoint) : countBack e (outEndpoint len e) = outEndpoint len e :=
  countBack_keep id

/-- Settles O21: the cases of R167 in their order; the last one stores the packet. -/
theorem outTransaction : Obligations.OutTransaction := by
  intro s addr ep pid data n base cap h hm ht hbase hcap
  rw [← rxBase_std h.layout] at hbase
  rw [← rxCap_std h.layout] at hcap
  subst hbase hcap
  rw [show exec (.bOut addr ep pid data) s = stimOut addr ep pid data s from rfl, stimOut_matched hm ht]
  refine ⟨fun stall => if_pos stall, fun free nak => ?_, fun free ready => ?_⟩
  · rw [free, nak]
    rfl
  rw [free, ready, if_neg Bool.false_ne_true, if_neg Bool.false_ne_true]
  refine ⟨fun repeated => if_pos repeated, fun fresh long => ?_, fun (fresh : pid = dataPid _) fits => ?_⟩
  · exact (if_neg (not_not_intro fresh)).trans (if_pos long)
  obtain ⟨⟨inside, small⟩, -⟩ := h.buffers_fit n
  have room : ¬ s.cfg.layout.sramSize < rxBase s n + data.length := by
    rw [h.layout]
    show ¬ 1024 < rxBase s n + data.length
    omega
  rw [if_neg (not_not_intro fresh), if_neg (Nat.not_lt.mpr fits), if_neg room, acceptOut_eq]
  have left : (acceptPacket n (outEndpoint data.length) (rxBase s n) data s).hw.eps[n] =
      outEndpoint data.length s.hw.eps[n] := by
    rw [acceptPacket_eq, countBack_outEndpoint]
    exact Vector.getElem_set_self _
  refine ⟨_, rfl, storedBytes_acceptPacket .., acceptPacket_sameOutside n _ _ data s,
    fun k h₁ h₂ => racedAt_acceptPacket n _ _ data s h₁ h₂, ?_, acceptPacket_isr n _ _ data s h.layout, ?_⟩
  · rw [left]
    exact (BitVec.toNat_ofNat ..).trans (Nat.mod_eq_of_lt (by omega))
  · rw [left, acceptPacket_eq, countBack_outEndpoint]
    rfl

/-! ### IN transactions (41_bus_side.md R168, R170) -/

theorem length_seenBytes (s : State) (a n : Nat) : (seenBytes s a n).length = n := by
  rw [seenBytes, List.length_map, List.length_range]

/-- Each byte the SIE sees is the stored one or an older one (20_memory.md R78). -/
theorem mem_of_seenBytes {s : State} {a n k : Nat} {b : Byte} (h : (seenBytes s a n)[k]? = some b) :
    b ∈ byteAt s (a + k) :: racedAt s (a + k) := by
  obtain ⟨hk, rfl⟩ := List.getElem?_eq_some_iff.mp h
  simp only [seenBytes, List.getElem_map, List.getElem_range]
  exact pickByte_mem ..

section Settled

variable {s : State} {a n : Nat} (h : ∀ i < n, racedAt s (a + i) = [])
include h

theorem seenBytes_settled : seenBytes s a n = storedBytes s a n := by
  refine List.map_congr_left fun i hi => ?_
  rw [seenByte, h i (List.mem_range.mp hi), pickByte_nil]

theorem racing_settled : racing s a n = false := by
  simp only [racing, List.any_eq_false, List.mem_range]
  exact fun i hi => by simp [h i hi]

end Settled

/-- Without older counts the count sent is `TXCNT`. -/
theorem sentCount_settled {n : Fin 8} {s : State} (h : s.hw.eps[n].txcntOld = []) :
    sentCount n s = s.hw.eps[n].txcnt.toNat := by
  rw [sentCount, h]
  rfl

/-- The bytes endpoint `n` sends. -/
def sentBytes (n : Fin 8) (s : State) : List Byte := seenBytes s (txBase s n) (sentCount n s)

theorem inPacket_eq (n : Fin 8) (s : State) : inPacket n s = .data s.hw.eps[n].dtgTx (sentBytes n s) := rfl

theorem length_sentBytes_mem (n : Fin 8) (s : State) :
    (sentBytes n s).length ∈ (s.hw.eps[n].txcnt :: s.hw.eps[n].txcntOld).map BitVec.toNat := by
  rw [sentBytes, length_seenBytes]
  exact sentCount_mem n s

/-- What endpoint `n` leaves once its packet is sent, acknowledged or not. -/
def sendPacket (n : Fin 8) (ack : Bool) (s : State) : State :=
  answer (inPacket n s) (if ack then completeIn n (afterSend n s) else afterSend n s)

/-- An IN transaction on a matched endpoint, by the cases of R168. -/
theorem stimIn_matched {s : State} {addr : BitVec 7} {ep : BitVec 4} {ack : Bool} {n : Fin 8}
    (hm : matchToken .inp addr ep s = some n) :
    stimIn addr ep ack s =
      if s.hw.eps[n].cfgr.eptype = .isochronous then .refused .isochronous
      else if s.hw.eps[n].csr.stltx then .next (answer .stall s)
      else if s.hw.eps[n].csr.naktx then .next (answer .nak s)
      else if txCap s n < sentCount n s then .refused .countAboveCapacity
      else if s.cfg.layout.sramSize < txBase s n + sentCount n s then .refused .outsideSram
      else .next (sendPacket n ack s) := by
  simp only [stimIn, hm]
  cases ack <;> rfl

theorem afterSend_eq (n : Fin 8) (s : State) :
    afterSend n s = { s with hw := { s.hw with draws := (afterSend n s).hw.draws } } := drawIf_eq _ s

/-- Where neither bytes nor counts race no choice is made. -/
theorem afterSend_settled {n : Fin 8} {s : State} (hc : s.hw.eps[n].txcntOld = [])
    (hr : racing s (txBase s n) (sentCount n s) = false) : afterSend n s = s := by
  rw [afterSend, hr, hc]
  rfl

theorem applyAddress_eq (s : State) : applyAddress s = { s with hw := { s.hw with
    addrActive := if s.hw.addrPending then s.hw.devar else s.hw.addrActive, addrPending := false } } := by
  unfold applyAddress
  by_cases h : s.hw.addrPending = true
  · rw [if_pos h, if_pos h]
  · rw [if_neg h, if_neg h, ← Bool.eq_false_of_not_eq_true h]

/-- An acknowledged packet takes the TX buffer, and with it the older counts, from the SIE. -/
theorem countBack_inEndpoint {e : Endpoint} (h : e.csr.naktx = false) :
    countBack e (inEndpoint e) = { e with
      csr := { e.csr with naktx := true }, dtgTx := !e.dtgTx, txcntOld := [] } := by
  rw [countBack, h]
  rfl

section Send

variable (n : Fin 8) (s : State)

theorem sendPacket_log (ack : Bool) :
    (sendPacket n ack s).log = .answer (.data s.hw.eps[n].dtgTx (sentBytes n s)) :: s.log := by
  cases ack <;> simp [sendPacket, inPacket_eq, afterSend, completeIn]

theorem sendPacket_draws (ack : Bool) : (sendPacket n ack s).hw.draws = (afterSend n s).hw.draws := by
  cases ack <;> simp [sendPacket, completeIn]

/-- An unacknowledged packet stays armed. -/
theorem sendPacket_unacknowledged : sendPacket n false s = { s with
    hw := { s.hw with draws := (sendPacket n false s).hw.draws }
    log := .answer (.data s.hw.eps[n].dtgTx (sentBytes n s)) :: s.log } := by
  rw [sendPacket_draws, sendPacket, if_neg Bool.false_ne_true, afterSend_eq]
  rfl

theorem racesEnd_sendPacket : RacesEnd s (sendPacket n true s) := by
  refine (racesEnd_updateEp n inEndpoint (afterSend n s)).congr (.of_eq ?_ ?_ ?_) (.of_eq ?_ ?_ ?_)
  · rw [afterSend_eq]
  · rw [afterSend_eq]
  · rw [afterSend_eq]
  · exact applyAddress_hw_eps _
  · exact applyAddress_cfg _
  · exact applyAddress_hw_raced _

/-- An acknowledged packet moves the toggle and the NAK bit, sets the status bit and lets a pending address take
effect. -/
theorem sendPacket_acknowledged (h : s.hw.eps[n].csr.naktx = false) : sendPacket n true s = { s with
    hw := { s.hw with
      isr := s.hw.isr.or (epStatus s.cfg.layout n)
      raced := (sendPacket n true s).hw.raced
      draws := (sendPacket n true s).hw.draws
      eps := s.hw.eps.set n { s.hw.eps[n] with
        csr := { s.hw.eps[n].csr with naktx := true }, dtgTx := !s.hw.eps[n].dtgTx, txcntOld := [] }
      addrActive := if s.hw.addrPending then s.hw.devar else s.hw.addrActive
      addrPending := false }
    log := .answer (.data s.hw.eps[n].dtgTx (sentBytes n s)) :: s.log } := by
  rw [← countBack_inEndpoint h, sendPacket, if_pos rfl, completeIn, applyAddress_eq, afterSend_eq]
  rfl

end Send

/-- Settles O22: the cases of R168 in their order; what is sent is one choice of the count and one for each byte. -/
theorem inTransaction : Obligations.InTransaction := by
  intro s addr ep ack n base cap h hm ht hbase hcap
  rw [← txBase_std h.layout] at hbase
  rw [← txCap_std h.layout] at hcap
  subst hbase hcap
  rw [show exec (.bIn addr ep ack) s = stimIn addr ep ack s from rfl, stimIn_matched hm, if_neg ht]
  refine ⟨fun stall => if_pos stall, fun free nak => ?_, fun free armed => ?_⟩
  · rw [free, nak]
    rfl
  rw [free, armed, if_neg Bool.false_ne_true, if_neg Bool.false_ne_true]
  refine ⟨fun settled above => if_pos (by rwa [sentCount_settled settled]), fun fits => ?_⟩
  have count : sentCount n s ≤ txCap s n := by
    obtain ⟨c, hc, e⟩ := List.mem_map.mp (sentCount_mem n s)
    exact e ▸ fits c hc
  have inside := (h.buffers_fit n).2
  have room : ¬ s.cfg.layout.sramSize < txBase s n + sentCount n s := by
    rw [h.layout]
    show ¬ 1024 < txBase s n + sentCount n s
    omega
  rw [if_neg (Nat.not_lt.mpr count), if_neg room]
  refine ⟨_, sentBytes n s, rfl, length_sentBytes_mem n s, fun k b => mem_of_seenBytes, fun hc hr => ?_, ?_, ?_⟩
  · rw [← sentCount_settled hc] at hr ⊢
    rw [sendPacket_draws, afterSend_settled hc (racing_settled hr)]
    exact ⟨seenBytes_settled hr, rfl⟩
  · rintro rfl
    exact sendPacket_unacknowledged n s
  · rintro rfl
    refine ⟨?_, racesEnd_sendPacket n s, ?_⟩
    · rw [sendPacket_acknowledged n s armed, h.layout, isrWord_or, isrWord_epStatus]
    · rw [sendPacket_acknowledged n s armed]

/-- Settles O59: a matched, armed endpoint that does send, sends one choice of the count and one for each byte. -/
theorem racedPacketMixesBytes : Obligations.RacedPacketMixesBytes := by
  intro s t addr ep ack n base h hm free armed hbase e
  rw [← txBase_std h.layout] at hbase
  subst hbase
  rw [show exec (.bIn addr ep ack) s = stimIn addr ep ack s from rfl, stimIn_matched hm, free, armed,
    if_neg Bool.false_ne_true, if_neg Bool.false_ne_true] at e
  have sent : sendPacket n ack s = t := by
    split at e
    · cases e
    · split at e
      · cases e
      · split at e
        · cases e
        · exact Host.Outcome.next.inj e
  subst sent
  exact ⟨sentBytes n s, sendPacket_log n s ack, length_sentBytes_mem n s, fun k b => mem_of_seenBytes⟩

/-! ### `CP_SETUP` (44_control_pipe.md R262, R263) -/

theorem whenControlFree_none {s : State} (h : s.tasks.control = none) (r : Res) : whenControlFree s r = r := by
  rw [whenControlFree, h]

/-- A control task that holds nothing holds nothing when it returns. -/
theorem setControlHeld_none {s : State} (h : s.tasks.control = none) : setControlHeld none s = s := by
  show { s with tasks := { s.tasks with control := none } } = s
  rw [← h]

theorem liftHold_eq (h : EpHeld) : liftHold h = if h = .waitEnabled then .released else h := by
  cases h <;> rfl

theorem setLatch_of_set {s : State} (h : s.fw.cfgLatch = true) : setLatch s = s := if_pos h

/-- Setting the latch lifts the hold of every waiter, and of no other task (10_state.md R34). -/
theorem setLatch_of_clear {s : State} (h : s.fw.cfgLatch = false) : setLatch s = { s with
    fw := { s.fw with cfgLatch := true }
    tasks := { s.tasks with eps := Vector.ofFn fun n => liftHold s.tasks.eps[n] } } :=
  if_neg (Bool.eq_false_iff.mp h)

/-- What `CP_SETUP` leaves of the state in which it has read the packet (44_control_pipe.md R263). -/
def setupResult (pkt : List Byte) (s : State) : State :=
  observe (.result .control (.bytes pkt)) (setControlHeld none
    (if isSetConfiguration pkt then setLatch (setPhase .setupReceived s) else setPhase .setupReceived s))

theorem setupDecoded_quiet {s : State} (hq : Quiet s) (pkt : List Byte) :
    setupDecoded pkt s = .next (setupResult pkt s) := by
  unfold setupDecoded setupResult
  split
  · rw [point_quiet (quiet_setPhase hq _)]
    rfl
  · rfl

/-- Without a new configuration the latch and the tasks stay. -/
theorem setupResult_latchKept {s : State} {pkt : List Byte} (hc : s.tasks.control = none)
    (h : isSetConfiguration pkt = false ∨ s.fw.cfgLatch = true) : setupResult pkt s = { s with
      fw := { s.fw with phase := .setupReceived }
      log := .result .control (.bytes pkt) :: s.log } := by
  have e : (if isSetConfiguration pkt then setLatch (setPhase .setupReceived s) else setPhase .setupReceived s) =
      setPhase .setupReceived s := by
    rcases h with h | h
    · rw [h]
      rfl
    · rw [setLatch_of_set (s := setPhase .setupReceived s) h, ite_self]
  rw [setupResult, e, setControlHeld_none (s := setPhase .setupReceived s) hc]
  rfl

/-- At the first SET_CONFIGURATION the latch is set and the waiters are released. -/
theorem setupResult_latchSet {s : State} {pkt : List Byte} (hc : s.tasks.control = none)
    (hp : isSetConfiguration pkt = true) (h : s.fw.cfgLatch = false) : setupResult pkt s = { s with
      fw := { s.fw with phase := .setupReceived, cfgLatch := true }
      tasks := { s.tasks with eps := Vector.ofFn fun n => liftHold s.tasks.eps[n] }
      log := .result .control (.bytes pkt) :: s.log } := by
  rw [setupResult, hp, if_pos rfl, setLatch_of_clear (s := setPhase .setupReceived s) h, setControlHeld_none]
  · rfl
  · exact hc

/-- `CP_SETUP` with the flag set consumes it and copies the eight bytes at offset 0 (44_control_pipe.md R262). -/
theorem exec_cpSetup_flagged {s : State} (hl : s.cfg.layout = Config.Layout.std) (hc : s.tasks.control = none)
    (hf : s.fw.evf[(4 : Fin 8)] = true) :
    exec .cpSetup s = andThen (memRead 0 8 (tasFlag 4 s)) fun r => setupDecoded r.1 r.2 := by
  refine (whenControlFree_none hc _).trans ((if_pos hf).trans ?_)
  rw [hl]
  rfl

/-- Settles O45: the packet is read whole, and the latch moves only at the first SET_CONFIGURATION. -/
theorem setupReturnsPacket : Obligations.SetupReturnsPacket := by
  intro s hq hl hc hf hu
  have fits : 0 + 8 ≤ (tasFlag 4 s).cfg.layout.sramSize := by
    rw [tasFlag_cfg, hl]
    decide
  have config : isSetConfiguration (storedBytes s 0 8) =
      (decide (byteAt s 0 = 0x00#8) && decide (byteAt s 1 = 0x09#8)) := rfl
  have run : exec .cpSetup s = .next (setupResult (storedBytes s 0 8) (tasFlag 4 s)) := by
    rw [exec_cpSetup_flagged hl hc hf, memRead_quiet (quiet_tasFlag hq 4) fits hu, andThen_next,
      setupDecoded_quiet (quiet_tasFlag hq 4)]
    rfl
  rw [run, ← config]
  refine ⟨_, rfl, ?_⟩
  cases hp : isSetConfiguration (storedBytes s 0 8) with
  | false =>
    rw [setupResult_latchKept (s := tasFlag 4 s) hc (.inl hp)]
    exact ⟨(Bool.or_false _).symm, fun _ => rfl, fun h => absurd rfl h, rfl⟩
  | true =>
    cases hs : s.fw.cfgLatch with
    | true =>
      rw [setupResult_latchKept (s := tasFlag 4 s) hc (.inr hs)]
      exact ⟨hs, fun _ => rfl, fun h => absurd hs h, rfl⟩
    | false =>
      rw [setupResult_latchSet (s := tasFlag 4 s) hc hp hs]
      refine ⟨rfl, fun h => (nomatch h), fun _ n => ?_, rfl⟩
      rw [← liftHold_eq]
      exact Vector.getElem_ofFn _

/-! ### `CP_DATA_IN` (44_control_pipe.md R265) -/

/-- A change of one endpoint after another of the same one. -/
theorem setEp_setEp (n : Fin 8) (f g : Endpoint → Endpoint) (s : State) :
    setEp n f (setEp n g s) = setEp n (fun e => f (g e)) s := by
  have h : (setEp n g s).hw.eps[n] = g s.hw.eps[n] := (setEp_get s n n g).trans (if_pos rfl)
  rw [setEp, h, setEp_hw_eps, Vector.set_set]
  rfl

/-- The bytes and the count of a data packet, the TX buffer still firmware's. -/
def packetStored (d : List Byte) (s : State) : State := writeTxcnt 0 (BitVec.ofNat 7 d.length) (putBytesFw 0x008 d s)

/-- The packet handed to the SIE, with the value `t` of `EP0CSR` that the check read. -/
def packetArmed (d : List Byte) (t : EpCsr) (s : State) : State :=
  storeEpCsr 0 t { t with naktx := false } (packetStored d s)

section PacketArmed

variable (d : List Byte) (s : State)

theorem packetStored_csr : (packetStored d s).hw.eps[(0 : Fin 8)].csr = s.hw.eps[(0 : Fin 8)].csr := by
  rw [packetStored, writeTxcnt_self, (putBytesFw_sameBut s 0x008 d).eps]

/-- Nothing of endpoint 0 but the count and `NAKTX` changes, and where firmware owned the buffer no count races. -/
theorem packetArmed_eq (hn : s.hw.eps[(0 : Fin 8)].csr.naktx = true) :
    packetArmed d s.hw.eps[(0 : Fin 8)].csr s = { putBytesFw 0x008 d s with hw := { (putBytesFw 0x008 d s).hw with
      eps := s.hw.eps.set 0 { s.hw.eps[(0 : Fin 8)] with
        txcnt := BitVec.ofNat 7 d.length
        txcntOld := []
        csr := { s.hw.eps[(0 : Fin 8)].csr with naktx := false } } } } := by
  have csr : (packetStored d s).hw.eps[(0 : Fin 8).val].csr = s.hw.eps[(0 : Fin 8)].csr := packetStored_csr d s
  have fresh := storeEpCsr_fresh (n := 0) (s := packetStored d s)
    (want := { s.hw.eps[(0 : Fin 8)].csr with naktx := false }) (fun _ => rfl)
    (fun h => (congrArg EpCsr.nakrx csr).symm.trans h)
  rw [csr] at fresh
  rw [packetArmed, fresh, packetStored, writeTxcnt, setEp_setEp, setEp, (putBytesFw_sameBut s 0x008 d).eps, hn,
    if_pos rfl]
  rfl

theorem byteAt_packetArmed (hn : s.hw.eps[(0 : Fin 8)].csr.naktx = true) (k : Nat) :
    byteAt (packetArmed d s.hw.eps[(0 : Fin 8)].csr s) k = byteAt (putBytesFw 0x008 d s) k := by
  rw [packetArmed_eq d s hn]
  rfl

theorem racedAt_packetArmed (hn : s.hw.eps[(0 : Fin 8)].csr.naktx = true) (k : Nat) :
    racedAt (packetArmed d s.hw.eps[(0 : Fin 8)].csr s) k = racedAt (putBytesFw 0x008 d s) k := by
  rw [packetArmed_eq d s hn]
  rfl

theorem packetArmed_txcnt (hn : s.hw.eps[(0 : Fin 8)].csr.naktx = true) :
    (packetArmed d s.hw.eps[(0 : Fin 8)].csr s).hw.eps[(0 : Fin 8)].txcnt = BitVec.ofNat 7 d.length := by
  rw [packetArmed_eq d s hn]
  exact congrArg Endpoint.txcnt (Vector.getElem_set_self _)

theorem racesEnd_packetArmed (t : EpCsr) : RacesEnd (putBytesFw 0x008 d s) (packetArmed d t s) := by
  have same := sameRaces_writeTxcnt 0 (BitVec.ofNat 7 d.length) (putBytesFw 0x008 d s)
  exact (racesEnd_storeEpCsr 0 t _ (packetStored d s)).congr ⟨same.owner.symm, same.older.symm⟩ (.refl _)

end PacketArmed

theorem quiet_writeTxcnt {s : State} (h : Quiet s) (n : Fin 8) (c : BitVec 7) : Quiet (writeTxcnt n c s) :=
  quiet_setEp h n _

/-- `CP_DATA_IN` with the TX buffer ready: at most 64 bytes, the count, the handover (44_control_pipe.md R265). -/
theorem exec_cpDataIn_ready {s : State} (data : List Byte) (first last : Bool) (hq : Quiet s)
    (hl : s.cfg.layout = Config.Layout.std) (hc : s.tasks.control = none)
    (hn : s.hw.eps[(0 : Fin 8)].csr.naktx = true) (hs : s.hw.eps[(0 : Fin 8)].csr.stltx = false) :
    exec (.cpDataIn data first last) s = controlReturn .unit (setPhase (phaseAfterIn last)
      (packetArmed (data.take 64) s.hw.eps[(0 : Fin 8)].csr s)) := by
  have ready : (s.hw.eps[(0 : Fin 8)].csr.naktx && !s.hw.eps[(0 : Fin 8)].csr.stltx) = true := by
    rw [hn, hs]
    rfl
  have fits : 0x008 + (data.take 64).length ≤ s.cfg.layout.sramSize := by
    rw [hl, List.length_take]
    show 0x008 + min 64 data.length ≤ 1024
    omega
  have stored : Quiet (putBytesFw 0x008 (data.take 64) s) := quiet_sameBut hq (putBytesFw_sameBut s _ _)
  have put : dataInPut data last s.hw.eps[(0 : Fin 8)].csr s = controlReturn .unit (setPhase (phaseAfterIn last)
      (packetArmed (data.take 64) s.hw.eps[(0 : Fin 8)].csr s)) := by
    have off : s.cfg.layout.ep0TxOff = 0x008 := by rw [hl]; rfl
    have len : s.cfg.layout.ep0TxLen = 64 := by rw [hl]; rfl
    simp only [dataInPut, off, len]
    rw [memWrite_quiet hq fits, andThen_next, point_quiet stored, andThen_next,
      point_quiet (quiet_writeTxcnt stored _ _)]
    rfl
  exact (whenControlFree_none hc _).trans ((if_pos ready).trans put)

/-- Settles O49: the packet stored by firmware, then armed. -/
theorem dataInArmsPacket : Obligations.DataInArmsPacket := by
  rintro s data d first last hq hl hc hn hs rfl
  have held : (packetArmed (data.take 64) s.hw.eps[(0 : Fin 8)].csr s).tasks.control = none := by
    rw [packetArmed_eq _ s hn, putBytesFw_sameBut s]
    exact hc
  rw [exec_cpDataIn_ready data first last hq hl hc hn hs, controlReturn,
    setControlHeld_none (s := setPhase (phaseAfterIn last) _) held, finish_eq]
  generalize hd : data.take 64 = d at *
  have small : d.length < 2 ^ 7 := by
    rw [← hd, List.length_take]
    omega
  have bytes := byteAt_packetArmed d s hn
  refine ⟨_, rfl, ?_, ?_, fun k h₁ h₂ => ?_, ?_, ?_⟩
  · exact (storedBytes_congr bytes 0x008 d.length).trans (storedBytes_putBytesFw s 0x008 d)
  · exact (putBytesFw_sameOutside s 0x008 d).racesEnd (putBytesFw_sameBut s 0x008 d).owns bytes
      ((racesEnd_packetArmed d s _).congr (.refl _) (.of_eq rfl rfl rfl))
  · refine (racedAt_packetArmed d s hn k).trans ?_
    rw [racedAt_putBytesFw, if_pos ⟨h₁, h₂⟩]
  · simp only [observe_hw, setPhase_hw, packetArmed_txcnt d s hn]
    exact (BitVec.toNat_ofNat ..).trans (Nat.mod_eq_of_lt small)
  · simp only [observe_hw, setPhase_hw, packetArmed_txcnt d s hn]
    rw [packetArmed_eq d s hn, putBytesFw_sameBut s 0x008 d]
    rfl

/-! ### A SETUP between the two word reads of `CP_SETUP` (70_reset_and_hazards.md R363) -/

/-- One piece of a firmware copy: whatever falls before it, where nothing races in the state `v` it finds, it reads what
is stored there. -/
theorem readSpans_piece {s v : State} {a k : Nat} (r : List (Nat × Nat)) (acc : List Byte) (hp : point s = .next v)
    (hu : Unraced v a k) : readSpans ((a, k) :: r) acc s = readSpans r (acc ++ storedBytes v a k) v := by
  rw [readSpans, hp, andThen_next, fwBytes_unraced hu, fwRacing_unraced hu]
  rfl

theorem ownsRx_congr {s t : State} {n : Fin 8} (he : t.hw.eps[n] = s.hw.eps[n]) (hc : t.cfg = s.cfg) (a : Nat) :
    ownsRx t a n = ownsRx s a n := by
  simp only [ownsRx, receives, rxBase, rxCap, he, hc]

/-- The RX buffer of endpoint 0 lies behind the SETUP and TX buffers (10_state.md R30). -/
theorem ownsRx_zero_below {s : State} {a : Nat} (hl : s.cfg.layout = Config.Layout.std) (ha : a < 0x048) :
    ownsRx s a 0 = false := by
  have below : inRange a 0x048 (rxCap s 0) = false := by
    rw [inRange, decide_eq_false (Nat.not_le.mpr ha), Bool.false_and]
  rw [ownsRx, rxBase_std hl, if_pos rfl, below, Bool.and_false]

/-- Below the RX buffer of endpoint 0 an accepted SETUP leaves the owners of the RX buffers as they are. -/
theorem receiving_acceptPacket_zero {s : State} {k : Nat} (f : Endpoint → Endpoint) (a : Nat) (d : List Byte)
    (hl : s.cfg.layout = Config.Layout.std) (hk : k < 0x048) :
    receiving (acceptPacket 0 f a d s) k = receiving s k := by
  have cfg : (acceptPacket 0 f a d s).cfg = s.cfg := by rw [acceptPacket_eq]
  have owns (m : Fin 8) : ownsRx (acceptPacket 0 f a d s) k m = ownsRx s k m := by
    by_cases hm : m = 0
    · subst hm
      rw [ownsRx_zero_below hl hk, ownsRx_zero_below (cfg ▸ hl) hk]
    · refine ownsRx_congr ?_ cfg k
      have other := (updateEp_get (putBytes a d s) 0 m f).trans (if_neg hm)
      rw [(putBytes_sameBut s a d).eps] at other
      exact other
  simp only [receiving, funext owns]

theorem Unraced.take {s : State} {a n : Nat} (m : Nat) (h : Unraced s a (m + n)) : Unraced s a m :=
  fun i hi => h i (by omega)

theorem Unraced.drop {s : State} {a n : Nat} (m : Nat) (h : Unraced s a (m + n)) : Unraced s (a + m) n :=
  fun i hi => Nat.add_assoc a m i ▸ h (m + i) (by omega)

theorem drop_storedBytes (s : State) (a m n : Nat) : (storedBytes s a (m + n)).drop m = storedBytes s (a + m) n := by
  refine List.ext_getElem (by simp [storedBytes]) fun i h₁ h₂ => ?_
  simp only [storedBytes, List.getElem_drop, List.getElem_map, List.getElem_range, Nat.add_assoc]

theorem point_empty {s : State} {r : List (List Preempt)} (h : s.sched = [] :: r) :
    point s = .next { s with sched := r } := by
  rw [point, h]
  rfl

section Torn

variable {s : State} {addr : BitVec 7} {ep : BitVec 4} {new : List Byte} (hl : s.cfg.layout = Config.Layout.std)
  (hm : matchToken .setup addr ep s = some 0) (ht : s.hw.eps[(0 : Fin 8)].cfgr.eptype ≠ .isochronous)
  (hd : new.length = 8)
include hl hm ht hd

/-- A matched SETUP that falls into an interleaving point is accepted there. -/
theorem point_setup {r : List (List Preempt)} (h : s.sched = [.bus (.setup addr ep new)] :: r) :
    point s = .next (acceptPacket 0 setupEndpoint 0 new { s with sched := r }) := by
  have accepted := stimSetup_accepted (s := { s with sched := r }) hl hm ht hd
  rw [point, h]
  show andThen (stimSetup addr ep new { s with sched := r }) (runBatch []) = _
  rw [accepted]
  rfl

/-- The copy of a SETUP packet with another accepted between its two words: the first word of the old packet, the second
of the new one. -/
theorem memRead_torn (hu : Unraced s 0 8) (h : s.sched = [[], [.bus (.setup addr ep new)]]) :
    ∃ t, Quiet t ∧ memRead 0 8 s = .next (storedBytes s 0 4 ++ new.drop 4, t) := by
  refine ⟨acceptPacket 0 setupEndpoint 0 new { s with sched := [] }, by rw [Quiet, acceptPacket_eq], ?_⟩
  have first : point s = .next { s with sched := [[.bus (.setup addr ep new)]] } := point_empty h
  have second : point { s with sched := [[.bus (.setup addr ep new)]] } =
      .next (acceptPacket 0 setupEndpoint 0 new { s with sched := [] }) :=
    point_setup (s := { s with sched := [[.bus (.setup addr ep new)]] }) hl hm ht hd rfl
  have old : Unraced { s with sched := [[.bus (.setup addr ep new)]] } 0 4 := Unraced.take (s := s) (n := 4) 4 hu
  have unraced : Unraced (acceptPacket 0 setupEndpoint 0 new { s with sched := [] }) 4 4 := fun i hi =>
    (receiving_acceptPacket_zero (s := { s with sched := [] }) _ 0 new hl (by omega)).trans (Unraced.drop 4 hu i hi)
  have whole := storedBytes_acceptPacket 0 setupEndpoint 0 new { s with sched := [] }
  rw [hd] at whole
  rw [memRead, hl, if_neg (by decide), show copySpans 0 8 = [(0, 4), (4, 4)] from rfl, readSpans_piece _ _ first old,
    readSpans_piece _ _ second unraced, readSpans, List.nil_append, ← drop_storedBytes _ 0 4 4, whole]
  rfl

end Torn

/-- Settles O56: the first word is read before the SETUP, the second after it. -/
theorem setupReadCanTear : Obligations.SetupReadCanTear := by
  intro s addr ep new hl hc hf hu hm ht hd hs
  obtain ⟨t, quiet, read⟩ := memRead_torn (s := tasFlag 4 s) hl hm ht hd hu hs
  rw [exec_cpSetup_flagged hl hc hf, read, andThen_next, setupDecoded_quiet quiet]
  exact ⟨_, rfl, rfl⟩

end Sys2Proof.Machine
end

section
/-! PROOFS. The encoding family: the round trip of the encoder and words written out (30_encoding.md R100 to R108), and
the operations stated beside their bytes: the line events (41_bus_side.md R161 to R164), the handler's quiet run
(43_dispatcher.md R220), `EP_INFO` (42_allocator.md R207), `EP_IS_STALLED` and `REMOTE_WAKEUP` (R226, R230). -/

namespace Sys2Proof.Machine

/-! ### The round trip, by format (30_encoding.md R100) -/

/-- What the encoder writes for `i` decodes to `i`, whatever follows. -/
def RoundTrips (i : Instr) : Prop := ∀ r : List Byte, decode (encode i).1 ((encode i).2 ++ r) = .ok i

section RegisterAccess

variable {i : Instr} {off : BitVec 12} (ha : off.toNat % 4 = 0) (hw : off.toNat < 0x0B4)
include ha hw

/-- A register read goes through the register its offset selects (30_encoding.md R107). -/
theorem roundTrips_registerRead (he : encode i = readAccess false off)
    (hi : regReadInstr Config.Layout.std off.toNat = .ok i) : RoundTrips i := by
  intro r
  rw [he, readAccess_eq, decode_access_read off r ha hw, hi]

/-- So does a register write, its data read back (30_encoding.md R107). -/
theorem roundTrips_registerWrite {v : Word} (he : encode i = writeAccess false off v)
    (hi : regWriteInstr Config.Layout.std off.toNat v = .ok i) : RoundTrips i := by
  intro r
  rw [he, writeAccess_eq, List.append_assoc, decode_access_write off v r ha hw, hi]

end RegisterAccess

/-- The words of EP_SRAM (30_encoding.md R107). -/
theorem roundTrips_sram {off : BitVec 12} (h : sramOffsetOk off = true) :
    RoundTrips (.rd32Sram off) ∧ ∀ v, RoundTrips (.wr32Sram off v) := by
  simp only [sramOffsetOk, Bool.and_eq_true, decide_eq_true_eq] at h
  obtain ⟨ha, hle⟩ := h
  refine ⟨fun r => ?_, fun v r => ?_⟩
  · obtain ⟨hr, -⟩ := decode_access_sram off 0 r ha hle
    rwa [encode, readAccess_eq]
  · obtain ⟨-, hw⟩ := decode_access_sram off v r ha hle
    rwa [encode, writeAccess_eq, List.append_assoc]

/-- An operation led by its id goes through the operands of that id (30_encoding.md R108). -/
theorem roundTrips_operands {i : Instr} {id : Byte} {body : List Byte} (he : encode i = (.op, id :: body))
    (h : ∀ r, decodeOperands Config.Layout.std id (body ++ r) = .ok i) : RoundTrips i := by
  intro r
  rw [he]
  exact h r

/-- A reader that succeeds hands its value on. -/
@[simp] theorem ok_bind {ε α β : Type} (a : α) (f : α → Except ε β) : (Except.ok a >>= f) = f a := rfl

/-- A 7-bit address is the low part of its byte. -/
theorem address_of_byte (a : BitVec 7) : (a.setWidth 8).extractLsb' 0 7 = a := by
  revert a
  decide

/-- The rows of R108 by what they carry: nothing, a packet, a number, a byte sequence, operands of fixed size; then the
register accesses and the words of EP_SRAM. -/
theorem roundTrips_of_wf {i : Instr} (h : i.wf = true) : RoundTrips i := by
  cases i with
  | bReset | bSuspend | bResume | bSof | irq | poll | enable | disable | remoteWakeup | cpMaxPacketSize | cpSetup
    | cpAccept | cpReject => exact fun _ => rfl
  | bSetup | bOut =>
    have hd := readBusData_countedBytes (of_decide_eq_true h)
    exact roundTrips_operands rfl fun r => by simp [decodeOperands, readBusHeader_busHeaderBytes, hd]
  | bIn => exact roundTrips_operands rfl fun r => by simp [decodeOperands, readBusHeader_busHeaderBytes]
  | allocIn | allocOut | start | cpDataOut | epRead =>
    have hn := readNumber_numberBytes (of_decide_eq_true h)
    exact roundTrips_operands rfl fun r => by simp [decodeOperands, hn]
  | bufmap number dir =>
    have hn : number < 256 := of_decide_eq_true h
    exact roundTrips_operands rfl fun r => by simp [decodeOperands, Nat.mod_eq_of_lt hn]
  | cpDataIn | epWrite =>
    have hd := readBytes_countedBytes (of_decide_eq_true h)
    exact roundTrips_operands rfl fun r => by simp [decodeOperands, hd]
  | cpAcceptSetAddress => exact roundTrips_operands rfl fun r => by simp [decodeOperands, address_of_byte]
  | newDriver | epSetStalled | epIsStalled | epSetEnabled | epInfo | epWaitEnabled =>
    exact roundTrips_operands rfl fun r => by simp [decodeOperands]
  | rd32Csr | rd32Ier | rd32Isr | rd32Devar | rd32Ep0csr | rd32Ep0tcr | rd32Ep0cfgr | rd32Ep1csr | rd32Ep1tcr
    | rd32Ep1cfgr | rd32Ep2csr | rd32Ep2tcr | rd32Ep2cfgr | rd32Ep3csr | rd32Ep3tcr | rd32Ep3cfgr | rd32Ep4csr
    | rd32Ep4tcr | rd32Ep4cfgr | rd32Ep5csr | rd32Ep5tcr | rd32Ep5cfgr | rd32Ep6csr | rd32Ep6tcr | rd32Ep6cfgr
    | rd32Ep7csr | rd32Ep7tcr | rd32Ep7cfgr =>
    exact roundTrips_registerRead rfl (by decide) rfl rfl
  | wr32Csr | wr32Ier | wr32Isr | wr32Devar | wr32Ep0csr | wr32Ep0tcr | wr32Ep0cfgr | wr32Ep1csr | wr32Ep1tcr
    | wr32Ep1cfgr | wr32Ep2csr | wr32Ep2tcr | wr32Ep2cfgr | wr32Ep3csr | wr32Ep3tcr | wr32Ep3cfgr | wr32Ep4csr
    | wr32Ep4tcr | wr32Ep4cfgr | wr32Ep5csr | wr32Ep5tcr | wr32Ep5cfgr | wr32Ep6csr | wr32Ep6tcr | wr32Ep6cfgr
    | wr32Ep7csr | wr32Ep7tcr | wr32Ep7cfgr =>
    exact roundTrips_registerWrite rfl (by decide) rfl rfl
  | rd32Sram off => exact (roundTrips_sram h).1
  | wr32Sram off v => exact (roundTrips_sram h).2 v

/-- Settles O1: the round trip of every well-formed operation. -/
theorem decodeEncodeRoundTrip : Obligations.DecodeEncodeRoundTrip :=
  fun _ r h => roundTrips_of_wf h r

/-- Settles O2: each word is evaluated by the decoder. -/
theorem decodesWrittenWords : Obligations.DecodesWrittenWords :=
  ⟨rfl, rfl, rfl, rfl, rfl, rfl, rfl, rfl, rfl, rfl, rfl⟩

/-! ### Line events (41_bus_side.md R161 to R164) -/

/-- Raising a line event's status sets its one bit (10_state.md R23). -/
theorem isrWord_raise (a : Isr) :
    isrWord (a.or statusReset) = isrWord a ||| 0x004#32 ∧ isrWord (a.or statusSuspend) = isrWord a ||| 0x010#32 ∧
      isrWord (a.or statusResume) = isrWord a ||| 0x008#32 ∧ isrWord (a.or statusSof) = isrWord a ||| 0x002#32 := by
  simp only [isrWord_or]
  exact ⟨rfl, rfl, rfl, rfl⟩

/-- Settles O19: each event is the raise of its bit; start-of-frame splits on `ATTACHED`. -/
theorem lineEventsSetStatus : Obligations.LineEventsSetStatus := by
  intro s
  obtain ⟨hReset, hSuspend, hResume, hSof⟩ := isrWord_raise s.hw.isr
  refine ⟨⟨_, rfl, hReset, rfl⟩, ⟨_, rfl, hSuspend, rfl⟩, ⟨_, rfl, hResume, rfl⟩, ⟨_, rfl, ?_, ?_⟩,
    fun r => ⟨rfl, rfl, rfl, rfl⟩⟩
  · cases attached s
    · exact BitVec.or_zero.symm
    · exact hSof
  · cases attached s <;> rfl

/-! ### The status word and the flags (10_state.md R23, 30_encoding.md R106) -/

section StatusWord

variable (a : Isr)

/-- Writing the snapshot back to `ISR` clears all of it (40_register_access.md R134). -/
theorem Isr.clear_self : a.clear a = Isr.zero := by
  simp [Isr.clear, Isr.zero]

theorem Isr.any_eq_false : a.any = false ↔ a = Isr.zero := by
  cases a
  simp [Isr.any, Isr.zero, and_assoc]

theorem isrWord_eq_zero : isrWord a = 0#32 ↔ a = Isr.zero := by
  refine ⟨fun h => ?_, fun h => h ▸ rfl⟩
  rw [← isrOfWord_isrWord a, h]
  rfl

theorem Isr.any_eq_decide : a.any = decide (isrWord a ≠ 0#32) := by
  rw [Bool.eq_iff_iff, decide_eq_true_eq, ne_eq, isrWord_eq_zero, ← Isr.any_eq_false, Bool.not_eq_false]

/-- The flag of each source, in the order of 30_encoding.md R106. -/
theorem toList_setFlags (evf : Vector Bool 8) : (setFlags evf a).toList =
    [evf[(0 : Fin 8)] || a.urstif, evf[(1 : Fin 8)] || a.suspif, evf[(2 : Fin 8)] || a.rsmif,
      evf[(3 : Fin 8)] || a.sofif, evf[(4 : Fin 8)] || a.ep0if, evf[(5 : Fin 8)] || a.ep1if,
      evf[(6 : Fin 8)] || a.ep2if, evf[(7 : Fin 8)] || a.ep3if] := rfl

end StatusWord

/-! ### The pulse of `SRAMRSTC` (43_dispatcher.md R220) -/

/-- Two writes of the `CSR` just read: with `SRAMRSTC`, then without. -/
def pulseSramrstc (s : State) : State :=
  writeCsr { s.hw.csr with sramrstc := false } (writeCsr { s.hw.csr with sramrstc := true } s)

/-- A later store of `CSR` is no part of the SRAM/DATA-toggle reset. -/
theorem ToggleReset.storeCsr {s t : State} (h : ToggleReset s t) (v : Csr) : ToggleReset s (storeCsr v t) :=
  ⟨h.endpoints, h.content, congrArg (fun hw : Hw => { hw with csr := v }) h.rest⟩

/-- The end state of the reset is described by its SIE and configuration alone. -/
theorem ToggleReset.congr {s t u : State} (h : ToggleReset s t) (hc : u.cfg = t.cfg) (hh : u.hw = t.hw) :
    ToggleReset s u := by
  cases t
  cases u
  cases hc
  cases hh
  exact ⟨h.endpoints, h.content, h.rest⟩

@[simp] theorem writeCsr_isr (v : Csr) (s : State) : (writeCsr v s).hw.isr = s.hw.isr := by
  unfold writeCsr
  split <;> simp

section Pulse

variable (s : State)

/-- The second write of the pulse only stores (40_register_access.md R131). -/
theorem pulseSramrstc_eq : pulseSramrstc s =
    storeCsr { s.hw.csr with sramrstc := false } (writeCsr { s.hw.csr with sramrstc := true } s) :=
  writeCsr_no_reset (.inr rfl)

@[simp] theorem pulseSramrstc_csr : (pulseSramrstc s).hw.csr = { s.hw.csr with sramrstc := false } :=
  writeCsr_csr _ _

@[simp] theorem pulseSramrstc_isr : (pulseSramrstc s).hw.isr = s.hw.isr := by
  simp [pulseSramrstc]

@[simp] theorem pulseSramrstc_cfg : (pulseSramrstc s).cfg = s.cfg := by
  simp [pulseSramrstc]

theorem pulseSramrstc_toggleReset {s : State} (hl : s.cfg.layout = Config.Layout.std)
    (h : s.hw.csr.sramrstc = false) : ToggleReset s (pulseSramrstc s) := by
  rw [pulseSramrstc_eq]
  exact (writeCsr_toggleReset hl h rfl).storeCsr _

/-- Where `SRAMRSTC` read 1 the pulse has no rising edge, so it resets nothing (40_register_access.md R131). -/
theorem pulseSramrstc_of_set {s : State} (h : s.hw.csr.sramrstc = true) :
    pulseSramrstc s = storeCsr { s.hw.csr with sramrstc := false } s := by
  rw [pulseSramrstc_eq, writeCsr_no_reset (.inl h)]
  rfl

end Pulse

/-! ### The handler's run into which nothing falls (43_dispatcher.md R220) -/

/-- What a quiet run leaves of the SIE beside the status word: as it was, or the pulse at a bus reset. -/
def handledSie (s : State) : State := if s.hw.isr.urstif then pulseSramrstc s else s

/-- The state after a quiet run: flags set, sources cleared, a wake if there was any. -/
def handled (s : State) : State := { s with
  hw := { (handledSie s).hw with isr := Isr.zero }
  fw := { s.fw with
    evf := setFlags s.fw.evf s.hw.isr, wake := s.fw.wake || s.hw.isr.any, hsnap := none } }

/-- A write of `CSR` neither reads nor changes the status word and the firmware state. -/
theorem writeCsr_status_fw (v : Csr) (a : Isr) (f : Fw) (s : State) :
    writeCsr v { s with hw := { s.hw with isr := a }, fw := f } =
      { s with hw := { (writeCsr v s).hw with isr := a }, fw := f } := by
  unfold writeCsr sramReset resetContent
  dsimp only [endRaces_cfg, storeCsr_cfg]
  split
  · cases s.cfg.sramRstContent <;> rfl
  · rfl

theorem pulseSramrstc_status_fw (a : Isr) (f : Fw) (s : State) :
    pulseSramrstc { s with hw := { s.hw with isr := a }, fw := f } =
      { s with hw := { (pulseSramrstc s).hw with isr := a }, fw := f } := by
  rw [pulseSramrstc_eq, pulseSramrstc_eq, writeCsr_status_fw]
  rfl

theorem gap_nil (k : Nat) (s : State) : gap [] k s = .next s := rfl

theorem handlerPulse_nil (s : State) : handlerPulse [] s = .next (pulseSramrstc s) := rfl

theorem handlerReturn_eq (a : Isr) (s : State) :
    handlerReturn a s = { s with fw := { s.fw with wake := s.fw.wake || a.any, hsnap := none } } := by
  unfold handlerReturn
  cases a.any <;> simp [fireWake]

theorem takeInterrupt_nil (s : State) : takeInterrupt [] s = .next (handled s) := by
  have hf : clearStatus s.hw.isr (handlerFlags s.hw.isr (handlerRead s)) = { s with
      hw := { s.hw with isr := Isr.zero }
      fw := { s.fw with evf := setFlags s.fw.evf s.hw.isr, hsnap := some s.hw.isr } } := by
    rw [← Isr.clear_self s.hw.isr]
    rfl
  simp only [takeInterrupt, gap_nil, andThen_next, hf, handlerPulse_nil, pulseSramrstc_status_fw, handlerReturn_eq,
    handled, handledSie]
  cases s.hw.isr.urstif <;> rfl

theorem exec_irq_quiet {s : State} (h : Quiet s) : exec .irq s = .next (handled s) := by
  have hs : s.sched = [] := h
  have e : { s with sched := [] } = s := by rw [← hs]
  show takeInterrupt (s.sched.map batchStims) { s with sched := [] } = _
  rw [e, hs]
  exact takeInterrupt_nil s

/-- Settles O32: the flags and the wake from the snapshot, and of the SIE the pulse at a bus reset, split on whether
`SRAMRSTC` read 0. -/
theorem handlerTranscribesPending : Obligations.HandlerTranscribesPending := by
  intro s hq hl
  refine ⟨handled s, exec_irq_quiet hq, toList_setFlags s.hw.isr s.fw.evf, (isrWord_eq_zero _).mpr rfl,
    ?wake, ?csr, ?reset, ?rest, rfl⟩
  case wake => rw [← Isr.any_eq_decide]; rfl
  case csr =>
    show (handledSie s).hw.csr = _
    unfold handledSie
    split
    · exact pulseSramrstc_csr s
    · rfl
  case reset =>
    intro hu hc
    have h := pulseSramrstc_toggleReset hl hc
    refine h.congr (pulseSramrstc_cfg s).symm ?_
    show { (handledSie s).hw with isr := s.hw.isr } = (pulseSramrstc s).hw
    rw [handledSie, if_pos hu, ← pulseSramrstc_isr s]
  case rest =>
    intro h
    show { (handledSie s).hw with isr := Isr.zero } = { s.hw with isr := Isr.zero, csr := (handledSie s).hw.csr }
    unfold handledSie
    split
    · rename_i hu
      have hc : s.hw.csr.sramrstc = true := h.resolve_left (by simp [hu])
      rw [pulseSramrstc_of_set hc]
      rfl
    · rfl

/-! ### Operations that answer and change nothing (42_allocator.md R207; 43_dispatcher.md R226, R230) -/

/-- Settles O30: the record of the endpoint that the address names; the bytes are the encoder's. -/
theorem endpointInfoReturned : Obligations.EndpointInfoReturned := by
  intro s a n i hl ha hi
  refine ⟨?_, roundTrips_of_wf (i := .epInfo a) rfl⟩
  show execEpInfo a s = _
  rw [execEpInfo, withEndpoint_of hl ha, hi]
  rfl

/-- The stall bit of a direction, at its position in `EPnCSR` (10_state.md R25). -/
theorem stall_eq_bit (c : EpCsr) (d : Dir) :
    c.stall d = if d = .inp then (epCsrWord c).getLsbD 2 else (epCsrWord c).getLsbD 5 := by
  obtain ⟨-, stltx, -, stlrx⟩ := epCsrWord_fields c
  cases d
  · exact stlrx.symm
  · exact stltx.symm

/-- Settles O36: the bit of the endpoint that the address names, the abort where it names none. -/
theorem stallBitRead : Obligations.StallBitRead := by
  intro s a hl
  refine ⟨fun n hn => ?_, fun h => withEndpoint_abort hl h _, roundTrips_of_wf (i := .epIsStalled a) rfl⟩
  rw [← stall_eq_bit]
  exact withEndpoint_of hl hn _

/-- Settles O40: `raise Unsupported` appends its result and nothing else (60_exceptions.md R310). -/
theorem remoteWakeupUnsupported : Obligations.RemoteWakeupUnsupported :=
  fun s => ⟨raiseError_eq .bus .unsupported s, roundTrips_of_wf (i := .remoteWakeup) rfl⟩

end Sys2Proof.Machine
end

section
/-! PROOFS. The register-access family: the reads of the registers (40_register_access.md R130, R136), the writes of the
global ones (R131 to R135), and the operations that go through them: `EP_SET_STALLED` (43_dispatcher.md R225), `ENABLE`
(R228), and the handler's pulse that comes after a SETUP (70_reset_and_hazards.md R355). -/

namespace Sys2Proof.Machine

/-! ### Reads (40_register_access.md R130, R136) -/

theorem exec_readCsrInstr (n : Fin 8) (s : State) : exec (readCsrInstr n) s = readEpCsr n s := by
  match n with
  | 0 | 1 | 2 | 3 | 4 | 5 | 6 | 7 => rfl

theorem exec_readTcrInstr (n : Fin 8) (s : State) : exec (readTcrInstr n) s = readEpTcr n s := by
  match n with
  | 0 | 1 | 2 | 3 | 4 | 5 | 6 | 7 => rfl

theorem exec_readCfgrInstr (n : Fin 8) (s : State) : exec (readCfgrInstr n) s = readEpCfgr n s := by
  match n with
  | 0 | 1 | 2 | 3 | 4 | 5 | 6 | 7 => rfl

/-- Settles O10: each read hands out the image of the standard register map. -/
theorem registersRead : Obligations.RegistersRead := by
  intro s hl
  have global : exec .rd32Csr s = returnWord (csrWord s.hw.csr) s ∧ exec .rd32Ier s = returnWord (ierWord s.hw.ier) s ∧
      exec .rd32Isr s = returnWord (isrWord s.hw.isr) s ∧ exec .rd32Devar s = returnWord (devarWord s.hw.devar) s := by
    simp only [exec, execRd32Csr, execRd32Ier, execRd32Isr, execRd32Devar, hl, csrImage_std, ierImage_std, isrImage_std,
      devarImage_std, and_self]
  obtain ⟨csr, ier, isr, devar⟩ := global
  refine ⟨csr, ier, isr, devar, fun n => ?_⟩
  rw [exec_readCsrInstr, exec_readTcrInstr, exec_readCfgrInstr, readEpCsr, readEpTcr, readEpCfgr, hl, epCsrImage_std,
    epTcrImage_std, epCfgrImage_std]
  exact ⟨rfl, rfl, rfl⟩

/-! ### Writes of the global registers (40_register_access.md R131 to R135) -/

/-- Settles O11: the write of the four bits, split on whether it is a 0-to-1 write of `SRAMRSTC`. -/
theorem controlRegisterWritten : Obligations.ControlRegisterWritten := by
  intro s v hl
  have run : exec (.wr32Csr v) s = .next (writeCsr (csrOfWord v) s) := by
    rw [← csrFields_std, ← hl]
    rfl
  refine ⟨_, run, ?_, writeCsr_hardware s _, fun low rise => writeCsr_toggleReset hl low rise, fun noEdge => ?_⟩
  · rw [writeCsr_csr, csrWord_csrOfWord]
  · rw [writeCsr_no_reset noEdge]
    rfl

/-- The enabled pending sources are the source bits of `ISR & v`, where `v` is what was written to `IER`
(60_exceptions.md R317). -/
theorem enabledPending_ierOfWord (v : Word) (a : Isr) :
    enabledPending (ierOfWord v) a = decide (isrWord a &&& v &&& 0xF1E#32 ≠ 0#32) := by
  rw [← isrWord_isrOfWord, ← Isr.any_eq_decide]
  simp only [enabledPending, ierOfWord, ierFields, Isr.any, isrOfWord, isrFields, Config.RegMap.std, BitVec.getLsbD_and,
    isrWord_fields]

/-- Settles O12: the nine bits, and the line as the equation of R317 has it. -/
theorem interruptEnableWritten : Obligations.InterruptEnableWritten := by
  intro s v hl
  have run : exec (.wr32Ier v) s = .next (writeIer (ierOfWord v) s) := by
    rw [← ierFields_std, ← hl]
    rfl
  refine ⟨_, run, ierWord_ierOfWord v, ?_, rfl⟩
  rw [← enabledPending_ierOfWord]
  rfl

/-- Settles O13: the status bits on their image; the address is the low seven bits of the word. -/
theorem statusAndAddressWritten : Obligations.StatusAndAddressWritten := by
  intro s v hl
  have clears : exec (.wr32Isr v) s = .next (clearStatus (isrOfWord v) s) := by
    rw [← isrFields_std, ← hl]
    rfl
  refine ⟨⟨_, clears, ?_, rfl⟩, ?_⟩
  · rw [clearStatus_hw_isr, isrWord_clear, isrWord_isrOfWord]
  · rw [← devarField_std, ← hl]
    rfl

/-! ### The stall bit of a direction (43_dispatcher.md R225) -/

/-- The position of a direction's stall bit in `EPnCSR` (10_state.md R25). -/
def stallPosition : Dir → Nat
  | .inp => 2
  | .out => 5

section StallBit

variable (c : EpCsr) (d : Dir)

theorem twoPow_stallPosition :
    BitVec.twoPow 32 (stallPosition d) = if d = .inp then 0x04#32 else 0x20#32 := by
  cases d <;> rfl

theorem getLsbD_stallPosition : (epCsrWord c).getLsbD (stallPosition d) = c.stall d := by
  rw [stall_eq_bit]
  cases d <;> rfl

theorem getLsbD_withStall (b : Bool) {i : Nat} (hi : i < 32) :
    (epCsrWord (c.withStall d b)).getLsbD i = if i = stallPosition d then b else (epCsrWord c).getLsbD i := by
  cases d <;>
    simp only [epCsrWord, epCsrImage, EpCsr.withStall, stallPosition, Config.RegMap.std, BitVec.getLsbD_or,
      getLsbD_bitAt _ _ _ hi]
  · interval_cases i <;> simp
  · interval_cases i <;> simp

/-- Setting or clearing the stall bit sets or clears it in the image. -/
theorem epCsrWord_withStall (b : Bool) : epCsrWord (c.withStall d b) =
    if b then epCsrWord c ||| BitVec.twoPow 32 (stallPosition d)
    else epCsrWord c &&& ~~~BitVec.twoPow 32 (stallPosition d) := by
  apply BitVec.eq_of_getLsbD_eq
  intro i hi
  rw [getLsbD_withStall c d b hi]
  by_cases h : i = stallPosition d
  · subst h
    cases b <;> simp [hi]
  · cases b <;> simp [hi, h]

/-- The stall bit is set exactly where its mask finds it in the image. -/
theorem stall_eq_decide_mask : c.stall d = decide (epCsrWord c &&& BitVec.twoPow 32 (stallPosition d) ≠ 0#32) := by
  have mask : BitVec.twoPow 32 (stallPosition d) ≠ 0#32 := by cases d <;> decide
  rw [BitVec.and_twoPow, getLsbD_stallPosition]
  cases c.stall d <;> simp [mask]

/-- Writing the value it has changes nothing. -/
theorem withStall_stall : c.withStall d (c.stall d) = c := by
  cases d <;> rfl

theorem withStall_nak (b : Bool) : (c.withStall d b).naktx = c.naktx ∧ (c.withStall d b).nakrx = c.nakrx := by
  cases d <;> exact ⟨rfl, rfl⟩

end StallBit

/-- With nothing scheduled an operation goes on past an interleaving point as if there were none. -/
theorem andThen_point_quiet {α : Type} {s : State} (h : Quiet s) (f : State → Host.Outcome α Fault Refusal) :
    andThen (point s) f = f s := by
  rw [point_quiet h, andThen_next]

/-- Settles O35: undisturbed, the bits just read are changed in the one place and no buffer changes its owner; where the
bit has the value already, nothing is written, whatever came in between. -/
theorem stallBitWritten : Obligations.StallBitWritten := by
  intro s a n b bit hl ha hbit
  rw [← twoPow_stallPosition] at hbit
  subst hbit
  have run : exec (.epSetStalled a b) s = andThen (point s) fun u =>
      finish .bus .unit (changeEpCsr n s.hw.eps[n].csr (s.hw.eps[n].csr.withStall a.dir b) u) :=
    withEndpoint_of hl ha _
  refine ⟨fun hq => ?_, fun u same hp => ?_⟩
  · obtain ⟨tx, rx⟩ := withStall_nak s.hw.eps[n].csr a.dir b
    have written : changeEpCsr n s.hw.eps[n].csr (s.hw.eps[n].csr.withStall a.dir b) s =
        setEp n (fun e => { e with csr := s.hw.eps[n].csr.withStall a.dir b }) s :=
      changeEpCsr_fresh (fun h => tx.trans h) (fun h => rx.trans h)
    have left : (setEp n (fun e => { e with csr := s.hw.eps[n].csr.withStall a.dir b }) s).hw.eps[n].csr =
        s.hw.eps[n].csr.withStall a.dir b :=
      congrArg Endpoint.csr ((setEp_get s n n _).trans (if_pos rfl))
    rw [run, andThen_point_quiet hq, written, finish_eq]
    refine ⟨_, rfl, ?_, ?_⟩
    · rw [observe_hw, left, epCsrWord_withStall]
    · rw [observe_hw, left]
      rfl
  · rw [← stall_eq_decide_mask] at same
    rw [run, hp, andThen_next, ← same, withStall_stall, changeEpCsr, if_pos rfl]
    rfl

/-! ### `ENABLE` (43_dispatcher.md R228) -/

/-- The pull-up switched on, the first write of `ENABLE`. -/
def pulledUp (s : State) : State := storeCsr { s.hw.csr with dppuen := true } s

/-- The first write leaves `SRAMRSTC` as it was, so it resets nothing (40_register_access.md R131). -/
theorem writeCsr_pullUp (s : State) : writeCsr { s.hw.csr with dppuen := true } s = pulledUp s :=
  writeCsr_no_reset (Bool.eq_false_or_eq_true _)

/-- An earlier store of `CSR` is no part of the SRAM/DATA-toggle reset. -/
theorem ToggleReset.of_storeCsr {s t : State} {v : Csr} (h : ToggleReset (Machine.storeCsr v s) t) : ToggleReset s t :=
  ⟨h.endpoints, h.content, h.rest⟩

theorem ToggleReset.ier {s t : State} (h : ToggleReset s t) : t.hw.ier = s.hw.ier := by
  rw [h.rest]

/-- The pulse changes the SIE only. -/
theorem pulseSramrstc_hardware (s : State) : SameButHardware s (pulseSramrstc s) := by
  rw [pulseSramrstc_eq, writeCsr_hardware s]
  rfl

/-- What an undisturbed `ENABLE` leaves: the pull-up, the pulse, the mask. -/
def enabled (s : State) : State :=
  observe (.result .bus .unit) (markEnabled (writeIer (ierOfWord s.cfg.ierMask) (pulseSramrstc (pulledUp s))))

theorem exec_enable_quiet {s : State} (hq : Quiet s) (hl : s.cfg.layout = Config.Layout.std) :
    exec .enable s = .next (enabled s) := by
  have up : Quiet (pulledUp s) := hq
  have high : Quiet (writeCsr { (pulledUp s).hw.csr with sramrstc := true } (pulledUp s)) := quiet_writeCsr up _
  have pulsed : Quiet (pulseSramrstc (pulledUp s)) := quiet_writeCsr high _
  have cfg : (pulseSramrstc (pulledUp s)).cfg = s.cfg := pulseSramrstc_cfg _
  show execEnable s = _
  rw [execEnable, andThen_point_quiet hq, writeCsr_pullUp, andThen_point_quiet up]
  refine (andThen_point_quiet high _).trans ((andThen_point_quiet pulsed _).trans ?_)
  rw [cfg, hl, ierFields_std]
  rfl

/-- Settles O38: with the pull-up on, the pulse resets where `SRAMRSTC` read 0; the mask and the record of R361 come
after it. -/
theorem enableAttaches : Obligations.EnableAttaches := by
  intro s hq hl
  refine ⟨enabled s, exec_enable_quiet hq hl, ?csr, ierWord_ierOfWord _, fun low => ?reset, fun set => ?noEdge, ?frame⟩
  case csr => exact pulseSramrstc_csr (pulledUp s)
  case reset =>
    have h : ToggleReset (pulledUp s) (pulseSramrstc (pulledUp s)) := pulseSramrstc_toggleReset hl low
    refine h.of_storeCsr.congr ?_ ?_
    · rfl
    · rw [← h.of_storeCsr.ier]
      rfl
  case noEdge =>
    have e : pulseSramrstc (pulledUp s) = _ := pulseSramrstc_of_set set
    rw [enabled, e]
    rfl
  case frame =>
    rw [enabled, pulseSramrstc_hardware (pulledUp s)]
    rfl

/-! ### The pulse after a SETUP (70_reset_and_hazards.md R355) -/

/-- A token is matched only while the device is attached, so `SRAMRSTC` is 0 (41_bus_side.md R160, R165). -/
theorem sramrstc_of_matchToken {tok : Token} {addr : BitVec 7} {ep : BitVec 4} {s : State} {n : Fin 8}
    (h : matchToken tok addr ep s = some n) : s.hw.csr.sramrstc = false := by
  unfold matchToken at h
  split at h
  · rename_i conditions
    simp only [attached, Bool.and_eq_true, Bool.not_eq_true'] at conditions
    obtain ⟨⟨⟨-, low⟩, -⟩, -⟩ := conditions
    exact low
  · cases h

/-- The handler's first steps: the snapshot, its flags, and the sources written back to `ISR`
(43_dispatcher.md R220). -/
def acknowledged (s : State) : State := clearStatus s.hw.isr (handlerFlags s.hw.isr (handlerRead s))

/-- A run of the handler at a bus reset, with stimuli `st` after it has cleared the sources and before the pulse. -/
theorem takeInterrupt_beforePulse {s u : State} {st : List Stim} (hu : s.hw.isr.urstif = true)
    (h : runStims st (acknowledged s) = .next u) :
    takeInterrupt [[], [], st] s = .next (handlerReturn s.hw.isr (pulseSramrstc u)) := by
  show andThen (runStims st (acknowledged s)) _ = _
  rw [h, andThen_next, hu]
  rfl

/-- Settles O57: the SETUP is accepted by a device that has `SRAMRSTC = 0`, so the pulse after it has its rising edge;
the status bit it raised comes after the clearing write and stays. -/
theorem latePulseWipesSetup : Obligations.LatePulseWipesSetup := by
  intro s addr ep data hl hm ht hd hu hs
  have accepted : runStims [.setup addr ep data] (acknowledged { s with sched := [] }) =
      .next (acceptPacket 0 setupEndpoint 0 data (acknowledged { s with sched := [] })) := by
    have h := stimSetup_accepted (s := acknowledged { s with sched := [] }) hl hm ht hd
    show andThen (stimSetup addr ep data _) _ = _
    rw [h]
    rfl
  have run : exec .irq s = takeInterrupt [[], [], [.setup addr ep data]] { s with sched := [] } := by
    show takeInterrupt (s.sched.map batchStims) { s with sched := [] } = _
    rw [hs]
    rfl
  rw [run, takeInterrupt_beforePulse (s := { s with sched := [] }) hu accepted]
  generalize hp : acceptPacket 0 setupEndpoint 0 data (acknowledged { s with sched := [] }) = packet
  have layout : packet.cfg.layout = Config.Layout.std := by
    rw [← hp, acceptPacket_eq]
    exact hl
  have low : packet.hw.csr.sramrstc = false := by
    rw [← hp, acceptPacket_eq]
    show s.hw.csr.sramrstc = false
    exact sramrstc_of_matchToken hm
  have wiped := (pulseSramrstc_toggleReset layout low).endpoints 0
  refine ⟨_, rfl, ?_, ?_, ?_, ?_⟩
  · rw [handlerReturn_log, pulseSramrstc_hardware packet, ← hp, acceptPacket_eq]
    rfl
  · rw [handlerReturn_hw, wiped]
    rfl
  · rw [handlerReturn_hw, wiped]
    rfl
  · rw [handlerReturn_hw, pulseSramrstc_isr, ← hp, acceptPacket_eq]
    show (_ || (epStatus s.cfg.layout 0).ep0if) = true
    rw [hl]
    exact Bool.or_true _

end Sys2Proof.Machine
end

section
/-! PROOFS. The bus-side family: which endpoint a token matches (41_bus_side.md R160, R165), what a stimulus never writes
(R172), and which operations move a DATA toggle (R169). -/

namespace Sys2Proof.Machine

/-! ### Token matching (41_bus_side.md R160, R165) -/

theorem attached_iff {s : State} : attached s = true ↔
    s.hw.csr.dppuen = true ∧ s.hw.csr.pdwn = false ∧ s.hw.csr.fres = false ∧ s.hw.csr.sramrstc = false := by
  simp only [attached, Bool.and_eq_true, Bool.not_eq_true', and_assoc]

/-- Exactly one endpoint is addressed where exactly one is enabled under the number (notes/assumptions/24.md). -/
theorem addressed_eq_singleton {s : State} {ep : BitVec 4} {n : Fin 8} : addressed s ep = [n] ↔
    ∀ m : Fin 8, (s.hw.eps[m].cfgr.epen = true ∧ s.hw.eps[m].cfgr.epadr = ep) ↔ m = n := by
  have distinct : (addressed s ep).Nodup := (List.nodup_finRange 8).filter _
  rw [← List.perm_singleton, List.perm_ext_iff_of_nodup distinct (List.nodup_singleton n)]
  simp only [addressed, List.mem_filter, List.mem_finRange, true_and, Bool.and_eq_true, decide_eq_true_eq,
    List.mem_singleton]

theorem directionFits_iff {tok : Token} {n : Fin 8} {d : Dir} : directionFits tok n d = true ↔
    (tok = .setup → n = 0) ∧ (tok = .out → n = 0 ∨ d = .out) ∧ (tok = .inp → n = 0 ∨ d = .inp) := by
  cases tok <;> simp [directionFits]

/-- A token matches the one addressed endpoint, where the device is attached at the token's address and the direction
fits. -/
theorem matchToken_eq_some {tok : Token} {addr : BitVec 7} {ep : BitVec 4} {s : State} {n : Fin 8} :
    matchToken tok addr ep s = some n ↔ attached s = true ∧ addr = s.hw.addrActive ∧ ep.toNat < s.cfg.layout.nEp ∧
      addressed s ep = [n] ∧ directionFits tok n s.hw.eps[n].cfgr.epdir = true := by
  unfold matchToken
  simp only [Option.ite_none_right_eq_some, Bool.and_eq_true, decide_eq_true_eq, and_assoc]
  refine and_congr_right fun _ => and_congr_right fun _ => and_congr_right fun _ => ?_
  split
  · rename_i m only
    rw [only, Option.ite_none_right_eq_some, Option.some.injEq, List.cons.injEq]
    constructor
    · rintro ⟨fits, rfl⟩
      exact ⟨⟨rfl, rfl⟩, fits⟩
    · rintro ⟨⟨rfl, -⟩, fits⟩
      exact ⟨fits, rfl⟩
  · rename_i other
    exact iff_of_false nofun fun h => other n h.1

/-- Settles O18: the conditions of a match one by one; without a match each transaction is silent, and on an isochronous
endpoint each is refused. -/
theorem tokenMatching : Obligations.TokenMatching := by
  intro s addr ep hl
  refine ⟨fun tok n => ?matched, fun data h => ?setup, fun pid data h => ?out, fun ack h => ?inp,
    fun n pid data ack ht => ⟨fun h => ?isoSetup, fun h => ?isoOut, fun h => ?isoIn⟩⟩
  case matched =>
    have number : ep.toNat < s.cfg.layout.nEp ↔ ep.toNat ≤ 7 := by rw [hl]; exact Nat.lt_succ_iff
    rw [matchToken_eq_some, attached_iff, number, addressed_eq_singleton, directionFits_iff]
  case setup => simp only [exec, execBSetup, stimSetup, h]; rfl
  case out => simp only [exec, execBOut, stimOut, h]; rfl
  case inp => simp only [exec, execBIn, stimIn, h]; rfl
  case isoSetup => simp only [exec, execBSetup, stimSetup, h]; exact if_pos ht
  case isoOut => simp only [exec, execBOut, stimOut, h]; exact if_pos ht
  case isoIn => exact (stimIn_matched h).trans (if_pos ht)

/-! ### What the bus side never writes (41_bus_side.md R172) -/

theorem exec_stim (st : Stim) (s : State) : exec st.instr s = applyStim st s := by
  cases st <;> rfl

/-- Where bits are only added to a word, none of it is cleared. -/
theorem and_not_or_self {w : Nat} (x y : BitVec w) : x &&& ~~~(y ||| x) = 0#w := by
  rw [BitVec.not_or, BitVec.and_comm (~~~y), ← BitVec.and_assoc, BitVec.and_not_self]
  exact BitVec.zero_and

/-- Settles O23: the frame of a bus stimulus. -/
theorem busSideWritesNoFirmwareState : Obligations.BusSideWritesNoFirmwareState := by
  intro s t st e
  rw [exec_stim] at e
  have f := applyStim_frame e
  refine ⟨f.cfg, f.fw, f.tasks, f.inbox, f.csr, f.ier, ?_, f.cfgr, fun n hn => ⟨f.txcnt n hn, f.stalls n hn⟩⟩
  rw [f.isr, isrWord_or, and_not_or_self]

/-! ### The writers of a DATA toggle (41_bus_side.md R169) -/

/-- Both DATA toggles of every endpoint are the same. -/
def SameToggles (s t : State) : Prop :=
  ∀ n : Fin 8, t.hw.eps[n].dtgTx = s.hw.eps[n].dtgTx ∧ t.hw.eps[n].dtgRx = s.hw.eps[n].dtgRx

/-- The operations that may change a toggle. -/
def WritesToggles (i : Instr) : Prop :=
  (∃ a e d, i = .bSetup a e d) ∨ (∃ a e p d, i = .bOut a e p d) ∨ (∃ a e k, i = .bIn a e k) ∨
    i = .irq ∨ i = .enable ∨ ∃ v, i = .wr32Csr v

theorem not_writesToggles {i : Instr} : ¬ WritesToggles i ↔
    (∀ a e d, i ≠ .bSetup a e d) ∧ (∀ a e p d, i ≠ .bOut a e p d) ∧ (∀ a e k, i ≠ .bIn a e k) ∧
      i ≠ .irq ∧ i ≠ .enable ∧ ∀ v, i ≠ .wr32Csr v := by
  simp only [WritesToggles, not_or, not_exists, ne_eq]

theorem SameToggles.of_eps {s t : State} (h : t.hw.eps = s.hw.eps) : SameToggles s t :=
  fun n => by rw [h]; exact ⟨rfl, rfl⟩

theorem SameToggles.refl (s : State) : SameToggles s s := .of_eps rfl

theorem SameToggles.trans {s t u : State} (a : SameToggles s t) (b : SameToggles t u) : SameToggles s u :=
  fun n => ⟨(b n).1.trans (a n).1, (b n).2.trans (a n).2⟩

theorem countBack_toggles (e e' : Endpoint) :
    (countBack e e').dtgTx = e'.dtgTx ∧ (countBack e e').dtgRx = e'.dtgRx := by
  unfold countBack
  split <;> exact ⟨rfl, rfl⟩

/-- A change of one endpoint that leaves its toggles leaves those of all. -/
theorem sameToggles_setEp (n : Fin 8) (f : Endpoint → Endpoint) (s : State)
    (hf : (f s.hw.eps[n]).dtgTx = s.hw.eps[n].dtgTx ∧ (f s.hw.eps[n]).dtgRx = s.hw.eps[n].dtgRx) :
    SameToggles s (setEp n f s) := by
  intro m
  rw [Fin.getElem_fin, setEp_get]
  split
  · rename_i h; subst h; exact hf
  · exact ⟨rfl, rfl⟩

/-- So it does where it ends races: what they leave of the endpoint has the same toggles (20_memory.md R78). -/
theorem sameToggles_updateEp (n : Fin 8) (f : Endpoint → Endpoint) (s : State)
    (hf : (f s.hw.eps[n]).dtgTx = s.hw.eps[n].dtgTx ∧ (f s.hw.eps[n]).dtgRx = s.hw.eps[n].dtgRx) :
    SameToggles s (updateEp n f s) := by
  obtain ⟨tx, rx⟩ := countBack_toggles s.hw.eps[n] (f s.hw.eps[n])
  exact sameToggles_setEp n (fun e => countBack e (f e)) s ⟨tx.trans hf.1, rx.trans hf.2⟩

/-- The line events touch no endpoint (41_bus_side.md R161 to R164). -/
theorem applyStim_toggles {st : Stim} {s t : State} (h : applyStim st s = .next t) (hw : ¬ WritesToggles st.instr) :
    SameToggles s t := by
  obtain ⟨noSetup, noOut, noIn, -⟩ := not_writesToggles.mp hw
  cases st with
  | reset | suspend | resume => cases h; exact .of_eps rfl
  | sof =>
    cases h
    split <;> exact .of_eps rfl
  | setup a e d => exact absurd rfl (noSetup a e d)
  | out a e p d => exact absurd rfl (noOut a e p d)
  | inp a e k => exact absurd rfl (noIn a e k)

/-- An atomic change of another operation, where nothing falls in between, moves no toggle. A write of `CSR` would by the
reset of R132 only, and then the operation is `ENABLE` or the raw write. -/
theorem Atom.sameToggles {i : Instr} {s t : State} (a : Atom (some i) true s t) (hw : ¬ WritesToggles i) :
    SameToggles s t := by
  obtain ⟨-, -, -, noHandler, noEnable, noWrite⟩ := not_writesToggles.mp hw
  cases a with
  | point q => cases q
  | bus st hi h =>
    obtain rfl := Option.some.inj hi
    exact applyStim_toggles h hw
  | irq _ hi => exact absurd (Option.some.inj hi) noHandler
  | csr v _ hv =>
    have noEdge : s.hw.csr.sramrstc = true ∨ v.sramrstc = false := by
      cases set : v.sramrstc with
      | false => exact .inr rfl
      | true =>
        rcases hv rfl set with high | hi | ⟨w, hi⟩
        · exact .inl high
        · exact absurd (Option.some.inj hi) noEnable
        · exact absurd (Option.some.inj hi) (noWrite w)
    rw [writeCsr_no_reset noEdge]
    exact .of_eps rfl
  | draw r => exact .of_eps (drawIf_hw_eps s r)
  | bytes a d => exact .of_eps (putBytesFw_sameBut s a d).eps
  | epCsr n f => exact sameToggles_updateEp n _ s ⟨rfl, rfl⟩
  | txcnt n c => exact sameToggles_setEp n _ s ⟨rfl, rfl⟩
  | cfgr n v => exact sameToggles_updateEp n _ s ⟨rfl, rfl⟩
  | shutOff n => exact sameToggles_updateEp n _ s ⟨rfl, rfl⟩
  | alloc n d ty => exact sameToggles_updateEp n _ s ⟨rfl, rfl⟩
  | _ => exact .of_eps rfl

/-- Settles O24: the atomic changes of every other operation keep the toggles. -/
theorem toggleWriters : Obligations.ToggleWriters := by
  intro i s t hq e
  by_cases hw : WritesToggles i
  · exact .inr hw
  · have r := exec_reach (q := true) (fun _ => hq) e
    exact .inl (r.keeps (P := SameToggles s) (fun _ _ a p => p.trans (a.sameToggles hw)) (.refl s))

end Sys2Proof.Machine
end

section
/-! PROOFS. The allocator family: an allocation that succeeds (42_allocator.md R202 to R205), one that fails (R202,
R203, R311) or is not offered (R206, R361), and `START` (R206). -/

namespace Sys2Proof.Machine

/-! ### The endpoint of an allocation (42_allocator.md R202, R203) -/

/-- The number given, or the pair's in the table of 42_allocator.md R203. -/
def numberByTable (d : Dir) (ty : EpType) (opt : Option EpAddr) : BitVec 4 :=
  match opt, ty, d with
  | some a, _, _ => a.num
  | none, .bulk, .inp => 3
  | none, .bulk, .out => 2
  | none, .interrupt, .inp => 1
  | none, .interrupt, .out => 4
  | none, _, _ => 0

theorem chosenNumber_std {s : State} (h : s.cfg.defaultAddr = Config.DefaultAddr.std) (d : Dir) (ty : EpType)
    (opt : Option EpAddr) : chosenNumber s d ty opt = numberByTable d ty opt := by
  cases opt with
  | some a => rfl
  | none =>
    show defaultNumber s.cfg.defaultAddr d ty = _
    rw [h]
    cases ty <;> cases d <;> rfl

/-- An allocation passes the tests that come before its endpoint's, and `n` is that endpoint. -/
structure AllocOffered (s : State) (d : Dir) (ty : EpType) (opt : Option EpAddr) (n : Fin 8) : Prop where
  notStarted : s.fw.life ≠ .started
  notEnabled : s.fw.busEnabled = false
  notIsochronous : ty ≠ .isochronous
  endpoint : epIndex s.cfg.layout (chosenNumber s d ty opt) = some n

/-- Under the values of 00_scope.md R5 the endpoint is the one that the table numbers. -/
theorem allocOffered_of_table {s : State} {d : Dir} {ty : EpType} {opt : Option EpAddr} {n : Fin 8}
    (hl : s.cfg.layout = Config.Layout.std) (hd : s.cfg.defaultAddr = Config.DefaultAddr.std)
    (hs : s.fw.life ≠ .started) (he : s.fw.busEnabled = false) (ht : ty ≠ .isochronous)
    (hn : numberByTable d ty opt = BitVec.ofNat 4 n.val) : AllocOffered s d ty opt n := by
  refine ⟨hs, he, ht, ?_⟩
  rw [hl, chosenNumber_std hd, hn]
  exact epIndex_epNumber n

/-- What these tests read is the configuration, the life and whether the bus is enabled. -/
theorem AllocOffered.congr {s t : State} {d : Dir} {ty : EpType} {opt : Option EpAddr} {n : Fin 8}
    (h : AllocOffered s d ty opt n) (hc : t.cfg = s.cfg) (hl : t.fw.life = s.fw.life)
    (hb : t.fw.busEnabled = s.fw.busEnabled) : AllocOffered t d ty opt n where
  notStarted := hl ▸ h.notStarted
  notEnabled := hb ▸ h.notEnabled
  notIsochronous := h.notIsochronous
  endpoint := by rw [← h.endpoint, chosenNumber.eq_def, chosenNumber.eq_def, hc]

/-! ### What `allocate` answers (42_allocator.md R202) -/

theorem exec_allocInstr (d : Dir) (ty : EpType) (opt : Option EpAddr) (mps : Nat) (iv : Byte) (s : State) :
    exec (allocInstr d ty opt mps iv) s = allocate d ty opt mps iv s := by
  cases d <;> rfl

theorem allocated_eq_false {s : State} {n : Fin 8} : allocated s n = false ↔
    s.fw.alloc.getLsbD (2 * n.val) = false ∧ s.fw.alloc.getLsbD (2 * n.val + 1) = false :=
  Bool.or_eq_false_iff

/-- The number and the type do not fit, or the number is in use, by either of its bits. -/
theorem allocFails_eq_true {s : State} {n : Fin 8} {ty : EpType} : allocFails s n ty = true ↔
    (ty = .control ∧ n ≠ 0) ∨ (ty ≠ .control ∧ n = 0) ∨
      s.fw.alloc.getLsbD (2 * n.val) = true ∨ s.fw.alloc.getLsbD (2 * n.val + 1) = true := by
  simp only [allocFails, allocated, allocIndex, Bool.or_eq_true, bne_iff_ne, ne_eq, decide_eq_decide]
  tauto

section Offered

variable {s : State} {d : Dir} {ty : EpType} {opt : Option EpAddr} {n : Fin 8} (mps : Nat) (iv : Byte)

/-- An allocation that is offered ends in the error or in the allocation. -/
theorem AllocOffered.allocate_eq (h : AllocOffered s d ty opt n) : allocate d ty opt mps iv s =
    if allocFails s n ty then raiseError .stack .allocError s
    else finish .stack (.info (newInfo s n d ty mps iv)) (commitAlloc n d ty mps iv s) := by
  rw [allocate, if_neg h.notStarted, if_neg (by simp [h.notEnabled]), if_neg h.notIsochronous, withEndpoint, h.endpoint]
  rfl

theorem AllocOffered.allocate_fails (h : AllocOffered s d ty opt n) (hf : allocFails s n ty = true) :
    allocate d ty opt mps iv s = .next { s with log := .result .stack (.error .allocError) :: s.log } := by
  rw [h.allocate_eq, if_pos hf]
  rfl

theorem AllocOffered.allocate_succeeds (h : AllocOffered s d ty opt n) (hf : allocFails s n ty = false) :
    allocate d ty opt mps iv s = .next (observe (.result .stack (.info (newInfo s n d ty mps iv)))
      (commitAlloc n d ty mps iv s)) := by
  rw [h.allocate_eq, if_neg (by simp [hf])]
  rfl

variable {mps iv} {t : State}

/-- Only an allocation that is offered completes. -/
theorem allocOffered_of_next (h : allocate d ty opt mps iv s = .next t) : ∃ n, AllocOffered s d ty opt n := by
  rw [allocate] at h
  split at h
  · cases h
  split at h
  · cases h
  split at h
  · cases h
  rename_i notStarted notEnabled notIsochronous
  obtain ⟨n, endpoint, -⟩ := withEndpoint_eq_next.mp h
  exact ⟨n, notStarted, by simpa using notEnabled, notIsochronous, endpoint⟩

/-- Once it has completed, with the error or without, another allocation of the endpoint is offered and fails. -/
theorem AllocOffered.fails_again (h : AllocOffered s d ty opt n) (ht : allocate d ty opt mps iv s = .next t) :
    AllocOffered t d ty opt n ∧ allocFails t n ty = true := by
  cases hf : allocFails s n ty with
  | true =>
    rw [h.allocate_fails mps iv hf] at ht
    cases ht
    exact ⟨h.congr rfl rfl rfl, hf⟩
  | false =>
    rw [h.allocate_succeeds mps iv hf] at ht
    cases ht
    have inUse : allocated (commitAlloc n d ty mps iv s) n = true := by simp [allocated_commitAlloc]
    exact ⟨h.congr rfl rfl rfl, Bool.or_eq_true_iff.mpr (.inr inUse)⟩

end Offered

/-- Settles O27: the tests in their order; an allocation of the pair that completes leaves its number in use, or it had
failed and changed nothing. -/
theorem allocationFails : Obligations.AllocationFails := by
  intro s d ty opt mps iv hl hd
  simp only [exec_allocInstr]
  refine ⟨fun hs => if_pos hs, fun hs he => ?enabled, fun hs he => ⟨?isochronous, fun n ht hn hf => ?fails⟩,
    fun t mps' iv' ht => ?again⟩
  case enabled => rw [allocate, if_neg hs, if_pos he]
  case isochronous => rw [allocate, if_neg hs, if_neg (by simp [he]), if_pos rfl]
  case fails =>
    have h : AllocOffered s d ty opt n := allocOffered_of_table hl hd hs he ht hn
    exact h.allocate_fails mps iv (allocFails_eq_true.mpr hf)
  case again =>
    obtain ⟨n, h⟩ := allocOffered_of_next ht
    obtain ⟨again, hf⟩ := h.fails_again ht
    exact again.allocate_fails mps' iv' hf

/-! ### What a successful allocation leaves (42_allocator.md R202, R204, R205) -/

/-- `EPnCFGR` of endpoint 0: the TX buffer, enabled, whatever was asked for. -/
theorem epCfgrWord_cfgrValue_zero (d : Dir) (ty : EpType) :
    epCfgrWord (cfgrValue Config.Layout.std 0 d ty) = 0x80010008#32 := by
  rw [cfgrValue, if_pos rfl]
  rfl

/-- `EPnCFGR` of the others, field by field: the region of the number, its length, the number, the direction and the
type, not enabled. -/
theorem epCfgrWord_cfgrValue {n : Fin 8} (h : n ≠ 0) (d : Dir) (ty : EpType) :
    epCfgrWord (cfgrValue Config.Layout.std n d ty) =
      BitVec.ofNat 32 (0x088 + 124 * (n.val - 1)) ||| 124#32 <<< 10 ||| BitVec.ofNat 32 n.val <<< 24 |||
        (if d = .inp then 1#32 <<< 28 else 0#32) ||| (ty.code.setWidth 32) <<< 29 := by
  have region : ∀ k : Fin 8, (BitVec.ofNat 10 (0x088 + 124 * (k.val - 1))).setWidth 32 =
      BitVec.ofNat 32 (0x088 + 124 * (k.val - 1)) := by decide
  have number : ∀ k : Fin 8, (epNumber k).setWidth 32 = BitVec.ofNat 32 k.val := by decide
  have direction : bitAt 28 d.isIn = if d = .inp then 1#32 <<< 28 else 0#32 := by cases d <;> rfl
  rw [cfgrValue, if_neg h, bufmap_std h, ← region, ← number, ← direction]
  simp only [epCfgrWord, epCfgrImage, fieldAt, Config.RegMap.std, BitVec.shiftLeft_zero]
  exact BitVec.or_zero

/-- The bits set in the bitmap, at their positions (10_state.md R35). -/
theorem allocBits_eq (n : Fin 8) (d : Dir) :
    allocBits n d = if n = 0 then 3#16 else 1#16 <<< (2 * n.val + if d = .inp then 1 else 0) := by
  cases d <;> rfl

section Commit

variable (n : Fin 8) (d : Dir) (ty : EpType) (mps : Nat) (iv : Byte) (s : State)

theorem commitAlloc_cfgr :
    (commitAlloc n d ty mps iv s).hw.eps[n].cfgr = cfgrValue s.cfg.layout n d ty :=
  (writeCfgr_eq n (cfgrValue s.cfg.layout n d ty) s).1

theorem racesEnd_commitAlloc : RacesEnd s (commitAlloc n d ty mps iv s) :=
  (racesEnd_updateEp n _ s).congr (.refl s) (.of_eq rfl rfl rfl)

/-- The frame of an allocation: one configuration, the races that end, the bitmap and one record. -/
theorem commitAlloc_eq : commitAlloc n d ty mps iv s = { s with
    hw := { s.hw with
      raced := (commitAlloc n d ty mps iv s).hw.raced
      eps := s.hw.eps.set n { s.hw.eps[n] with cfgr := cfgrValue s.cfg.layout n d ty } }
    fw := { s.fw with
      alloc := s.fw.alloc ||| allocBits n d
      epinfo := s.fw.epinfo.set n (some (newInfo s n d ty mps iv)) } } := by
  rw [← writeCfgr_eps]
  rfl

end Commit

/-- The record at the standard packet limit (30_encoding.md R110(d)). -/
theorem newInfo_std {s : State} (hl : s.cfg.layout = Config.Layout.std) (n : Fin 8) (d : Dir) (ty : EpType) (mps : Nat)
    (iv : Byte) : newInfo s n d ty mps iv = ⟨⟨BitVec.ofNat 4 n.val, d⟩, ty, min mps 64, iv⟩ := by
  rw [newInfo, negotiated, hl]
  rfl

/-- Settles O26: the endpoint's test passes, and what is left is the configuration, the bits and the record. -/
theorem allocationSucceeds : Obligations.AllocationSucceeds := by
  intro s d ty opt mps iv n hl hd hs he ht hn fits out inp
  have h : AllocOffered s d ty opt n := allocOffered_of_table hl hd hs he ht hn
  have free : allocFails s n ty = false := allocFails_eq_false.mpr ⟨fits, allocated_eq_false.mpr ⟨out, inp⟩⟩
  refine ⟨_, (exec_allocInstr d ty opt mps iv s).trans (h.allocate_succeeds mps iv free), ?cfgr, ?bits, ?races, ?frame⟩
  case cfgr =>
    rw [observe_hw, commitAlloc_cfgr, hl]
    split
    · rename_i zero
      subst zero
      exact epCfgrWord_cfgrValue_zero d ty
    · rename_i other
      exact epCfgrWord_cfgrValue other d ty
  case bits => rw [observe_fw, commitAlloc_alloc, allocBits_eq]
  case races => exact (racesEnd_commitAlloc n d ty mps iv s).congr (.refl s) (.of_eq rfl rfl rfl)
  case frame =>
    rw [observe_hw, commitAlloc_cfgr, ← newInfo_std hl]
    exact congrArg (observe _) (commitAlloc_eq n d ty mps iv s)

/-! ### `START` (42_allocator.md R206) -/

theorem startDriver_std {s : State} (hl : s.cfg.layout = Config.Layout.std) (cmps : Nat) :
    startDriver cmps s = { s with fw := { s.fw with ctrlMps := min cmps 64, life := .started } } := by
  rw [startDriver, negotiated, hl]
  rfl

/-- Settles O28: by whether the driver has started, endpoint 0 is allocated, and the bus is enabled. -/
theorem startAllocatesControl : Obligations.StartAllocatesControl := by
  intro s cmps hl
  have start : exec (.start cmps) s = execStart cmps s := rfl
  rw [start]
  refine ⟨fun hs => if_pos hs, fun hs => ⟨fun inUse => ?inUse, fun out inp he => ?enabled, fun out inp he => ?runs⟩⟩
  case inUse =>
    have set : allocated s 0 = true := Bool.or_eq_true_iff.mpr inUse
    rw [execStart, if_neg hs, if_pos set, startDriver_std hl]
    rfl
  case enabled =>
    have free : ¬ allocated s 0 = true := ne_true_of_eq_false (allocated_eq_false.mpr ⟨out, inp⟩)
    rw [execStart, if_neg hs, if_neg free, if_pos he]
  case runs =>
    have free : ¬ allocated s 0 = true := ne_true_of_eq_false (allocated_eq_false.mpr ⟨out, inp⟩)
    have run : execStart cmps s =
        .next (observe (.result .stack .handles) (startDriver cmps (commitAlloc 0 .out .control cmps 0 s))) := by
      rw [execStart, if_neg hs, if_neg free, if_neg (by simp [he])]
      rfl
    refine ⟨_, run, ?_, ?_, ?_⟩
    · rw [observe_hw, startDriver_hw, commitAlloc_cfgr, hl]
      exact epCfgrWord_cfgrValue_zero .out .control
    · exact (racesEnd_commitAlloc 0 .out .control cmps 0 s).congr (.refl s) (.of_eq rfl rfl rfl)
    · have layout : (commitAlloc 0 .out .control cmps 0 s).cfg.layout = Config.Layout.std := hl
      rw [observe_hw, startDriver_hw, commitAlloc_cfgr, startDriver_std layout, commitAlloc_eq, newInfo_std hl]
      rfl

end Sys2Proof.Machine
end

section
/-! PROOFS. The dispatcher family: what the handler leaves (43_dispatcher.md R220, R231(f)), the passes of `POLL` (R222
to R224), `EP_SET_ENABLED` (R227) and `DISABLE` (R229), and the held calls: how they go on and what they exclude. -/

namespace Sys2Proof.Machine

/-! ### What the handler leaves (43_dispatcher.md R220, R231(f)) -/

/-- The pulse writes back the `CSR` it read, without `SRAMRSTC`, whatever falls between its accesses. -/
theorem handlerPulse_csr {gaps : List (List Stim)} {s t : State} (h : handlerPulse gaps s = .next t) :
    t.hw.csr = { s.hw.csr with sramrstc := false } := by
  obtain ⟨a, -, h⟩ := andThen_eq_next.mp h
  obtain ⟨b, -, h⟩ := andThen_eq_next.mp h
  rw [(gap_frame h).csr, writeCsr_csr]

/-- `CSR` after a handler run: `SRAMRSTC` is 0 where a bus reset was seen, and nothing else changes. -/
theorem takeInterrupt_csr {gaps : List (List Stim)} {s t : State} (h : takeInterrupt gaps s = .next t) :
    t.hw.csr = if s.hw.isr.urstif then { s.hw.csr with sramrstc := false } else s.hw.csr := by
  unfold takeInterrupt at h
  obtain ⟨a, ha, h⟩ := andThen_eq_next.mp h
  obtain ⟨b, hb, h⟩ := andThen_eq_next.mp h
  obtain ⟨c, hc, h⟩ := andThen_eq_next.mp h
  obtain ⟨d, hd, h⟩ := andThen_eq_next.mp h
  cases h
  have before : c.hw.csr = s.hw.csr := by
    rw [(gap_frame hc).csr, clearStatus_hw_csr, (gap_frame hb).csr, handlerFlags_hw, (gap_frame ha).csr, handlerRead_hw]
  rw [handlerReturn_hw, ← before]
  split at hd
  · rename_i reset
    rw [if_pos reset, handlerPulse_csr hd]
  · rename_i noReset
    cases hd
    rw [if_neg noReset]

/-- Of the firmware state the frame leaves only the flags, `WAKE` and `HSNAP` to the handler. -/
theorem Frame.fw_eq {s t : State} (f : Frame s t) :
    t.fw = { s.fw with evf := t.fw.evf, wake := t.fw.wake, hsnap := t.fw.hsnap } := by
  show t.fw = ⟨t.fw.evf, t.fw.wake, s.fw.cfgLatch, s.fw.alloc, s.fw.epinfo, s.fw.powerAnnounced, s.fw.phase,
    s.fw.ctrlMps, t.fw.hsnap, s.fw.life, s.fw.busEnabled⟩
  rw [← f.cfgLatch, ← f.alloc, ← f.epinfo, ← f.powerAnnounced, ← f.phase, ← f.ctrlMps, ← f.life, ← f.busEnabled]

/-- Settles O33: the frame of a handler run, and `CSR` by whether the snapshot held a bus reset. -/
theorem handlerFrame : Obligations.HandlerFrame := by
  intro s t h
  obtain ⟨f, -, snapshot⟩ := takeInterrupt_frame h
  have csr := takeInterrupt_csr h
  refine ⟨f.cfg, f.tasks, f.inbox, f.ier, f.fres, f.pdwn, f.dppuen, fun reset => ?_, fun noReset => ?_, f.cfgr,
    f.stalls, f.evf, ?_⟩
  · rw [csr, if_pos reset]
  · rw [csr, if_neg (ne_true_of_eq_false noReset)]
  · rw [← snapshot]
    exact f.fw_eq

/-! ### The passes of `POLL` (43_dispatcher.md R222 to R224) -/

/-- Testing and clearing a flag that is clear changes nothing (20_memory.md R77). -/
theorem tasFlag_of_clear {s : State} {k : Fin 8} (h : flagOf s k = false) : tasFlag k s = s := by
  have same : s.fw.evf.set k false = s.fw.evf := by
    rw [← h]
    exact Vector.set_getElem_self _
  rw [tasFlag, same]

/-- Clearing a flag leaves the others (20_memory.md R77). -/
theorem flagOf_tasFlag (s : State) (k j : Fin 8) : flagOf (tasFlag k s) j = if j = k then false else flagOf s j :=
  tasFlag_get s k j

/-- A bus task that holds nothing holds nothing when it returns. -/
theorem setPollHeld_false {s : State} (h : s.tasks.pollHeld = false) : setPollHeld false s = s := by
  show { s with tasks := { s.tasks with pollHeld := false } } = s
  rw [← h]

/-- `CSR & 0x400` keeps the pull-up enable (43_dispatcher.md R223). -/
theorem csrWord_pullUpOnly (c : Csr) : csrWord (pullUpOnly c) = csrWord c &&& 0x400#32 := by
  apply BitVec.eq_of_getLsbD_eq
  intro i hi
  simp only [csrWord, csrImage, pullUpOnly, Config.RegMap.std, BitVec.getLsbD_or, BitVec.getLsbD_and,
    getLsbD_bitAt _ _ _ hi]
  interval_cases i <;> simp

/-- What the reset slow-path leaves: of `CSR` the pull-up, the interrupt mask, no session (43_dispatcher.md R223). -/
def sessionReset (s : State) : State :=
  dropSession (writeIer (ierOfWord s.cfg.ierMask) (storeCsr (pullUpOnly s.hw.csr) s))

/-- An endpoint flag, 4 to 7, is set. -/
def endpointFlag (s : State) : Bool := flagOf s 4 || flagOf s 5 || flagOf s 6 || flagOf s 7

/-- The flags of start-of-frame and of the endpoints cleared (43_dispatcher.md R222, priorities 4 and 5). -/
def drained (s : State) : State := tasFlag 7 (tasFlag 6 (tasFlag 5 (tasFlag 4 (tasFlag 3 s))))

section Pass

variable {s : State} (hq : Quiet s)
include hq

/-- The slow-path writes no 1 to `SRAMRSTC`, so it resets no buffer (40_register_access.md R131). -/
theorem resetSlowPath_quiet (hl : s.cfg.layout = Config.Layout.std) : resetSlowPath s = .next (sessionReset s) := by
  have stored : writeCsr (pullUpOnly s.hw.csr) s = storeCsr (pullUpOnly s.hw.csr) s := writeCsr_no_reset (.inr rfl)
  have quiet : Quiet (storeCsr (pullUpOnly s.hw.csr) s) := hq
  rw [resetSlowPath, andThen_point_quiet hq, andThen_point_quiet hq, stored, andThen_point_quiet quiet, storeCsr_cfg,
    hl, ierFields_std, andThen_point_quiet (quiet_writeIer quiet _)]
  rfl

/-- One endpoint flag of the drain. -/
theorem drainEndpoints_succ (fuel k : Nat) (any : Bool) : drainEndpoints (fuel + 1) k any s =
    drainEndpoints fuel (k + 1) (any || flagOf s (Fin.ofNat 8 k)) (tasFlag (Fin.ofNat 8 k) s) :=
  andThen_point_quiet hq _

/-- The four endpoint flags, read one after another: none is changed by the clearing of those before it. -/
theorem drainEndpoints_quiet : drainEndpoints 4 4 false (tasFlag 3 s) = .next (endpointFlag s, drained s) := by
  have q3 := quiet_tasFlag hq 3
  have q4 := quiet_tasFlag q3 4
  have q5 := quiet_tasFlag q4 5
  have q6 := quiet_tasFlag q5 6
  have found : ((((false || flagOf (tasFlag 3 s) 4) || flagOf (tasFlag 4 (tasFlag 3 s)) 5) ||
      flagOf (tasFlag 5 (tasFlag 4 (tasFlag 3 s))) 6) || flagOf (tasFlag 6 (tasFlag 5 (tasFlag 4 (tasFlag 3 s)))) 7) =
      endpointFlag s := by
    simp [endpointFlag, flagOf_tasFlag]
  rw [← found]
  exact (drainEndpoints_succ q3 3 4 _).trans ((drainEndpoints_succ q4 2 5 _).trans
    ((drainEndpoints_succ q5 1 6 _).trans (drainEndpoints_succ q6 0 7 _)))

/-- First priority: a bus reset (43_dispatcher.md R223). -/
theorem pollPass_reset (hl : s.cfg.layout = Config.Layout.std) (reset : flagOf s 0 = true) :
    pollPass s = pollReturn .deviceVisible (sessionReset (tasFlag 0 s)) := by
  rw [pollPass, andThen_point_quiet hq, if_pos reset, resetSlowPath_quiet (quiet_tasFlag hq 0) hl, andThen_next]

/-- Second priority: resume. -/
theorem pollPass_resume (noReset : flagOf s 0 = false) (resume : flagOf s 2 = true) :
    pollPass s = pollReturn .resume (tasFlag 2 s) := by
  simp only [pollPass, andThen_point_quiet hq, tasFlag_of_clear noReset, noReset, resume, Bool.false_eq_true, if_false,
    if_true]

/-- Third priority: suspend. -/
theorem pollPass_suspend (noReset : flagOf s 0 = false) (noResume : flagOf s 2 = false) (suspend : flagOf s 1 = true) :
    pollPass s = pollReturn .suspend (tasFlag 1 s) := by
  simp only [pollPass, andThen_point_quiet hq, tasFlag_of_clear noReset, tasFlag_of_clear noResume, noReset, noResume,
    suspend, Bool.false_eq_true, if_false, if_true]

/-- With none of the three the remaining flags are drained together. -/
theorem pollPass_drain (hl : s.cfg.layout = Config.Layout.std) (noReset : flagOf s 0 = false)
    (noResume : flagOf s 2 = false) (noSuspend : flagOf s 1 = false) :
    pollPass s = pollTail (endpointFlag s) (drained s) := by
  have four : min s.cfg.layout.nEpIrq 4 = 4 := by
    rw [hl]
    rfl
  simp only [pollPass, andThen_point_quiet hq, tasFlag_of_clear noReset, tasFlag_of_clear noResume,
    tasFlag_of_clear noSuspend, noReset, noResume, noSuspend, Bool.false_eq_true, if_false, four,
    drainEndpoints_quiet hq, andThen_next]

end Pass

theorem endpointFlag_eq_true {s : State} : endpointFlag s = true ↔ ∃ k : Fin 8, 4 ≤ k.val ∧ flagOf s k = true := by
  constructor
  · intro h
    simp only [endpointFlag, Bool.or_eq_true] at h
    obtain ((h | h) | h) | h := h
    · exact ⟨4, by decide, h⟩
    · exact ⟨5, by decide, h⟩
    · exact ⟨6, by decide, h⟩
    · exact ⟨7, by decide, h⟩
  · rintro ⟨k, hk, h⟩
    have last : ∀ k : Fin 8, 4 ≤ k.val → k = 4 ∨ k = 5 ∨ k = 6 ∨ k = 7 := by decide
    obtain rfl | rfl | rfl | rfl := last k hk <;> simp [endpointFlag, h]

/-- With the first three flags clear the drain leaves no flag set. -/
theorem drained_eq {s : State} (noReset : flagOf s 0 = false) (noSuspend : flagOf s 1 = false)
    (noResume : flagOf s 2 = false) :
    drained s = { s with fw := { s.fw with evf := Vector.replicate 8 false } } := by
  have clear (k : Fin 8) : flagOf (drained s) k = false := by
    simp only [drained, flagOf_tasFlag]
    match k with
    | 0 => exact noReset
    | 1 => exact noSuspend
    | 2 => exact noResume
    | 3 | 4 | 5 | 6 | 7 => rfl
  have none_set : (drained s).fw.evf = Vector.replicate 8 false := by
    apply Vector.ext
    intro i hi
    rw [Vector.getElem_replicate]
    exact clear ⟨i, hi⟩
  rw [← none_set]
  rfl

/-- With no endpoint flag power is announced, once. -/
theorem pollTail_unannounced {s : State} (h : s.fw.powerAnnounced = false) : pollTail false s =
    pollReturn .powerAnnounced { s with fw := { s.fw with powerAnnounced := true } } := by
  unfold pollTail
  rw [h]
  rfl

/-- With nothing left to report `POLL` waits again. -/
theorem pollTail_announced {s : State} (h : s.fw.powerAnnounced = true) :
    pollTail false s = .next (setPollHeld true s) := by
  unfold pollTail
  rw [h]
  rfl

/-- Settles O34: the wake is taken first; then by the first flag that is set, in the order of R222. -/
theorem pollReportsByPriority : Obligations.PollReportsByPriority := by
  intro s hq hl free
  -- Written so, the state is what a pass that returns leaves of the bus task.
  obtain ⟨s, rfl⟩ : ∃ u, s = setPollHeld false u := ⟨s, (setPollHeld_false free).symm⟩
  have quiet : Quiet (consumeWake (setPollHeld false s)) := hq
  refine ⟨fun asleep => if_neg (ne_true_of_eq_false asleep), fun awake => ?_⟩
  have run : exec .poll (setPollHeld false s) = pollPass (consumeWake (setPollHeld false s)) := if_pos awake
  rw [run]
  refine ⟨fun reset => ?_, fun noReset resume => ?_, fun noReset noResume suspend => ?_,
    fun noReset noResume noSuspend => ?_⟩
  · rw [pollPass_reset quiet hl reset]
    exact ⟨_, rfl, csrWord_pullUpOnly s.hw.csr, ierWord_ierOfWord s.cfg.ierMask, rfl⟩
  · rw [pollPass_resume quiet noReset resume]
    rfl
  · rw [pollPass_suspend quiet noReset noResume suspend]
    rfl
  · rw [pollPass_drain quiet hl noReset noResume noSuspend,
      drained_eq (s := consumeWake (setPollHeld false s)) noReset noSuspend noResume]
    refine ⟨fun reported => ?_, fun none => ?_⟩
    · have set : endpointFlag (consumeWake (setPollHeld false s)) = true := endpointFlag_eq_true.mpr reported
      rw [set]
      rfl
    · have clear : endpointFlag (consumeWake (setPollHeld false s)) = false := by
        rw [Bool.eq_false_iff, Ne, endpointFlag_eq_true]
        rintro ⟨k, hk, set⟩
        exact ne_true_of_eq_false (none k hk) set
      rw [clear]
      exact ⟨fun silent => pollTail_unannounced silent, fun announced => pollTail_announced announced⟩

/-! ### `EP_SET_ENABLED` (43_dispatcher.md R227) -/

/-- `EPEN` is bit 31 of `EPnCFGR`, and no other bit depends on it (10_state.md R27). -/
theorem epCfgrWord_withEpen (c : EpCfgr) (b : Bool) : epCfgrWord { c with epen := b } =
    if b then epCfgrWord c ||| 0x80000000#32 else epCfgrWord c &&& 0x7FFFFFFF#32 := by
  apply BitVec.eq_of_getLsbD_eq
  intro i hi
  cases b with
  | true =>
    simp only [epCfgrWord, epCfgrImage, fieldAt, Config.RegMap.std, BitVec.getLsbD_or, getLsbD_bitAt _ _ _ hi, if_true]
    interval_cases i <;> simp
  | false =>
    simp only [epCfgrWord, epCfgrImage, fieldAt, Config.RegMap.std, BitVec.getLsbD_or, BitVec.getLsbD_and,
      getLsbD_bitAt _ _ _ hi, Bool.false_eq_true, if_false]
    interval_cases i <;> simp

/-- A configuration with nothing but `EPEN` is the all-zero one of hardware reset (10_state.md R45). -/
theorem disabled_eq_reset_iff (c : EpCfgr) :
    ({ c with epen := false } : EpCfgr) = EpCfgr.reset ↔ epCfgrWord c &&& 0x7FFFFFFF#32 = 0#32 := by
  have low : epCfgrWord { c with epen := false } = epCfgrWord c &&& 0x7FFFFFFF#32 := epCfgrWord_withEpen c false
  rw [← low]
  refine ⟨fun h => h ▸ rfl, fun h => ?_⟩
  rw [← epCfgrOfWord_epCfgrWord { c with epen := false }, h]
  rfl

/-- Settles O37: the test of the configuration does not look at `EPEN`, and the write moves that bit only. -/
theorem enableBitWritten : Obligations.EnableBitWritten := by
  intro s a n b hq hl ha
  have run : exec (.epSetEnabled a b) s =
      if b && enableRefused n s.hw.eps[n].cfgr s then .refused .badEndpointConfig
      else andThen (point s) fun u => finish .bus .unit (writeCfgr n { s.hw.eps[n].cfgr with epen := b } u) :=
    withEndpoint_of hl ha _
  rw [run]
  refine ⟨fun ok => ?_, fun on empty => ?_⟩
  · have allowed : ¬ (b && enableRefused n s.hw.eps[n].cfgr s) = true := by
      rw [Bool.and_eq_true]
      rintro ⟨on, refused⟩
      obtain ⟨legal, written⟩ := ok on
      rw [enableRefused, Bool.or_eq_true, decide_eq_true_eq, disabled_eq_reset_iff] at refused
      exact ne_true_of_eq_false ((configLegal_iff hl n _).mp legal) (refused.resolve_left written)
    have left : (writeCfgr n { s.hw.eps[n].cfgr with epen := b } s).hw.eps[n].cfgr =
        { s.hw.eps[n].cfgr with epen := b } := (writeCfgr_eq n _ s).1
    rw [if_neg allowed, andThen_point_quiet hq, finish_eq]
    refine ⟨_, rfl, ?_, ?_⟩
    · rw [observe_hw, left, epCfgrWord_withEpen]
    · rw [observe_hw, left, writeCfgr_epen n s b]
      rfl
  · have refused : enableRefused n s.hw.eps[n].cfgr s = true := by
      rw [enableRefused, decide_eq_true ((disabled_eq_reset_iff _).mpr empty), Bool.true_or]
    rw [on, refused]
    rfl

/-! ### `DISABLE` (43_dispatcher.md R229) -/

theorem csrWord_pullUpOff (c : Csr) : csrWord { c with dppuen := false } = csrWord c &&& ~~~0x400#32 := by
  apply BitVec.eq_of_getLsbD_eq
  intro i hi
  simp only [csrWord, csrImage, Config.RegMap.std, BitVec.getLsbD_or, BitVec.getLsbD_and, BitVec.getLsbD_not,
    getLsbD_bitAt _ _ _ hi]
  interval_cases i <;> simp

theorem ierWord_zero : ierWord Ier.zero = 0#32 := by decide

/-- Settles O39: the write of `CSR` leaves `SRAMRSTC` as it was, so it only stores (40_register_access.md R131). -/
theorem disableDetaches : Obligations.DisableDetaches := by
  intro s hq
  have stored : writeCsr { s.hw.csr with dppuen := false } s = storeCsr { s.hw.csr with dppuen := false } s :=
    writeCsr_no_reset (Bool.eq_false_or_eq_true _)
  have quiet : Quiet (storeCsr { s.hw.csr with dppuen := false } s) := hq
  have run : exec .disable s = .next (observe (.result .bus .unit)
      (writeIer Ier.zero (storeCsr { s.hw.csr with dppuen := false } s))) := by
    show execDisable s = _
    rw [execDisable, andThen_point_quiet hq, stored, andThen_point_quiet quiet, finish_eq]
  exact ⟨_, run, csrWord_pullUpOff s.hw.csr, ierWord_zero, rfl, rfl, rfl⟩

/-! ### Held calls (43_dispatcher.md R222, 44_control_pipe.md R269) -/

/-- A pass of `POLL` looks at nothing of the bus task, and says itself what it is held in afterwards. -/
theorem pollPass_setPollHeld {s : State} (hq : Quiet s) (hl : s.cfg.layout = Config.Layout.std) (b : Bool) :
    pollPass (setPollHeld b s) = pollPass s := by
  have hq' : Quiet (setPollHeld b s) := hq
  cases reset : flagOf s 0 with
  | true => rw [pollPass_reset hq hl reset, pollPass_reset hq' hl reset]; rfl
  | false =>
  cases resume : flagOf s 2 with
  | true => rw [pollPass_resume hq reset resume, pollPass_resume hq' reset resume]; rfl
  | false =>
  cases suspend : flagOf s 1 with
  | true => rw [pollPass_suspend hq reset resume suspend, pollPass_suspend hq' reset resume suspend]; rfl
  | false => rw [pollPass_drain hq hl reset resume suspend, pollPass_drain hq' hl reset resume suspend]; rfl

section Control

variable {s : State} (c : Option ControlHeld)

theorem storeEpCsr_setControlHeld (n : Fin 8) (t want : EpCsr) (s : State) :
    storeEpCsr n t want (setControlHeld c s) = setControlHeld c (storeEpCsr n t want s) := by
  unfold storeEpCsr
  rw [setControlHeld_cfg]
  cases s.cfg.epcsrWrite with
  | toggle => dsimp only; split <;> rfl
  | plain => rfl

theorem putByteFw_setControlHeld (a : Nat) (b : Byte) (s : State) :
    putByteFw a b (setControlHeld c s) = setControlHeld c (putByteFw a b s) := by
  have owned : sieOwns (setControlHeld c s) a = sieOwns s a := rfl
  rw [putByteFw, putByteFw, owned]
  cases sieOwns s a <;> rfl

theorem putBytesFw_setControlHeld (a : Nat) (d : List Byte) (s : State) :
    putBytesFw a d (setControlHeld c s) = setControlHeld c (putBytesFw a d s) := by
  induction d generalizing a s with
  | nil => rfl
  | cons b r ih => rw [putBytesFw, putByteFw_setControlHeld, ih, putBytesFw]

theorem drawIf_setControlHeld (racy : Bool) (s : State) :
    drawIf racy (setControlHeld c s) = setControlHeld c (drawIf racy s) := by
  cases racy <;> rfl

variable (hq : Quiet s)
include hq

/-- The pieces of a firmware read do not depend on what the control task is held in, and leave it. -/
theorem readSpans_setControlHeld (l : List (Nat × Nat)) (acc : List Byte) :
    readSpans l acc (setControlHeld c s) =
      andThen (readSpans l acc s) fun r => .next (r.1, setControlHeld c r.2) := by
  induction l generalizing acc s with
  | nil => rfl
  | cons p r ih =>
    obtain ⟨a, k⟩ := p
    have hq' : Quiet (setControlHeld c s) := hq
    have drawn : Quiet (drawIf (fwRacing s a k) s) := (drawIf_sched s _).trans hq
    rw [readSpans, andThen_point_quiet hq', readSpans, andThen_point_quiet hq, ← ih drawn, ← drawIf_setControlHeld]
    rfl

/-- What goes on after a firmware read does not see what the control task is held in, if it does not look itself. -/
theorem andThen_memRead_setControlHeld (a n : Nat) {f : List Byte × State → Res}
    (hf : ∀ bs u, Quiet u → f (bs, setControlHeld c u) = f (bs, u)) :
    andThen (memRead a n (setControlHeld c s)) f = andThen (memRead a n s) f := by
  have same : memRead a n (setControlHeld c s) =
      andThen (memRead a n s) fun r => .next (r.1, setControlHeld c r.2) := by
    unfold memRead
    rw [setControlHeld_cfg]
    split
    · rfl
    · exact readSpans_setControlHeld c hq _ _
  rw [same]
  cases e : memRead a n s with
  | next r => exact hf r.1 r.2 ((Reach.memRead (i := none) .refl (fun _ => hq) e).quiet (fun _ => hq) rfl)
  | fault _ => rfl
  | refused _ => rfl

/-- So for what goes on after a firmware write. -/
theorem andThen_memWrite_setControlHeld (a : Nat) (d : List Byte) {f : State → Res}
    (hf : ∀ u, Quiet u → f (setControlHeld c u) = f u) :
    andThen (memWrite a d (setControlHeld c s)) f = andThen (memWrite a d s) f := by
  have hq' : Quiet (setControlHeld c s) := hq
  by_cases fits : a + d.length ≤ s.cfg.layout.sramSize
  · rw [memWrite_quiet hq fits, memWrite_quiet hq' fits, putBytesFw_setControlHeld]
    exact hf _ (quiet_sameBut hq (putBytesFw_sameBut s a d))
  · have outside : s.cfg.layout.sramSize < a + d.length := Nat.lt_of_not_le fits
    rw [memWrite, memWrite, setControlHeld_cfg, if_pos outside, if_pos outside]

/-- The rest of `CP_SETUP` returns, so it leaves the control task held in nothing. -/
theorem setupDecoded_setControlHeld (pkt : List Byte) :
    setupDecoded pkt (setControlHeld c s) = setupDecoded pkt s := by
  have hq' : Quiet (setControlHeld c s) := hq
  have latch (u : State) : setControlHeld none (setLatch (setControlHeld c u)) = setControlHeld none (setLatch u) := by
    cases h : u.fw.cfgLatch with
    | true => rw [setLatch_of_set h, setLatch_of_set (s := setControlHeld c u) h]; rfl
    | false => rw [setLatch_of_clear h, setLatch_of_clear (s := setControlHeld c u) h]; rfl
  rw [setupDecoded_quiet hq, setupDecoded_quiet hq', setupResult, setupResult]
  split
  · exact congrArg (fun u => Host.Outcome.next (observe _ u)) (latch (setPhase .setupReceived s))
  · rfl

/-- So does the rest of `CP_DATA_OUT`. -/
theorem dataOutTake_setControlHeld (len : Nat) (t : EpCsr) :
    dataOutTake len t (setControlHeld c s) = dataOutTake len t s := by
  refine andThen_memRead_setControlHeld c hq _ _ fun bs u hu => ?_
  have hu' : Quiet (setControlHeld c u) := hu
  rw [andThen_point_quiet hu, andThen_point_quiet hu', storeEpCsr_setControlHeld]
  rfl

/-- And the rest of `CP_DATA_IN`. -/
theorem dataInPut_setControlHeld (data : List Byte) (last : Bool) (t : EpCsr) :
    dataInPut data last t (setControlHeld c s) = dataInPut data last t s := by
  refine andThen_memWrite_setControlHeld c hq _ _ fun u hu => ?_
  have hu' : Quiet (setControlHeld c u) := hu
  have stored (v : BitVec 7) : Quiet (setControlHeld c (writeTxcnt 0 v u)) := quiet_writeTxcnt hu 0 v
  rw [andThen_point_quiet hu, andThen_point_quiet hu', andThen_point_quiet (quiet_writeTxcnt hu _ _)]
  refine (andThen_point_quiet (stored _) _).trans ?_
  rw [storeEpCsr_setControlHeld]
  rfl

/-- A check of `CP_SETUP` that finds the flag goes on alike from any number of checks left. -/
theorem setupCheck_setControlHeld (j k : Nat) (flagged : flagOf s 4 = true) :
    setupCheck j (setControlHeld c s) = setupCheck k s := by
  have goesOn (left : Nat) (u : State) (h : flagOf u 4 = true) : setupCheck left u =
      andThen (memRead u.cfg.layout.ep0SetupOff u.cfg.layout.ep0SetupLen (tasFlag 4 u)) fun r =>
        setupDecoded r.1 r.2 := if_pos h
  rw [goesOn j (setControlHeld c s) flagged, goesOn k s flagged]
  exact andThen_memRead_setControlHeld c (quiet_tasFlag hq 4) _ _ fun bs u hu => setupDecoded_setControlHeld c hu bs

/-- So does a check of `CP_DATA_OUT` that finds a packet. -/
theorem dataOutCheck_setControlHeld (j k len : Nat) (waiting : s.hw.eps[(0 : Fin 8)].csr.nakrx = true)
    (free : s.hw.eps[(0 : Fin 8)].csr.stlrx = false) :
    dataOutCheck j len (setControlHeld c s) = dataOutCheck k len s := by
  have hq' : Quiet (setControlHeld c s) := hq
  have check : (s.hw.eps[(0 : Fin 8)].csr.nakrx && !s.hw.eps[(0 : Fin 8)].csr.stlrx) = true := by
    rw [waiting, free]
    rfl
  rw [dataOutCheck, dataOutCheck, setControlHeld_hw, if_pos check, if_pos check, andThen_point_quiet hq,
    andThen_point_quiet hq']
  exact dataOutTake_setControlHeld c hq len _

/-- And one of `CP_DATA_IN` that finds the TX buffer ready. -/
theorem dataInCheck_setControlHeld (j k : Nat) (data : List Byte) (last : Bool)
    (ready : s.hw.eps[(0 : Fin 8)].csr.naktx = true) (free : s.hw.eps[(0 : Fin 8)].csr.stltx = false) :
    dataInCheck j data last (setControlHeld c s) = dataInCheck k data last s := by
  have check : (s.hw.eps[(0 : Fin 8)].csr.naktx && !s.hw.eps[(0 : Fin 8)].csr.stltx) = true := by
    rw [ready, free]
    rfl
  rw [dataInCheck, dataInCheck, setControlHeld_hw, if_pos check, if_pos check]
  exact dataInPut_setControlHeld c hq data last _

end Control

/-- Settles O47: a held call goes on past its check where the fresh one does; neither looks at what its task is held in,
and both leave that the same. -/
theorem heldCallGoesOnAsFresh : Obligations.HeldCallGoesOnAsFresh := by
  intro s k hq hl
  refine ⟨fun held awake => ?poll, fun held flagged => ?setup, fun len first last held phase waiting free => ?dataOut,
    fun data first last held ready free => ?dataIn⟩
  case poll =>
    have resumed : resumeTask .bus s = pollPass (consumeWake s) := if_pos (by rw [held, awake]; rfl)
    have fresh : exec .poll (setPollHeld false s) = pollPass (setPollHeld false (consumeWake s)) := if_pos awake
    exact resumed.trans ((pollPass_setPollHeld (quiet_consumeWake hq) hl false).symm.trans fresh.symm)
  all_goals
    show resumeControl s = _
    rw [resumeControl, held]
  case setup => exact (setupCheck_setControlHeld none hq s.cfg.setupMoreChecks k flagged).symm
  case dataOut =>
    have same : setPhase .dataOut s = s := by
      rw [setPhase, ← phase]
    have fresh : exec (.cpDataOut len first last) (setControlHeld none s) =
        dataOutCheck s.cfg.ctrlMoreChecks len (setControlHeld none (setPhase .dataOut s)) := rfl
    rw [same, dataOutCheck_setControlHeld none hq _ k len waiting free] at fresh
    exact fresh.symm
  case dataIn => exact (dataInCheck_setControlHeld none hq s.cfg.ctrlMoreChecks k data last ready free).symm

/-! ### What a held call excludes (43_dispatcher.md R222, 44_control_pipe.md header, 45_endpoint_io.md R293) -/

theorem whenControlFree_held {s : State} (h : s.tasks.control ≠ none) (r : Res) :
    whenControlFree s r = .refused .taskBusy := by
  unfold whenControlFree
  split
  · rfl
  · rename_i free
    exact absurd free h

/-- A handle inside its contract (45_endpoint_io.md R293). -/
theorem handleSize_of_record {s : State} {n : Fin 8} {i : EpInfo} {d : Dir} (hn : n ≠ 0) (hi : s.fw.epinfo[n] = some i)
    (hd : i.address.dir = d) : handleSize n d d s = some i.maxPacketSize := by
  rw [handleSize, if_neg hn, hi]
  exact if_pos ⟨rfl, hd⟩

/-- Settles O60: each call meets the test of its own task before it does anything. -/
theorem busyTasksRefuse : Obligations.BusyTasksRefuse := by
  intro s hl
  refine ⟨fun held => if_pos held, fun held => ?_, fun n held => ⟨fun d => ?_, fun i hn hi => ⟨?_, ?_⟩⟩⟩
  · have busy := whenControlFree_held held
    exact ⟨busy _, busy _, busy _, fun _ => busy _, fun _ _ _ => busy _, fun _ _ _ => busy _⟩
  · exact (withEndpoint_of hl rfl _).trans (if_pos held)
  · intro out len
    refine (withEndpoint_of hl rfl _).trans ?_
    rw [handleSize_of_record hn hi out]
    exact if_pos held
  · intro inp data
    refine (withEndpoint_of hl rfl _).trans ?_
    rw [handleSize_of_record hn hi inp]
    exact if_pos held

end Sys2Proof.Machine
end

section
/-! PROOFS. The control-pipe family: the bounded polls and their soft timeouts (44_control_pipe.md R262, R264, R265,
R269), `CP_DATA_OUT` (R264), and the status stage (R266 to R268). -/

namespace Sys2Proof.Machine

/-- Settles O44: the operation only returns its result. -/
theorem controlSizeReturned : Obligations.ControlSizeReturned := by
  intro s
  exact finish_eq .control (.number s.fw.ctrlMps) s

/-- A control task that is not held in anything returns without a change of its own. -/
theorem controlReturn_free {s : State} (h : s.tasks.control = none) (r : Result) :
    controlReturn r s = .next (observe (.result .control r) s) := by
  rw [controlReturn, setControlHeld_none h, finish_eq]

/-! ### Checks that fail (44_control_pipe.md R262, R264, R265) -/

section FailedCheck

variable {s : State}

theorem setupCheck_unflagged (h : flagOf s 4 = false) (left : Nat) :
    setupCheck left s = .next (setControlHeld (some (.setup left)) s) :=
  if_neg (ne_true_of_eq_false h)

/-- The data calls go on only where the NAK bit is set and the stall bit is not. -/
theorem not_ready {nak stall : Bool} (h : nak = false ∨ stall = true) : ¬ (nak && !stall) = true := by
  rcases h with rfl | rfl <;> simp

theorem dataOutCheck_notReady
    (h : s.hw.eps[(0 : Fin 8)].csr.nakrx = false ∨ s.hw.eps[(0 : Fin 8)].csr.stlrx = true) (left len : Nat) :
    dataOutCheck left len s = .next (setControlHeld (some (.dataOut left len)) s) :=
  if_neg (not_ready h)

theorem dataInCheck_notReady
    (h : s.hw.eps[(0 : Fin 8)].csr.naktx = false ∨ s.hw.eps[(0 : Fin 8)].csr.stltx = true) (left : Nat)
    (data : List Byte) (last : Bool) :
    dataInCheck left data last s = .next (setControlHeld (some (.dataIn left data last)) s) :=
  if_neg (not_ready h)

end FailedCheck

/-! ### A bounded poll, said once for the three of them (44_control_pipe.md R269) -/

theorem setControlHeld_same {s : State} {c : Option ControlHeld} (h : s.tasks.control = c) :
    setControlHeld c s = s := by
  subst h
  rfl

/-- A held call, `held i` with `i` checks left, is a poll whose condition fails in `s`: each check uses up one, and the
`yield` after the last returns and leaves `t`. -/
structure PollFails (held : Nat → ControlHeld) (s t : State) : Prop where
  check : ∀ i, resumeControl (setControlHeld (some (held (i + 1))) s) = .next (setControlHeld (some (held i)) s)
  timeout : resumeControl (setControlHeld (some (held 0)) s) = .next t

namespace PollFails

section

variable {held : Nat → ControlHeld} {s t : State} (h : PollFails held s t)
include h

theorem resume_held {j k : Nat} (hj : j ≤ k) :
    resumeControlTimes j (setControlHeld (some (held k)) s) = .next (setControlHeld (some (held (k - j))) s) := by
  induction j generalizing k with
  | zero => rfl
  | succ j ih =>
    obtain ⟨k, rfl⟩ := Nat.exists_eq_add_one_of_ne_zero (Nat.ne_zero_of_lt hj)
    rw [resumeControlTimes, resumeTask, h.check, andThen_next, ih (Nat.le_of_succ_le_succ hj), Nat.succ_sub_succ]

theorem resume_timeout (k : Nat) : resumeControlTimes (k + 1) (setControlHeld (some (held k)) s) = .next t := by
  induction k with
  | zero => rw [resumeControlTimes, resumeTask, h.timeout, andThen_next, resumeControlTimes]
  | succ k ih => rw [resumeControlTimes, resumeTask, h.check, andThen_next, ih]

/-- A call held with `k` checks left uses them up one by one and then times out. -/
theorem timesOut {k : Nat} (hs : s.tasks.control = some (held k)) :
    (∀ j ≤ k, resumeControlTimes j s = .next (setControlHeld (some (held (k - j))) s)) ∧
      resumeControlTimes (k + 1) s = .next t := by
  have start := setControlHeld_same hs
  refine ⟨fun j hj => ?_, ?_⟩
  · exact start ▸ h.resume_held hj
  · exact start ▸ h.resume_timeout k

end

variable {s : State}

/-- `CP_SETUP` without the EP0 flag times out with eight bytes 0 (44_control_pipe.md R262). -/
theorem setup (hl : s.cfg.layout = Config.Layout.std) (h : flagOf s 4 = false) :
    PollFails .setup s (observe (.result .control (.bytes (List.replicate 8 0#8))) (setControlHeld none s)) where
  check i := setupCheck_unflagged (s := setControlHeld (some (.setup (i + 1))) s) h i
  timeout := by
    show controlReturn (.bytes (zeroPacket s.cfg.layout)) s = _
    rw [hl]
    rfl

/-- `CP_DATA_OUT` without a packet times out with no byte (44_control_pipe.md R264). -/
theorem dataOut (h : s.hw.eps[(0 : Fin 8)].csr.nakrx = false ∨ s.hw.eps[(0 : Fin 8)].csr.stlrx = true) (len : Nat) :
    PollFails (.dataOut · len) s (observe (.result .control (.bytes [])) (setControlHeld none s)) where
  check i := dataOutCheck_notReady (s := setControlHeld (some (.dataOut (i + 1) len)) s) h i len
  timeout := rfl

/-- `CP_DATA_IN` without a free TX buffer times out and moves the phase (44_control_pipe.md R265). -/
theorem dataIn (h : s.hw.eps[(0 : Fin 8)].csr.naktx = false ∨ s.hw.eps[(0 : Fin 8)].csr.stltx = true)
    (data : List Byte) (last : Bool) : PollFails (.dataIn · data last) s
      (observe (.result .control .unit) (setControlHeld none (setPhase (phaseAfterIn last) s))) where
  check i := dataInCheck_notReady (s := setControlHeld (some (.dataIn (i + 1) data last)) s) h i data last
  timeout := rfl

end PollFails

/-- Settles O46: each of the three polls fails its first check and every later one. -/
theorem boundedPollsTimeOut : Obligations.BoundedPollsTimeOut := by
  intro s k _ hl
  refine ⟨fun clear => ⟨fun free => ?_, (PollFails.setup hl clear).timesOut⟩,
    fun wait len first last => ⟨fun free => ?_, (PollFails.dataOut wait len).timesOut⟩,
    fun wait data first last => ⟨fun free => ?_, (PollFails.dataIn wait data last).timesOut⟩⟩
  · exact (whenControlFree_none free _).trans (setupCheck_unflagged clear _)
  · exact (whenControlFree_none free _).trans (dataOutCheck_notReady (s := setPhase .dataOut s) wait _ len)
  · exact (whenControlFree_none free _).trans (dataInCheck_notReady wait _ data last)

/-! ### `CP_DATA_OUT` with a packet waiting (44_control_pipe.md R264) -/

/-- Endpoint 0 once its RX buffer is handed back to the SIE. -/
def handedBack (e : Endpoint) : Endpoint := { e with csr := { e.csr with nakrx := false } }

/-- Where nothing races the packet is read whole, and the handover changes `NAKRX` of the bits that the check read. -/
theorem dataOutTake_quiet {s : State} {len k : Nat} (hq : Quiet s) (hl : s.cfg.layout = Config.Layout.std)
    (hk : k = min (min len s.hw.eps[(0 : Fin 8)].rxcnt.toNat) 64) (hu : Unraced s 0x048 k) :
    dataOutTake len s.hw.eps[(0 : Fin 8)].csr s =
      controlReturn (.bytes (storedBytes s 0x048 k)) (setEp 0 handedBack s) := by
  have off : s.cfg.layout.ep0RxOff = 0x048 := by rw [hl]; rfl
  have cap : s.cfg.layout.ep0RxLen = 64 := by rw [hl]; rfl
  have fits : 0x048 + k ≤ s.cfg.layout.sramSize := by
    rw [hl]
    show 0x048 + k ≤ 1024
    omega
  have handover := storeEpCsr_fresh (n := 0) (s := s)
    (want := { s.hw.eps[(0 : Fin 8)].csr with nakrx := false }) id (fun _ => rfl)
  simp only [dataOutTake, off, cap]
  rw [← hk, memRead_quiet hq fits hu, andThen_next, andThen_point_quiet hq]
  exact congrArg (controlReturn _) handover

/-- Settles O48: the first check finds the packet. -/
theorem dataOutTakesPacket : Obligations.DataOutTakesPacket := by
  intro s len k first last hq hl hc waiting unstalled hk hu
  have ready : (s.hw.eps[(0 : Fin 8)].csr.nakrx && !s.hw.eps[(0 : Fin 8)].csr.stlrx) = true := by
    rw [waiting, unstalled]
    rfl
  have quiet : Quiet (setPhase .dataOut s) := quiet_setPhase hq .dataOut
  calc exec (.cpDataOut len first last) s
    _ = dataOutCheck s.cfg.ctrlMoreChecks len (setPhase .dataOut s) := whenControlFree_none hc _
    _ = andThen (point (setPhase .dataOut s)) (dataOutTake len s.hw.eps[(0 : Fin 8)].csr) := if_pos ready
    _ = dataOutTake len s.hw.eps[(0 : Fin 8)].csr (setPhase .dataOut s) := andThen_point_quiet quiet _
    _ = controlReturn (.bytes (storedBytes s 0x048 k)) (setEp 0 handedBack (setPhase .dataOut s)) :=
      dataOutTake_quiet quiet hl hk hu
    _ = _ := controlReturn_free (s := setEp 0 handedBack (setPhase .dataOut s)) hc _

/-! ### The status stage (44_control_pipe.md R266 to R268) -/

/-- The phase that the status stage ends in does not depend on the one before it. -/
theorem setPhase_statusPhase (p : Phase) (s : State) : setPhase p (statusPhase s) = setPhase p s := by
  unfold statusPhase
  split <;> rfl

/-- The end of the status stage, with endpoint 0 changed by `f`. -/
theorem statusReturn {s : State} (hc : s.tasks.control = none) (f : Endpoint → Endpoint) :
    controlReturn .unit (setPhase .idle (setEp 0 f (statusPhase s))) =
      .next (observe (.result .control .unit) (setEp 0 f (setPhase .idle s))) := by
  have free : (setPhase .idle (setEp 0 f (statusPhase s))).tasks.control = none := by
    rw [setPhase_tasks, setEp_tasks, statusPhase_tasks, hc]
  have idle : setPhase .idle (setEp 0 f (statusPhase s)) = setEp 0 f (setPhase .idle (statusPhase s)) := rfl
  rw [controlReturn_free free, idle, setPhase_statusPhase]

/-- Endpoint 0 once a transfer is accepted: no stall bit, and the zero-length packet under `ACCEPT_ARMS_STATUS`. -/
def acceptedEndpoint (arms : Bool) (e : Endpoint) : Endpoint :=
  if arms then
    { e with
      txcnt := 0
      txcntOld := if e.csr.naktx then [] else e.txcnt :: e.txcntOld
      csr := { e.csr with stltx := false, stlrx := false, naktx := false } }
  else { e with csr := { e.csr with stltx := false, stlrx := false } }

/-- The write of the count leaves `EP0CSR`, so the write after it changes the bits that were read before both. -/
theorem acceptSteps_quiet {s : State} (hq : Quiet s) : acceptSteps s =
    controlReturn .unit (setPhase .idle (setEp 0 (acceptedEndpoint s.cfg.acceptArmsStatus) s)) := by
  rw [acceptSteps, andThen_point_quiet hq]
  cases s.cfg.acceptArmsStatus with
  | true =>
    have csr : (writeTxcnt 0 0 s).hw.eps[(0 : Fin 8).val].csr = s.hw.eps[(0 : Fin 8)].csr := by
      rw [show (writeTxcnt 0 0 s).hw.eps[(0 : Fin 8).val] = _ from writeTxcnt_self 0 0 s]
    have armed := changeEpCsr_fresh (n := 0) (s := writeTxcnt 0 0 s)
      (want := { s.hw.eps[(0 : Fin 8)].csr with stltx := false, stlrx := false, naktx := false })
      (fun _ => rfl) (fun h => (congrArg EpCsr.nakrx csr).symm.trans h)
    rw [csr, writeTxcnt, setEp_setEp] at armed
    rw [if_pos rfl, andThen_point_quiet (quiet_writeTxcnt hq 0 0)]
    exact congrArg (fun u => controlReturn .unit (setPhase .idle u)) armed
  | false =>
    have cleared := changeEpCsr_fresh (n := 0) (s := s)
      (want := { s.hw.eps[(0 : Fin 8)].csr with stltx := false, stlrx := false }) id id
    rw [if_neg Bool.false_ne_true]
    exact congrArg (fun u => controlReturn .unit (setPhase .idle u)) cleared

/-- What an undisturbed accept leaves, whatever phase it was called in. -/
theorem acceptSteps_statusPhase {s : State} (hq : Quiet s) (hc : s.tasks.control = none) :
    acceptSteps (statusPhase s) = .next (observe (.result .control .unit)
      (setEp 0 (acceptedEndpoint s.cfg.acceptArmsStatus) (setPhase .idle s))) := by
  rw [acceptSteps_quiet (quiet_statusPhase hq), statusPhase_cfg, statusReturn hc]

/-- Settles O50: the address, where there is one, is written before the steps that both operations share. -/
theorem acceptArmsStatus : Obligations.AcceptArmsStatus := by
  rintro s addr e hq hc rfl
  have addressFirst : writeDevar addr (statusPhase s) = statusPhase (writeDevar addr s) :=
    apply_ite (writeDevar addr) (s.fw.phase = .setupReceived) (setPhase .statusOnly s) s
  constructor
  · exact (whenControlFree_none hc _).trans (acceptSteps_statusPhase hq hc)
  · calc exec (.cpAcceptSetAddress addr) s
      _ = andThen (point (writeDevar addr (statusPhase s))) acceptSteps := whenControlFree_none hc _
      _ = acceptSteps (writeDevar addr (statusPhase s)) :=
        andThen_point_quiet (quiet_writeDevar (quiet_statusPhase hq) addr) _
      _ = acceptSteps (statusPhase (writeDevar addr s)) := by rw [addressFirst]
      _ = _ := acceptSteps_statusPhase (quiet_writeDevar hq addr) hc

/-- Endpoint 0 once a transfer is rejected. -/
def rejectedEndpoint (e : Endpoint) : Endpoint := { e with csr := { e.csr with stltx := true, stlrx := true } }

/-- Settles O51: one write of the two stall bits, which takes no buffer from the SIE. -/
theorem rejectStallsControl : Obligations.RejectStallsControl := by
  intro s hq hc
  have stalled : changeEpCsr 0 s.hw.eps[(0 : Fin 8)].csr
      { s.hw.eps[(0 : Fin 8)].csr with stltx := true, stlrx := true } (statusPhase s) =
      setEp 0 rejectedEndpoint (statusPhase s) := by
    have fresh := changeEpCsr_fresh (n := 0) (s := statusPhase s)
      (want := { (statusPhase s).hw.eps[(0 : Fin 8)].csr with stltx := true, stlrx := true }) id id
    rw [← statusPhase_hw s]
    exact fresh
  calc exec .cpReject s
    _ = andThen (point (statusPhase s)) fun u => controlReturn .unit (setPhase .idle (changeEpCsr 0
          s.hw.eps[(0 : Fin 8)].csr { s.hw.eps[(0 : Fin 8)].csr with stltx := true, stlrx := true } u)) :=
      whenControlFree_none hc _
    _ = controlReturn .unit (setPhase .idle (setEp 0 rejectedEndpoint (statusPhase s))) := by
      rw [andThen_point_quiet (quiet_statusPhase hq), stalled]
    _ = .next (observe (.result .control .unit) (setEp 0 rejectedEndpoint (setPhase .idle s))) := statusReturn hc _

end Sys2Proof.Machine
end

section
/-! PROOFS. The endpoint I/O family: `EP_WAIT_ENABLED` and the held calls (45_endpoint_io.md R290, R292), the contract of
the handles and `BufferOverflow` (R291 to R293), `EP_READ` (R291), and `EP_WRITE` up to its hold (R292). -/

namespace Sys2Proof.Machine

/-! ### Calls held in an endpoint task (45_endpoint_io.md R290, R292) -/

theorem setEpHeld_same {s : State} {n : Fin 8} {h : EpHeld} (held : s.tasks.eps[n] = h) : setEpHeld n h s = s := by
  have same : s.tasks.eps.set n h = s.tasks.eps := by
    rw [← held]
    exact Vector.set_getElem_self _
  rw [setEpHeld, same]

/-- With the latch clear a waiter waits (again). -/
theorem waitAwait_clear {s : State} (n : Fin 8) (clear : s.fw.cfgLatch = false) :
    waitAwait n s = setEpHeld n .waitEnabled s :=
  if_neg (ne_true_of_eq_false clear)

/-- A waiter re-reads the latch, woken or not (70_reset_and_hazards.md R357). -/
theorem resumeEndpoint_waiting {s : State} {n : Fin 8}
    (held : s.tasks.eps[n] = .waitEnabled ∨ s.tasks.eps[n] = .released) :
    resumeEndpoint n s = .next (waitAwait n s) := by
  rw [resumeEndpoint]
  obtain held | held := held <;> rw [held]

/-- A held `EP_WRITE` that takes a wake checks `NAKTX` (45_endpoint_io.md R292). -/
theorem writeAwait_awake {s : State} (n : Fin 8) (hq : Quiet s) (awake : s.fw.wake = true) : writeAwait n s =
    if s.hw.eps[n].csr.naktx then finish (.endpoint n) .unit (setEpHeld n .idle (consumeWake s))
    else .next (consumeWake s) :=
  (if_pos awake).trans (andThen_point_quiet (quiet_consumeWake hq) _)

/-- Settles O52: by what the endpoint's task is held in, then by the latch, or by the wake and `NAKTX`. -/
theorem endpointWaits : Obligations.EndpointWaits := by
  intro s a n hl ha
  have call : exec (.epWaitEnabled a) s =
      if s.tasks.eps[n] ≠ .idle then .refused .taskBusy
      else if s.fw.cfgLatch then finish (.endpoint n) .unit s
      else .next (setEpHeld n .waitEnabled s) :=
    withEndpoint_of hl ha _
  refine ⟨fun free set => ?_, fun free clear => ?_, fun held clear => ?_, fun held clear => ?_, fun held set => ?_,
    fun hq held => ?_⟩
  · rw [call, if_neg (not_not_intro free), if_pos set]
    rfl
  · rw [call, if_neg (not_not_intro free), if_neg (ne_true_of_eq_false clear)]
    rfl
  · rw [resumeTask, resumeEndpoint_waiting (.inl held), waitAwait_clear n clear, setEpHeld_same held]
  · rw [resumeTask, resumeEndpoint_waiting (.inr held), waitAwait_clear n clear]
    rfl
  · rw [resumeTask, resumeEndpoint_waiting held, waitAwait, if_pos set]
    rfl
  · have resumed : resumeTask (.endpoint n) s = writeAwait n s := by
      rw [resumeTask, resumeEndpoint, held]
    rw [resumed]
    refine ⟨fun asleep => if_neg (ne_true_of_eq_false asleep), fun awake armed => ?_, fun awake sent => ?_⟩
    · rw [writeAwait_awake n hq awake, if_neg (ne_true_of_eq_false armed)]
      rfl
    · rw [writeAwait_awake n hq awake, if_pos sent]
      rfl

/-! ### The contract of the handles (45_endpoint_io.md R293) -/

/-- Outside the contract a handle has no size: endpoint 0, the other direction, no record, or a record of the other
direction. -/
theorem handleSize_eq_none {s : State} {n : Fin 8} {d want : Dir}
    (h : n = 0 ∨ d ≠ want ∨ ∀ i, s.fw.epinfo[n] = some i → i.address.dir ≠ want) :
    handleSize n d want s = none := by
  unfold handleSize
  split
  · rfl
  · rename_i hn
    split
    · rfl
    · rename_i i hi
      refine if_neg fun ⟨hd, hw⟩ => ?_
      obtain h | h | h := h
      · exact hn h
      · exact h hd
      · exact h i hi hw

section Transfers

variable {s : State} (hl : s.cfg.layout = Config.Layout.std) {n : Fin 8}
include hl

theorem exec_epRead_refused {d : Dir} (h : handleSize n d .out s = none) (len : Nat) :
    exec (.epRead ⟨BitVec.ofNat 4 n.val, d⟩ len) s = .refused .handleContract := by
  refine (withEndpoint_of hl rfl _).trans ?_
  rw [h]

theorem exec_epWrite_refused {d : Dir} (h : handleSize n d .inp s = none) (data : List Byte) :
    exec (.epWrite ⟨BitVec.ofNat 4 n.val, d⟩ data) s = .refused .handleContract := by
  refine (withEndpoint_of hl rfl _).trans ?_
  rw [h]

variable {i : EpInfo} (hn : n ≠ 0) (hi : s.fw.epinfo[n] = some i) (free : s.tasks.eps[n] = .idle)
include hn hi free

/-- `EP_READ` inside its contract: the length, then whether a packet waits (45_endpoint_io.md R291). -/
theorem exec_epRead_allocated (out : i.address.dir = .out) (len : Nat) :
    exec (.epRead ⟨BitVec.ofNat 4 n.val, .out⟩ len) s =
      if i.maxPacketSize < len then raiseError (.endpoint n) .bufferOverflow s
      else if !s.hw.eps[n].csr.nakrx || s.hw.eps[n].csr.stlrx then finish (.endpoint n) (.bytes []) s
      else andThen (point s) (readPacket n len s.hw.eps[n].csr) := by
  refine (withEndpoint_of hl rfl _).trans ?_
  rw [handleSize_of_record hn hi out]
  exact if_neg (not_not_intro free)

/-- `EP_WRITE` inside its contract: the length, then the packet (45_endpoint_io.md R292). -/
theorem exec_epWrite_allocated (inp : i.address.dir = .inp) (data : List Byte) :
    exec (.epWrite ⟨BitVec.ofNat 4 n.val, .inp⟩ data) s =
      if i.maxPacketSize < data.length then raiseError (.endpoint n) .bufferOverflow s else writePacket n data s := by
  refine (withEndpoint_of hl rfl _).trans ?_
  rw [handleSize_of_record hn hi inp]
  exact if_neg (not_not_intro free)

end Transfers

/-- Settles O54: a handle outside the contract has no size, and inside it the length is the first test. -/
theorem transferChecksComeFirst : Obligations.TransferChecksComeFirst := by
  intro s n len data hl
  refine ⟨fun i hn hi free => ⟨fun out long => ?_, fun inp long => ?_⟩, fun unusable d => ?_,
    fun i hi => ?_, ?_, ?_⟩
  · rw [exec_epRead_allocated hl hn hi free out, if_pos long]
    rfl
  · rw [exec_epWrite_allocated hl hn hi free inp, if_pos long]
    rfl
  · have noSize (want : Dir) : handleSize n d want s = none := by
      refine handleSize_eq_none (unusable.imp id fun absent => .inr fun i hi => ?_)
      rw [absent] at hi
      cases hi
    exact ⟨exec_epRead_refused hl (noSize .out) len, exec_epWrite_refused hl (noSize .inp) data⟩
  · have noSize (want : Dir) (other : i.address.dir ≠ want) : handleSize n want want s = none :=
      handleSize_eq_none (.inr (.inr fun j hj => Option.some.inj (hi.symm.trans hj) ▸ other))
    exact ⟨fun inp => exec_epRead_refused hl (noSize .out (by rw [inp]; decide)) len,
      fun out => exec_epWrite_refused hl (noSize .inp (by rw [out]; decide)) data⟩
  · exact exec_epRead_refused hl (handleSize_eq_none (.inr (.inl (by decide)))) len
  · exact exec_epWrite_refused hl (handleSize_eq_none (.inr (.inl (by decide)))) data

/-! ### The region of an allocated endpoint (42_allocator.md R201) -/

theorem regionBase_std {s : State} {n : Fin 8} (hl : s.cfg.layout = Config.Layout.std) (hn : n ≠ 0) (d : Dir) :
    regionBase s n d = 0x088 + 124 * (n.val - 1) := by
  rw [regionBase, hl, bufmap_std hn]

/-- From the base of a region as many bytes as a 7-bit count can name lie inside EP_SRAM. -/
theorem region_fits {s : State} {k : Nat} (hl : s.cfg.layout = Config.Layout.std) (n : Fin 8) (hk : k < 2 ^ 7) :
    0x088 + 124 * (n.val - 1) + k ≤ s.cfg.layout.sramSize := by
  rw [hl]
  show 0x088 + 124 * (n.val - 1) + k ≤ 1024
  omega

/-! ### `EP_READ` (45_endpoint_io.md R291) -/

/-- Where nothing races the packet is read whole, and the handover changes `NAKRX` of the bits that the check read. -/
theorem readPacket_quiet {s : State} {n : Fin 8} {len k : Nat} (hq : Quiet s) (hl : s.cfg.layout = Config.Layout.std)
    (hn : n ≠ 0) (hk : k = min len s.hw.eps[n].rxcnt.toNat) (hu : Unraced s (0x088 + 124 * (n.val - 1)) k) :
    readPacket n len s.hw.eps[n].csr s =
      finish (.endpoint n) (.bytes (storedBytes s (0x088 + 124 * (n.val - 1)) k)) (setEp n handedBack s) := by
  have small : k < 2 ^ 7 := by
    rw [hk]
    exact Nat.lt_of_le_of_lt (Nat.min_le_right ..) (BitVec.isLt _)
  have handover : storeEpCsr n s.hw.eps[n.val].csr { s.hw.eps[n.val].csr with nakrx := false } s =
      setEp n handedBack s :=
    storeEpCsr_fresh id fun _ => rfl
  simp only [readPacket, regionBase_std hl hn]
  rw [← hk, memRead_quiet hq (region_fits hl n small) hu, andThen_next, andThen_point_quiet hq]
  exact congrArg (finish _ _) handover

/-- Settles O53: the length passes, and what the check reads decides. -/
theorem readTakesPacket : Obligations.ReadTakesPacket := by
  intro s n i len k hq hl hn hi out free short
  rw [exec_epRead_allocated hl hn hi free out, if_neg (Nat.not_lt.mpr short)]
  refine ⟨fun waiting unstalled hk hu => ?_, fun nothing => ?_⟩
  · rw [waiting, unstalled, if_neg (by decide), andThen_point_quiet hq, readPacket_quiet hq hl hn hk hu]
    rfl
  · have empty : (!s.hw.eps[n].csr.nakrx || s.hw.eps[n].csr.stlrx) = true := by
      rwa [Bool.or_eq_true, Bool.not_eq_true']
    rw [if_pos empty]
    rfl

/-! ### `EP_WRITE` (45_endpoint_io.md R292) -/

/-- An endpoint once firmware has written the count and handed the TX buffer to the SIE: where a packet was still armed
its count races on (40_register_access.md R138). -/
def armedEndpoint (count : BitVec 7) (e : Endpoint) : Endpoint :=
  { e with
    txcnt := count
    txcntOld := if e.csr.naktx then [] else e.txcnt :: e.txcntOld
    csr := { e.csr with naktx := false } }

/-- The count is written first; the handover then changes `NAKTX` of the bits read after it. -/
theorem storeEpCsr_armed (n : Fin 8) (c : BitVec 7) (s : State) :
    storeEpCsr n (writeTxcnt n c s).hw.eps[n.val].csr { (writeTxcnt n c s).hw.eps[n.val].csr with naktx := false }
      (writeTxcnt n c s) = setEp n (armedEndpoint c) s := by
  have csr : (writeTxcnt n c s).hw.eps[n.val].csr = s.hw.eps[n].csr :=
    (congrArg Endpoint.csr (writeTxcnt_self n c s)).trans rfl
  refine (storeEpCsr_fresh (s := writeTxcnt n c s)
    (want := { (writeTxcnt n c s).hw.eps[n.val].csr with naktx := false }) (fun _ => rfl) id).trans ?_
  rw [csr, writeTxcnt, setEp_setEp]
  rfl

/-- Arming takes no buffer from the SIE, so it is an update that ends no race. -/
theorem updateEp_armed (n : Fin 8) (c : BitVec 7) (s : State) :
    updateEp n (armedEndpoint c) s = setEp n (armedEndpoint c) s :=
  updateEp_handover rfl rfl rfl (fun _ => rfl) id

/-- What an undisturbed `EP_WRITE` leaves: the bytes in the region, the packet armed, the call held. -/
def packetWritten (n : Fin 8) (data : List Byte) (s : State) : State :=
  setEpHeld n .writing (setEp n (armedEndpoint (BitVec.ofNat 7 data.length))
    (putBytesFw (0x088 + 124 * (n.val - 1)) data s))

section PacketWritten

variable {s : State} (n : Fin 8) (data : List Byte)

theorem writePacket_quiet (hq : Quiet s) (hl : s.cfg.layout = Config.Layout.std) (hn : n ≠ 0)
    (small : data.length < 2 ^ 7) : writePacket n data s = .next (packetWritten n data s) := by
  have stored : Quiet (putBytesFw (0x088 + 124 * (n.val - 1)) data s) := quiet_sameBut hq (putBytesFw_sameBut s _ _)
  have counted := quiet_writeTxcnt stored n (BitVec.ofNat 7 data.length)
  rw [writePacket, regionBase_std hl hn, memWrite_quiet hq (region_fits hl n small), andThen_next,
    andThen_point_quiet stored, andThen_point_quiet counted]
  refine (andThen_point_quiet counted _).trans ?_
  exact congrArg (fun u => Host.Outcome.next (setEpHeld n .writing u)) (storeEpCsr_armed n _ _)

theorem packetWritten_ep : (packetWritten n data s).hw.eps[n] =
    armedEndpoint (BitVec.ofNat 7 data.length) s.hw.eps[n] := by
  refine (setEp_get _ n n _).trans ((if_pos rfl).trans ?_)
  rw [(putBytesFw_sameBut s _ _).eps]

/-- Outside the packet every byte is as before. -/
theorem packetWritten_sameOutside :
    SameOutside s (packetWritten n data s) (0x088 + 124 * (n.val - 1)) data.length := by
  have stored := putBytesFw_sameBut s (0x088 + 124 * (n.val - 1)) data
  have armed := racesEnd_updateEp n (armedEndpoint (BitVec.ofNat 7 data.length))
    (putBytesFw (0x088 + 124 * (n.val - 1)) data s)
  rw [updateEp_armed] at armed
  exact (putBytesFw_sameOutside s _ data).racesEnd stored.owns (fun _ => rfl)
    (armed.congr (.refl _) (.of_eq rfl rfl rfl))

end PacketWritten

/-- Settles O55: the packet stored by firmware, then armed, and the call held. -/
theorem writeArmsPacket : Obligations.WriteArmsPacket := by
  intro s n i data hq sound hn hi inp free short
  obtain ⟨-, size, -⟩ := sound.info n i hi
  have small : data.length < 2 ^ 7 := by omega
  have ep := packetWritten_ep (s := s) n data
  rw [exec_epWrite_allocated sound.layout hn hi free inp, if_neg (Nat.not_lt.mpr short),
    writePacket_quiet n data hq sound.layout hn small]
  refine ⟨_, rfl, storedBytes_putBytesFw s _ data, packetWritten_sameOutside n data, fun k low high => ?_, ?_, ?_⟩
  · exact (racedAt_putBytesFw s _ data k).trans (if_pos ⟨low, high⟩)
  · rw [ep]
    exact (BitVec.toNat_ofNat ..).trans (Nat.mod_eq_of_lt small)
  · rw [ep, packetWritten, setEp, putBytesFw_sameBut s _ data]
    rfl

end Sys2Proof.Machine
end

section
/-! PROOFS. The exceptions family: endpoint numbers that name no physical endpoint (60_exceptions.md R315). -/

namespace Sys2Proof.Machine

/-- `BUFMAP` takes its number bare, without an address, and aborts above 7 (42_allocator.md R201). -/
theorem exec_bufmap_abort {s : State} {n : Nat} (hl : s.cfg.layout = Config.Layout.std) (high : 7 < n) (d : Dir) :
    exec (.bufmap n d) s = abort := by
  show execBufmap n d s = abort
  rw [execBufmap, hl, endpointOf_none high]
  rfl

/-- An allocation that no test before its endpoint's excludes (42_allocator.md R202, R206) aborts on a given address
whose number names no endpoint; whether the number fits the type (R311) is not asked. -/
theorem allocate_abort {s : State} {d : Dir} {ty : EpType} {a : EpAddr} (hl : s.cfg.layout = Config.Layout.std)
    (high : 7 < a.num.toNat) (notStarted : s.fw.life ≠ .started) (notEnabled : s.fw.busEnabled = false)
    (notIsochronous : ty ≠ .isochronous) (mps : Nat) (iv : Byte) : allocate d ty (some a) mps iv s = abort := by
  have numbered : 7 < (chosenNumber s d ty (some a)).toNat := high
  rw [allocate, if_neg notStarted, if_neg (by simp [notEnabled]), if_neg notIsochronous]
  exact withEndpoint_abort hl numbered _

/-- Settles O41: every operation looks its endpoint up before anything else, an allocation after the tests that exclude
it altogether. -/
theorem numberAboveSevenAborts : Obligations.NumberAboveSevenAborts := by
  intro s a hl high
  have lookupFails (f : Fin 8 → Res) : withEndpoint s a f = abort := withEndpoint_abort hl high f
  refine ⟨fun _ => lookupFails _, lookupFails _, fun _ => lookupFails _, lookupFails _, lookupFails _,
    fun _ => lookupFails _, fun _ => lookupFails _, fun n d above => exec_bufmap_abort hl above d, ?allocation⟩
  case allocation =>
    intro d ty mps iv notStarted notEnabled notIsochronous
    rw [exec_allocInstr]
    exact allocate_abort hl high notStarted notEnabled notIsochronous mps iv

end Sys2Proof.Machine
end

section
/-! PROOFS. The reset and hazards family: a SETUP between the read and the write of `CP_REJECT`
(70_reset_and_hazards.md R367). -/

namespace Sys2Proof.Machine

/-! ### The write of `EPnCSR` after a read that may be stale (70_reset_and_hazards.md R367) -/

section StaleWrite

variable {n : Fin 8} {s : State} {t : EpCsr} {d : Dir}

/-- A stall bit that the toggle finds as the read did comes out as wanted. -/
theorem EpCsr.toggle_toggle_stall {c : EpCsr} (same : c.stall d = t.stall d) (want : EpCsr) :
    (c.toggle (t.toggle want)).stall d = want.stall d := by
  have toggled (a b : EpCsr) : (a.toggle b).stall d = (a.stall d ^^ b.stall d) := by
    cases d <;> rfl
  rw [toggled, toggled, same, ← Bool.xor_assoc, Bool.xor_self, Bool.false_xor]

/-- So it does in the effect-level write, under either semantics and whatever became of the other bits. -/
theorem storeEpCsr_stall (same : s.hw.eps[n].csr.stall d = t.stall d) (want : EpCsr) :
    (storeEpCsr n t want s).hw.eps[n].csr.stall d = want.stall d := by
  unfold storeEpCsr
  cases semantics : s.cfg.epcsrWrite with
  | toggle =>
    dsimp only
    split
    · next unchanged => rw [same, unchanged]
    · rw [writeEpCsr_csr, semantics]
      exact EpCsr.toggle_toggle_stall same want
  | plain =>
    dsimp only
    rw [writeEpCsr_csr, semantics]
    rfl

/-- And in the write that is made only where a bit differs. -/
theorem changeEpCsr_stall (same : s.hw.eps[n].csr.stall d = t.stall d) (want : EpCsr) :
    (changeEpCsr n t want s).hw.eps[n].csr.stall d = want.stall d := by
  unfold changeEpCsr
  split
  · next unchanged => rw [same, unchanged]
  · exact storeEpCsr_stall same want

/-- That write changes the hardware only. -/
theorem changeEpCsr_hardware (want : EpCsr) : SameButHardware s (changeEpCsr n t want s) := by
  unfold changeEpCsr
  split
  · rfl
  · next differs =>
    rw [storeEpCsr, if_neg differs]
    split <;> rfl

end StaleWrite

/-! ### A SETUP in the window of `CP_REJECT` (70_reset_and_hazards.md R367(a)) -/

/-- On its way to the status stage a transfer changes its phase at most (44_control_pipe.md R260). -/
theorem statusPhase_eq_setPhase (s : State) : ∃ p, statusPhase s = setPhase p s := by
  unfold statusPhase
  split
  · exact ⟨_, rfl⟩
  · exact ⟨s.fw.phase, rfl⟩

/-- After an accepted SETUP no direction of endpoint 0 is stalled (41_bus_side.md R166). -/
theorem acceptPacket_setup_unstalled (a : Nat) (data : List Byte) (s : State) (d : Dir) :
    (acceptPacket 0 setupEndpoint a data s).hw.eps[(0 : Fin 8)].csr.stall d = false := by
  have endpoint : (acceptPacket 0 setupEndpoint a data s).hw.eps[(0 : Fin 8)] = countBack _ (setupEndpoint _) :=
    (updateEp_get (putBytes a data s) 0 0 setupEndpoint).trans (if_pos rfl)
  rw [endpoint, countBack_setupEndpoint]
  cases d <;> rfl

/-- Settles O58: the SETUP leaves the stall bits as `CP_REJECT` read them, both 0, so the write sets both. -/
theorem rejectCanStallNewSetup : Obligations.RejectCanStallNewSetup := by
  intro s addr ep data hl hc hm ht hd htx hrx hs
  obtain ⟨p, phase⟩ := statusPhase_eq_setPhase s
  generalize hp : acceptPacket 0 setupEndpoint 0 data { setPhase p s with sched := [] } = packet
  have arrives : point (setPhase p s) = .next packet :=
    (point_setup (s := setPhase p s) hl hm ht hd hs).trans (congrArg _ hp)
  have run : exec .cpReject s = controlReturn .unit (setPhase .idle (changeEpCsr 0 s.hw.eps[(0 : Fin 8)].csr
      { s.hw.eps[(0 : Fin 8)].csr with stltx := true, stlrx := true } packet)) := by
    refine (whenControlFree_none hc _).trans ?_
    rw [phase, arrives, andThen_next]
  have log : packet.log = .answer .ack :: s.log := by
    rw [← hp, acceptPacket_eq]
    rfl
  have same (d : Dir) : packet.hw.eps[(0 : Fin 8)].csr.stall d = s.hw.eps[(0 : Fin 8)].csr.stall d := by
    rw [← hp, acceptPacket_setup_unstalled]
    cases d
    · exact hrx.symm
    · exact htx.symm
  refine ⟨_, run, ?_, changeEpCsr_stall (same .inp) _, changeEpCsr_stall (same .out) _⟩
  show _ :: (changeEpCsr 0 _ _ packet).log = _
  rw [changeEpCsr_hardware, log]

end Sys2Proof.Machine
end
